-- ==== Sys2Proof/Word.lean ====
section
/-! DEFINITION. The word types of VRCE (spec/10_state.md, spec/20_memory.md). -/
namespace Sys2Proof

/-- A 32-bit quantity: a command word, a register, an address (rule R104, rule R200, rule R300). -/
abbrev Word := BitVec 32

/-- An 8-bit quantity: a sample, a probability, an output byte (rule R9, rule R10, rule R123). -/
abbrev Byte := BitVec 8

/-- A sparse array: the elements that have been written, as (index, value) pairs with strictly rising
indices (`cellsWf` in Machine/Ops.lean). An index that is not listed holds no value: what a read of it
answers is not fixed by the spec (rule R141, rule R212) and is a free value of `Params.free`. -/
abbrev Cells (α : Type) := List (Nat × α)

end Sys2Proof
end

