-- ==== Sys2Proof/Syntax.lean ====
section
/-! DEFINITION. The commands of VRCE (spec/30_encoding.md rule R307), one constructor for each row of
spec/opcode_table.json, with the operand fields of rule R302 to rule R305. -/
namespace Sys2Proof

/-- A command. Its operands are the fields of its word; every other operand comes from the registers and
arrays (rule R306). -/
inductive Instr
  /-- NOP (rule R720). -/
  | nop
  /-- SOFT_RESET (rule R801). -/
  | softReset
  /-- BW_INIT (rule R420). -/
  | bwInit
  /-- BW_PUTBIT bit, prob (rule R421). -/
  | bwPutbit (bit : Bool) (prob : Byte)
  /-- BW_PUTBITU bit (rule R422). -/
  | bwPutbitu (bit : Bool)
  /-- BW_PUTBITS value, nbits (rule R423). -/
  | bwPutbits (nb : BitVec 5) (val : BitVec 16)
  /-- BW_PUTSBITS value, nbits (rule R424). -/
  | bwPutsbits (nb : BitVec 5) (val : BitVec 16)
  /-- BW_FINISH (rule R425). -/
  | bwFinish
  /-- MI_RESET (rule R520). -/
  | miReset
  /-- MI_IMPORT (rule R530). -/
  | miImport
  /-- MI_EXPORT (rule R540). -/
  | miExport
  /-- MI_SAVE_BOUNDARY (rule R545). -/
  | miSaveBoundary
  /-- MI_ADVANCE (rule R550). -/
  | miAdvance
  /-- MI_NZ_TO_FLAGS (rule R561). -/
  | miNzToFlags
  /-- MI_FLAGS_TO_NZ (rule R562). -/
  | miFlagsToNz
  /-- MI_SKIP_NZ (rule R563). -/
  | miSkipNz
  /-- RC_CODE_BLOCK slot, type, ctx (rule R610). -/
  | rcCodeBlock (slot : BitVec 5) (ty : BitVec 2) (ctx : BitVec 2)
  /-- RC_RECORD_BLOCK slot, type, ctx (rule R611). -/
  | rcRecordBlock (slot : BitVec 5) (ty : BitVec 2) (ctx : BitVec 2)
  /-- RC_CODE_MB (rule R622). -/
  | rcCodeMb
  /-- RC_RECORD_MB (rule R623). -/
  | rcRecordMb
  /-- RC_RESET_STATS (rule R631). -/
  | rcResetStats
  /-- RC_LOAD_DEFAULT (rule R632). -/
  | rcLoadDefault
  /-- RC_FINALIZE (rule R640). -/
  | rcFinalize
deriving DecidableEq, Repr

end Sys2Proof
end

