-- ==== Sys2Proof/WellFormed.lean ====
section
/-! DEFINITION. The field ranges of the operands (spec/30_encoding.md rule R304, rule R305). A term outside
them is written by no command word: such a word is illegal (rule R308 step 3). -/
namespace Sys2Proof

/-- The range of NB in BW_PUTBITS, 1..16 (rule R304). -/
def putbitsCountOk (nb : BitVec 5) : Bool := decide (1 ≤ nb.toNat) && decide (nb.toNat ≤ 16)

/-- The range of NB in BW_PUTSBITS, 0..15 (rule R304). -/
def putsbitsCountOk (nb : BitVec 5) : Bool := decide (nb.toNat ≤ 15)

/-- The range of SLOT, 0..24 (rule R305). -/
def slotOk (slot : BitVec 5) : Bool := decide (slot.toNat ≤ 24)

/-- The range of CTX, 0..2 (rule R305). -/
def ctxOk (ctx : BitVec 2) : Bool := decide (ctx.toNat ≤ 2)

/-- The command is one that a legal word encodes. -/
def Instr.wellFormed : Instr → Bool
  | .nop => true
  | .softReset => true
  | .bwInit => true
  | .bwPutbit _ _ => true
  | .bwPutbitu _ => true
  | .bwPutbits nb _ => putbitsCountOk nb
  | .bwPutsbits nb _ => putsbitsCountOk nb
  | .bwFinish => true
  | .miReset => true
  | .miImport => true
  | .miExport => true
  | .miSaveBoundary => true
  | .miAdvance => true
  | .miNzToFlags => true
  | .miFlagsToNz => true
  | .miSkipNz => true
  | .rcCodeBlock slot _ ctx => slotOk slot && ctxOk ctx
  | .rcRecordBlock slot _ ctx => slotOk slot && ctxOk ctx
  | .rcCodeMb => true
  | .rcRecordMb => true
  | .rcResetStats => true
  | .rcLoadDefault => true
  | .rcFinalize => true

end Sys2Proof
end

