-- ==== Sys2Proof/Decode.lean ====
section
/-! DEFINITION. Decoding a command word and encoding a command (spec/30_encoding.md rule R300 to rule R311). -/
namespace Sys2Proof

/-- Why a word is no command (rule R308). All three raise ILLEGAL_COMMAND (rule R311). -/
inductive DecodeError
  /-- Step (1): the opcode is 0x00 or reserved (rule R309, rule R310). -/
  | reservedOpcode
  /-- Step (2): a "must be 0" bit of the format is 1. -/
  | mustBeZero
  /-- Step (3): NB, SLOT or CTX is outside its range. -/
  | fieldRange
deriving DecidableEq, Repr

/-- OP = w[31:26] (rule R300). -/
def opField (w : Word) : BitVec 6 := w.extractLsb' 26 6

/-- The opcode of each command (rule R307). -/
def Instr.opcode : Instr → BitVec 6
  | .nop => 0x01
  | .softReset => 0x02
  | .bwInit => 0x08
  | .bwPutbit _ _ => 0x09
  | .bwPutbitu _ => 0x0A
  | .bwPutbits _ _ => 0x0B
  | .bwPutsbits _ _ => 0x0C
  | .bwFinish => 0x0D
  | .miReset => 0x10
  | .miImport => 0x11
  | .miExport => 0x12
  | .miSaveBoundary => 0x13
  | .miAdvance => 0x14
  | .miNzToFlags => 0x15
  | .miFlagsToNz => 0x16
  | .miSkipNz => 0x17
  | .rcCodeBlock _ _ _ => 0x18
  | .rcRecordBlock _ _ _ => 0x19
  | .rcCodeMb => 0x1A
  | .rcRecordMb => 0x1B
  | .rcResetStats => 0x1C
  | .rcLoadDefault => 0x1D
  | .rcFinalize => 0x1E

/-- Format N: w[25:0] must be 0 (rule R301). -/
def formatN (w : Word) (i : Instr) : Except DecodeError Instr :=
  if w.extractLsb' 0 26 = 0 then .ok i else .error .mustBeZero

/-- Format PB: w[25:9] must be 0, BIT = w[8], PROB = w[7:0] (rule R302). -/
def formatPB (w : Word) (f : Bool → Byte → Instr) : Except DecodeError Instr :=
  if w.extractLsb' 9 17 = 0 then .ok (f (w.getLsbD 8) (w.extractLsb' 0 8)) else .error .mustBeZero

/-- Format PU: w[25:1] must be 0, BIT = w[0] (rule R303). -/
def formatPU (w : Word) (f : Bool → Instr) : Except DecodeError Instr :=
  if w.extractLsb' 1 25 = 0 then .ok (f (w.getLsbD 0)) else .error .mustBeZero

/-- Format PL: w[25:21] must be 0, NB = w[20:16] in the range `ok`, VAL = w[15:0] (rule R304). -/
def formatPL (w : Word) (ok : BitVec 5 → Bool) (f : BitVec 5 → BitVec 16 → Instr) :
    Except DecodeError Instr :=
  if w.extractLsb' 21 5 = 0 then
    if ok (w.extractLsb' 16 5) then .ok (f (w.extractLsb' 16 5) (w.extractLsb' 0 16))
    else .error .fieldRange
  else .error .mustBeZero

/-- Format RB: w[25:13], w[7:6] and w[3:2] must be 0, SLOT = w[12:8], TYPE = w[5:4], CTX = w[1:0]
(rule R305). -/
def formatRB (w : Word) (f : BitVec 5 → BitVec 2 → BitVec 2 → Instr) : Except DecodeError Instr :=
  if w.extractLsb' 13 13 = 0 ∧ w.extractLsb' 6 2 = 0 ∧ w.extractLsb' 2 2 = 0 then
    if slotOk (w.extractLsb' 8 5) && ctxOk (w.extractLsb' 0 2) then
      .ok (f (w.extractLsb' 8 5) (w.extractLsb' 4 2) (w.extractLsb' 0 2))
    else .error .fieldRange
  else .error .mustBeZero

/-- The decoding procedure, total on every 32-bit word (rule R308). -/
def decode (w : Word) : Except DecodeError Instr :=
  match (opField w).toNat with
  | 0x01 => formatN w .nop
  | 0x02 => formatN w .softReset
  | 0x08 => formatN w .bwInit
  | 0x09 => formatPB w .bwPutbit
  | 0x0A => formatPU w .bwPutbitu
  | 0x0B => formatPL w putbitsCountOk .bwPutbits
  | 0x0C => formatPL w putsbitsCountOk .bwPutsbits
  | 0x0D => formatN w .bwFinish
  | 0x10 => formatN w .miReset
  | 0x11 => formatN w .miImport
  | 0x12 => formatN w .miExport
  | 0x13 => formatN w .miSaveBoundary
  | 0x14 => formatN w .miAdvance
  | 0x15 => formatN w .miNzToFlags
  | 0x16 => formatN w .miFlagsToNz
  | 0x17 => formatN w .miSkipNz
  | 0x18 => formatRB w .rcCodeBlock
  | 0x19 => formatRB w .rcRecordBlock
  | 0x1A => formatN w .rcCodeMb
  | 0x1B => formatN w .rcRecordMb
  | 0x1C => formatN w .rcResetStats
  | 0x1D => formatN w .rcLoadDefault
  | 0x1E => formatN w .rcFinalize
  | _ => .error .reservedOpcode

/-- The operand bits w[25:0] of a command, most significant field first (rule R301 to rule R305). -/
def Instr.operandBits : Instr → BitVec 26
  | .bwPutbit bit prob => 0#17 ++ BitVec.ofBool bit ++ prob
  | .bwPutbitu bit => 0#25 ++ BitVec.ofBool bit
  | .bwPutbits nb val => 0#5 ++ nb ++ val
  | .bwPutsbits nb val => 0#5 ++ nb ++ val
  | .rcCodeBlock slot ty ctx => 0#13 ++ slot ++ 0#2 ++ ty ++ 0#2 ++ ctx
  | .rcRecordBlock slot ty ctx => 0#13 ++ slot ++ 0#2 ++ ty ++ 0#2 ++ ctx
  | .nop => 0
  | .softReset => 0
  | .bwInit => 0
  | .bwFinish => 0
  | .miReset => 0
  | .miImport => 0
  | .miExport => 0
  | .miSaveBoundary => 0
  | .miAdvance => 0
  | .miNzToFlags => 0
  | .miFlagsToNz => 0
  | .miSkipNz => 0
  | .rcCodeMb => 0
  | .rcRecordMb => 0
  | .rcResetStats => 0
  | .rcLoadDefault => 0
  | .rcFinalize => 0

/-- The command word of a command (rule R301 to rule R307). -/
def encode (i : Instr) : Word := i.opcode ++ i.operandBits

/-- A field whose value has a range (rule R304, rule R305): its low bit, its width, and its least and
greatest legal value. -/
structure FieldRange where
  lo : Nat
  width : Nat
  least : Nat
  greatest : Nat
deriving DecidableEq, Repr

/-- A row of spec/opcode_table.json. -/
structure OpcodeRow where
  mnemonic : String
  pattern : Word
  mask : Word
  ranges : List FieldRange := []
deriving DecidableEq, Repr

/-- The word is one of the row's. -/
def OpcodeRow.covers (r : OpcodeRow) (w : Word) : Bool :=
  decide (w &&& r.mask = r.pattern) &&
    r.ranges.all fun f =>
      decide (f.least ≤ (w.extractLsb' f.lo f.width).toNat) &&
        decide ((w.extractLsb' f.lo f.width).toNat ≤ f.greatest)

/-- The opcode table, row by row as spec/opcode_table.json has it (rule R307): a second description of the
words, beside `decode` and `encode`. -/
def opcodeTable : List OpcodeRow :=
  [ ⟨"NOP", 0x04000000, 0xFFFFFFFF, []⟩,
    ⟨"SOFT_RESET", 0x08000000, 0xFFFFFFFF, []⟩,
    ⟨"BW_INIT", 0x20000000, 0xFFFFFFFF, []⟩,
    ⟨"BW_PUTBIT", 0x24000000, 0xFFFFFE00, []⟩,
    ⟨"BW_PUTBITU", 0x28000000, 0xFFFFFFFE, []⟩,
    ⟨"BW_PUTBITS", 0x2C000000, 0xFFE00000, [⟨16, 5, 1, 16⟩]⟩,
    ⟨"BW_PUTSBITS", 0x30000000, 0xFFE00000, [⟨16, 5, 0, 15⟩]⟩,
    ⟨"BW_FINISH", 0x34000000, 0xFFFFFFFF, []⟩,
    ⟨"MI_RESET", 0x40000000, 0xFFFFFFFF, []⟩,
    ⟨"MI_IMPORT", 0x44000000, 0xFFFFFFFF, []⟩,
    ⟨"MI_EXPORT", 0x48000000, 0xFFFFFFFF, []⟩,
    ⟨"MI_SAVE_BOUNDARY", 0x4C000000, 0xFFFFFFFF, []⟩,
    ⟨"MI_ADVANCE", 0x50000000, 0xFFFFFFFF, []⟩,
    ⟨"MI_NZ_TO_FLAGS", 0x54000000, 0xFFFFFFFF, []⟩,
    ⟨"MI_FLAGS_TO_NZ", 0x58000000, 0xFFFFFFFF, []⟩,
    ⟨"MI_SKIP_NZ", 0x5C000000, 0xFFFFFFFF, []⟩,
    ⟨"RC_CODE_BLOCK", 0x60000000, 0xFFFFE0CC, [⟨8, 5, 0, 24⟩, ⟨0, 2, 0, 2⟩]⟩,
    ⟨"RC_RECORD_BLOCK", 0x64000000, 0xFFFFE0CC, [⟨8, 5, 0, 24⟩, ⟨0, 2, 0, 2⟩]⟩,
    ⟨"RC_CODE_MB", 0x68000000, 0xFFFFFFFF, []⟩,
    ⟨"RC_RECORD_MB", 0x6C000000, 0xFFFFFFFF, []⟩,
    ⟨"RC_RESET_STATS", 0x70000000, 0xFFFFFFFF, []⟩,
    ⟨"RC_LOAD_DEFAULT", 0x74000000, 0xFFFFFFFF, []⟩,
    ⟨"RC_FINALIZE", 0x78000000, 0xFFFFFFFF, []⟩ ]

/-- The command the decoder reads from the word `w` of a table row of `nbits` bits; `none` where the word
is illegal. VRCE's commands are single 32-bit words on the host port (rule R300), so bit 0 of `w` is
bit 0 of the command word. -/
def decodeTableWord (nbits w : Nat) : Option Instr :=
  match decode (BitVec.ofNat 32 (w % 2 ^ nbits)) with
  | .ok i => some i
  | .error _ => none

end Sys2Proof
end

