-- ==== Sys2Proof/Config.lean ====
section
/-! DEFINITION. The parameters of the model (spec/00_scope.md rule R8, rule R103) and its free values
(spec/93_implementation_defined.md U1 to U4, U10). -/
namespace Sys2Proof

/-- The places whose value the spec leaves open ("any value"). The first group are the arrays of rule
R141 and the source memory (rule R212), the second the registers an imprecise fault leaves unspecified
(rule R704). -/
inductive FreeSite
  | out | yuvIn | yuvOut | yTop | uvTop | yLeft | uLeft | vLeft | nz | topNz | leftNz | coef | src
  | bwRange | bwValue | bwNbits | bwRun | bwPos | bwLastBit | lumaBits | uvBits | bitCount
deriving DecidableEq, Repr

/-- The arguments of the model (rule R8), and its source of free values. All operations below take the
parameters as an argument; `exec` and `step` use `Config.params`, whose OPEN members are opaque. -/
structure Params where
  /-- MAX_MB_W, the largest grid width (rule R8). -/
  maxMbW : Nat
  /-- MAX_MB_H, the largest grid height (rule R8). -/
  maxMbH : Nat
  /-- OUT_CAP, the capacity of OUT in bytes (rule R8). -/
  outCap : Nat
  /-- DEFAULT_COEFF_PROBS by CELL index (rule R8). -/
  defaultProb : Nat → Byte
  /-- COEFF_UPDATE_PROBS by CELL index (rule R8). -/
  updateProb : Nat → Byte
  /-- BIT_COST(bit, p) in 1/256-bit units (rule R8, rule R12). -/
  bitCost : Bool → Byte → Nat
  /-- SRC_ADMIT, the source-port addresses that may be accessed (rule R8, rule R212). -/
  srcAdmit : Word → Bool
  /-- STATS_HALVE_THRESHOLD (rule R8). -/
  halveThreshold : Nat
  /-- The free values: what an open place holds, by the time of the event that reads or makes it and
  by the index inside the place. A use takes the low bits it needs. -/
  free : FreeSite → Nat → Nat → BitVec 64

/-- MAX_MB_W less one: OPEN, 1 ≤ MAX_MB_W ≤ 2048 (rule R8). -/
opaque Config.maxMbWLessOne : Fin 2048

/-- MAX_MB_H less one: OPEN, 1 ≤ MAX_MB_H ≤ 65535 (rule R8). -/
opaque Config.maxMbHLessOne : Fin 65535

/-- OUT_CAP less one: OPEN, 1 ≤ OUT_CAP ≤ 2^28 (rule R8). -/
opaque Config.outCapLessOne : Fin 268435456

/-- DEFAULT_COEFF_PROBS: OPEN (rule R8, 91_not_in_source.md N1). -/
opaque Config.defaultCoeffProbs : Nat → Byte

/-- COEFF_UPDATE_PROBS: OPEN (rule R8, 91_not_in_source.md N2). -/
opaque Config.coeffUpdateProbs : Nat → Byte

/-- BIT_COST: OPEN, an uninterpreted total function (rule R12). -/
opaque Config.bitCost : Bool → Byte → Nat

/-- SRC_ADMIT: OPEN (rule R8). -/
opaque Config.srcAdmit : Word → Bool

/-- The free values of the places the spec leaves open, in a log entry (notes/assumptions/6.md,
notes/assumptions/7.md). Nothing in Lean can prove a value of it. -/
opaque Config.freeValue : FreeSite → Nat → Nat → BitVec 64

/-- The parameters `exec` and `step` run with: every OPEN member opaque, STATS_HALVE_THRESHOLD at the
value rule R8 gives it. -/
def Config.params : Params where
  maxMbW := Config.maxMbWLessOne.val + 1
  maxMbH := Config.maxMbHLessOne.val + 1
  outCap := Config.outCapLessOne.val + 1
  defaultProb := Config.defaultCoeffProbs
  updateProb := Config.coeffUpdateProbs
  bitCost := Config.bitCost
  srcAdmit := Config.srcAdmit
  halveThreshold := 0xFFFE0000
  free := Config.freeValue

end Sys2Proof
end

