-- ==== Sys2Proof/Machine/State.lean ====
section
/-! DEFINITION. The state of VRCE and of the host port in front of it (spec/10_state.md), and the state after
hardware reset (rule R142, rule R800). -/
namespace Sys2Proof.Machine

/-- The fault codes of rule R700, as STATUS.ERR_CODE shows them. Codes 10 to 15 are never raised. -/
inductive ErrCode
  | none | allocFailure | invalidDimensions | illegalCommand | wrongState | noMacroblock
  | coeffRange | firstCoeffNonzero | srcBusError | carryInvariant
deriving DecidableEq, Repr

/-- The fault latch (rule R137, rule R107). -/
structure Latch where
  /-- FAULTED. -/
  faulted : Bool
  /-- ERR_CODE. -/
  code : ErrCode
  /-- ERR_CMD. -/
  cmd : Word
  /-- ERR_INFO. -/
  info : Word
deriving DecidableEq, Repr

/-- The configuration registers the host writes (rule R104, rule R108 to rule R112). -/
structure Cfg where
  /-- CFG_WIDTH[15:0]. -/
  width : BitVec 16
  /-- CFG_HEIGHT[15:0]. -/
  height : BitVec 16
  /-- CFG_Y_STRIDE, two's complement. -/
  yStride : Word
  /-- CFG_UV_STRIDE, two's complement. -/
  uvStride : Word
  /-- CFG_Y_BASE. -/
  yBase : Word
  /-- CFG_U_BASE. -/
  uBase : Word
  /-- CFG_V_BASE. -/
  vBase : Word
  /-- MB_TYPE[0]: 0 = intra-4, 1 = intra-16. -/
  mbType : BitVec 1
  /-- MB_SEGMENT[1:0]. -/
  mbSegment : BitVec 2
deriving DecidableEq, Repr

/-- BW.STATE (rule R115). The value 3 never occurs (rule R106). -/
inductive BwState
  | empty | writing | finished
deriving DecidableEq, Repr

/-- The bit writer (rule R115 to rule R123). -/
structure Bw where
  /-- BW.STATE. -/
  st : BwState
  /-- BW.RANGE, the width of the coding interval less one. -/
  range : BitVec 8
  /-- BW.VALUE. -/
  value : BitVec 32
  /-- BW.NBITS, two's complement. -/
  nbits : BitVec 8
  /-- BW.RUN, the count of pending 0xFF bytes. -/
  run : BitVec 32
  /-- BW.POS, the count of bytes written to OUT. -/
  pos : BitVec 32
  /-- BW.LASTBIT. -/
  lastBit : Bool
  /-- OUT, by index. -/
  out : Cells Byte
deriving DecidableEq, Repr

/-- The macroblock iterator (rule R113, rule R114, rule R124 to rule R132). -/
structure Mi where
  /-- MI.X. -/
  x : BitVec 16
  /-- MI.Y. -/
  y : BitVec 16
  /-- MI.MBW. -/
  mbw : BitVec 16
  /-- MI.MBH. -/
  mbh : BitVec 16
  /-- MI.COUNTDOWN. -/
  countdown : BitVec 32
  /-- MI.VALID. -/
  valid : Bool
  /-- MI.LUMA_BITS. -/
  lumaBits : BitVec 32
  /-- MI.UV_BITS. -/
  uvBits : BitVec 32
  /-- BIT_COUNT[s][k] at index 3·s + k; 12 counters. -/
  bitCount : List (BitVec 64)
  /-- YUV_IN[r][c] at index 32·r + c. -/
  yuvIn : Cells Byte
  /-- YUV_OUT[r][c] at index 32·r + c. -/
  yuvOut : Cells Byte
  /-- Y_TOP. -/
  yTop : Cells Byte
  /-- UV_TOP. -/
  uvTop : Cells Byte
  /-- Y_LEFT[i] at index i + 1. -/
  yLeft : Cells Byte
  /-- U_LEFT[i] at index i + 1. -/
  uLeft : Cells Byte
  /-- V_LEFT[i] at index i + 1. -/
  vLeft : Cells Byte
  /-- NZ[x] for x ≥ 0; NZ[−1] is hardwired 0 and not stored (rule R131). -/
  nz : Cells (BitVec 32)
  /-- TOP_NZ. -/
  topNz : Cells (BitVec 1)
  /-- LEFT_NZ. -/
  leftNz : Cells (BitVec 1)
deriving DecidableEq, Repr

/-- The residual coder (rule R133 to rule R136). -/
structure Rc where
  /-- RC.NZ. -/
  nz : Bool
  /-- RC.DIRTY. -/
  dirty : Bool
  /-- RC.SIZE. -/
  size : BitVec 32
  /-- PROB, by CELL index; 1056 cells. -/
  prob : List Byte
  /-- STATS, by CELL index; 1056 cells: total count in [31:16], count of ones in [15:0]. -/
  stats : List (BitVec 32)
  /-- COEF[s][n] at index 16·s + n, two's complement. -/
  coef : Cells (BitVec 16)
deriving DecidableEq, Repr

/-- One event of the total order of rule R215: an access of the host port, an access the host makes to the
source memory on its own (rule R212), or the platform's reset input (rule R800). -/
inductive HostEvent
  /-- A host-port read of `bytes` bytes at `addr` (rule R205). -/
  | read (addr : Word) (bytes : Nat)
  /-- A host-port write of the low `bytes` bytes of `value` at `addr` (rule R205). A 4-byte write at 0x000
  hands a command to the sequencer (rule R105). -/
  | write (addr : Word) (bytes : Nat) (value : Word)
  /-- The host reads a source-memory byte. -/
  | srcRead (addr : Word)
  /-- The host writes a source-memory byte. -/
  | srcWrite (addr : Word) (value : Byte)
  /-- The platform asserts hardware reset. -/
  | hardReset
deriving DecidableEq, Repr

/-- What the host port answered to the last event. -/
inductive HostResp
  /-- No event has been performed. -/
  | idle
  /-- The event completed with no data: a write, a command, a reset. -/
  | done
  /-- A read completed with these data, zero-extended to 32 bits. -/
  | data (v : Word)
  /-- The error response of rule R202: nothing read, nothing written. -/
  | refused
deriving DecidableEq, Repr

/-- The whole machine: VRCE's state, the platform's source memory, and three fields of the model's own that
stand for the host's side of the port (notes/assumptions/1.md, notes/assumptions/6.md). -/
structure State where
  /-- The fault latch (rule R137). -/
  latch : Latch
  /-- The configuration registers (rule R104). -/
  cfg : Cfg
  /-- The bit writer. -/
  bw : Bw
  /-- The macroblock iterator. -/
  mi : Mi
  /-- The residual coder. -/
  rc : Rc
  /-- The source memory (rule R212): the bytes that have been written, by address. State of the platform
  (rule R103). -/
  src : List Host.Cell
  /-- The model's own: the events the host has still to perform, the next one first (rule R101, rule R215). -/
  hostQueue : List HostEvent
  /-- The model's own: the host port's answer to the last event. -/
  hostResp : HostResp
  /-- The model's own: how many events have been performed; it makes free values of different events
  independent. -/
  tick : Nat
deriving DecidableEq, Repr

/-- Why the machine stops with a fault. It has no constructor: every fault of VRCE is recorded in the fault
latch and ends its command in a next state (rule R702), and an access to an address that does not exist is
answered by the host port (rule R202). Safe: nothing the spec lets go on is stopped. -/
inductive Fault
deriving DecidableEq, Repr

/-- Why a command is refused a meaning. -/
inductive Refusal
  /-- Raised by an arm of `exec` whose command has no meaning in the model. No arm raises it: every command
  of rule R307 has its meaning. Safe. -/
  | notModelled (mnemonic : String)
deriving DecidableEq, Repr

/-- The number of cells of PROB and STATS, 4·8·3·11 (rule R9). -/
def numCells : Nat := 1056

/-- The fault latch after reset (rule R142). -/
def Latch.reset : Latch := { faulted := false, code := .none, cmd := 0, info := 0 }

/-- The configuration registers after reset (rule R142). -/
def Cfg.reset : Cfg :=
  { width := 0, height := 0, yStride := 0, uvStride := 0, yBase := 0, uBase := 0, vBase := 0,
    mbType := 0, mbSegment := 0 }

/-- The bit writer after reset (rule R142); OUT has no defined value (rule R141). -/
def Bw.reset : Bw :=
  { st := .empty, range := 0, value := 0, nbits := 0, run := 0, pos := 0, lastBit := false, out := [] }

/-- The iterator after reset (rule R142); its arrays have no defined value (rule R141). -/
def Mi.reset : Mi :=
  { x := 0, y := 0, mbw := 0, mbh := 0, countdown := 0, valid := false, lumaBits := 0, uvBits := 0,
    bitCount := List.replicate 12 0, yuvIn := [], yuvOut := [], yTop := [], uvTop := [], yLeft := [],
    uLeft := [], vLeft := [], nz := [], topNz := [], leftNz := [] }

/-- The residual coder after reset (rule R142): PROB holds the default table, STATS is 0, and COEF has no
defined value (rule R141). -/
def Rc.reset (P : Params) : Rc :=
  { nz := false, dirty := false, size := 0, prob := (List.range numCells).map P.defaultProb,
    stats := List.replicate numCells 0, coef := [] }

/-- The state after hardware reset, with nothing in the source memory and no host event outstanding. -/
def State.resetWith (P : Params) : State :=
  { latch := Latch.reset, cfg := Cfg.reset, bw := Bw.reset, mi := Mi.reset, rc := Rc.reset P, src := [],
    hostQueue := [], hostResp := .idle, tick := 0 }

/-- The machine right after reset (rule R142, rule R800). -/
def State.reset : State := State.resetWith Config.params

end Sys2Proof.Machine
end

