-- ==== Sys2Proof/Machine/Ops.lean ====
section
/-! DEFINITION. The named operations over storage and state that the commands share: sparse arrays, the source
memory, named register updates, raising a fault (spec/60_exceptions.md rule R702 to rule R705) and the
recovery from one (spec/70_reset_and_hazards.md rule R801). -/
namespace Sys2Proof.Machine

/-! ## Sparse arrays -/

/-- The element at index `k`, if it has been written. -/
def cellGet {α : Type} : Cells α → Nat → Option α
  | [], _ => none
  | (a, x) :: t, k => if a = k then some x else cellGet t k

/-- Write the element at index `k`, keeping the indices strictly rising. -/
def cellSet {α : Type} : Cells α → Nat → α → Cells α
  | [], k, v => [(k, v)]
  | (a, x) :: t, k, v =>
    if k < a then (k, v) :: (a, x) :: t
    else if k = a then (k, v) :: t
    else (a, x) :: cellSet t k v

/-- Forget the element at index `k`: it has no defined value any more. -/
def cellErase {α : Type} (m : Cells α) (k : Nat) : Cells α := m.filter fun c => c.1 != k

/-- Write the listed elements, the first one first. -/
def cellSetAll {α : Type} (m : Cells α) : List (Nat × α) → Cells α
  | [] => m
  | (k, v) :: rest => cellSetAll (cellSet m k v) rest

/-- Write `v` to the `n` elements from index `k` on. -/
def cellFill {α : Type} (m : Cells α) (k : Nat) (v : α) : Nat → Cells α
  | 0 => m
  | n + 1 => cellFill (cellSet m k v) (k + 1) v n

/-- Every index of the array exceeds `lo`, and the indices rise strictly from there. -/
def cellsRiseFrom {α : Type} (lo : Nat) : Cells α → Bool
  | [] => true
  | (a, _) :: t => decide (lo ≤ a) && cellsRiseFrom (a + 1) t

/-- The canonical form of a sparse array: strictly rising indices. An unlisted index holds no value, so no
entry can equal what an unlisted index reads as. -/
def cellsWf {α : Type} (m : Cells α) : Bool := cellsRiseFrom 0 m

/-- A free value of `w` bits (rule R141, rule R704). -/
def freeBits (P : Params) (w : Nat) (site : FreeSite) (tick ix : Nat) : BitVec w :=
  (P.free site tick ix).setWidth w

/-- Read an element: what was last written there, and any value where nothing was (rule R141). -/
def readCell {w : Nat} (P : Params) (tick : Nat) (site : FreeSite) (m : Cells (BitVec w)) (k : Nat) :
    BitVec w :=
  (cellGet m k).getD (freeBits P w site tick k)

/-! ## Source memory -/

/-- The canonical form of the source memory: strictly rising addresses below 2^32 (rule R212). -/
def Memory.wf (m : List Host.Cell) : Bool := cellsWf m && m.all fun c => decide (c.1 < 2 ^ 32)

/-- SrcRead(a) (rule R212). -/
def srcRead (P : Params) (s : State) (a : Word) : Byte := readCell P s.tick .src s.src a.toNat

/-- SrcWrite(a, v) for each listed pair, the first one first (rule R212). -/
def srcWriteAll (m : List Host.Cell) : List (Word × Byte) → List Host.Cell
  | [] => m
  | (a, v) :: rest => srcWriteAll (cellSet m a.toNat v) rest

/-! ## Named updates of the state -/

/-- Replace the fault latch. -/
def State.withLatch (s : State) (l : Latch) : State := { s with latch := l }

/-- Replace the configuration registers. -/
def State.withCfg (s : State) (c : Cfg) : State := { s with cfg := c }

/-- Replace the bit writer. -/
def State.withBw (s : State) (b : Bw) : State := { s with bw := b }

/-- Replace the iterator. -/
def State.withMi (s : State) (m : Mi) : State := { s with mi := m }

/-- Replace the residual coder. -/
def State.withRc (s : State) (r : Rc) : State := { s with rc := r }

/-- Replace the source memory. -/
def State.withSrc (s : State) (m : List Host.Cell) : State := { s with src := m }

/-- Set the host port's answer. -/
def State.withResp (s : State) (r : HostResp) : State := { s with hostResp := r }

/-- Take the next host event off the queue: the events left are `q`, and the event counts as done. -/
def State.accept (s : State) (q : List HostEvent) : State :=
  { s with hostQueue := q, hostResp := .done, tick := s.tick + 1 }

/-! ## Faults -/

/-- A raised fault: the code, and the value to be latched in ERR_INFO (rule R700, rule R702). -/
structure Raise where
  code : ErrCode
  info : Nat
deriving DecidableEq, Repr

/-- The faults raised in the middle of a Flush, which leave state unspecified (rule R704). -/
def ErrCode.imprecise : ErrCode → Bool
  | .allocFailure => true
  | .carryInvariant => true
  | .none => false
  | .invalidDimensions => false
  | .illegalCommand => false
  | .wrongState => false
  | .noMacroblock => false
  | .coeffRange => false
  | .firstCoeffNonzero => false
  | .srcBusError => false

/-- What an imprecise fault of a command leaves unspecified (rule R704). -/
inductive Spoil
  /-- The bit writer's registers and OUT. -/
  | bitWriter
  /-- Those, and the iterator's flags, NZ[MI.X] and bit counts: RC_CODE_MB. -/
  | macroblock
deriving DecidableEq, Repr

/-- The bit writer with every register but BW.STATE, and OUT, at any value (rule R704). -/
def spoilBw (P : Params) (tick : Nat) (b : Bw) : Bw :=
  { st := b.st
    range := freeBits P 8 .bwRange tick 0
    value := freeBits P 32 .bwValue tick 0
    nbits := freeBits P 8 .bwNbits tick 0
    run := freeBits P 32 .bwRun tick 0
    pos := freeBits P 32 .bwPos tick 0
    lastBit := (freeBits P 1 .bwLastBit tick 0).getLsbD 0
    out := [] }

/-- The iterator with TOP_NZ, LEFT_NZ, NZ[MI.X], MI.LUMA_BITS, MI.UV_BITS and BIT_COUNT at any value
(rule R704). -/
def spoilMi (P : Params) (tick : Nat) (m : Mi) : Mi :=
  { m with
    topNz := []
    leftNz := []
    nz := cellErase m.nz m.x.toNat
    lumaBits := freeBits P 32 .lumaBits tick 0
    uvBits := freeBits P 32 .uvBits tick 0
    bitCount := (List.range 12).map fun i => freeBits P 64 .bitCount tick i }

/-- The state an imprecise fault leaves, but for the latch (rule R704). -/
def spoil (P : Params) (sp : Spoil) (s : State) : State :=
  match sp with
  | .bitWriter => s.withBw (spoilBw P s.tick s.bw)
  | .macroblock => (s.withBw (spoilBw P s.tick s.bw)).withMi (spoilMi P s.tick s.mi)

/-- `raise Fault(code, info)` during command `w`: the fault is latched and the command ends (rule R702). -/
def raiseFault (w : Word) (r : Raise) (s : State) : State :=
  s.withLatch { faulted := true, code := r.code, cmd := w, info := BitVec.ofNat 32 r.info }

/-- Taking a fault: precise faults change the latch only, the imprecise ones also leave the state of rule
R704 at any value. -/
def takeFault (P : Params) (sp : Spoil) (w : Word) (r : Raise) (s : State) : State :=
  raiseFault w r (if r.code.imprecise then spoil P sp s else s)

/-- Run the body of command `w`. While FAULTED = 1 it has no effect at all (rule R703); else the command
ends in the state its body leaves, or takes the fault its body raises. -/
def runCommand (P : Params) (sp : Spoil) (w : Word) (body : State → Except Raise State) (s : State) :
    State :=
  if s.latch.faulted then s
  else
    match body s with
    | .ok t => t
    | .error r => takeFault P sp w r s

/-- A word that does not decode (rule R311). -/
def illegalCommand (P : Params) (w : Word) (s : State) : State :=
  runCommand P .bitWriter w (fun _ => .error { code := .illegalCommand, info := 0 }) s

/-- Recovery from a fault, and the reset of rule R800: VRCE's registers and arrays go to their reset values;
the source memory is not changed, nor is the host's side of the port. -/
def resetVrce (P : Params) (s : State) : State :=
  { State.resetWith P with
    src := s.src, hostQueue := s.hostQueue, hostResp := s.hostResp, tick := s.tick }

end Sys2Proof.Machine
end

