-- ==== Sys2Proof/Machine/Flags.lean ====
section
/-! DEFINITION. The STATUS word and the values that are derived and not stored (spec/10_state.md rule R106,
rule R121, rule R140). -/
namespace Sys2Proof.Machine

/-- ERR_CODE of a fault (rule R700). -/
def ErrCode.bits : ErrCode → BitVec 4
  | .none => 0
  | .allocFailure => 1
  | .invalidDimensions => 2
  | .illegalCommand => 3
  | .wrongState => 4
  | .noMacroblock => 5
  | .coeffRange => 6
  | .firstCoeffNonzero => 7
  | .srcBusError => 8
  | .carryInvariant => 9

/-- The number of a BW.STATE (rule R115). -/
def BwState.number : BwState → Nat
  | .empty => 0
  | .writing => 1
  | .finished => 2

/-- MI_DONE = MI.VALID & bool(MI.COUNTDOWN = 0) (rule R106). -/
def miDone (m : Mi) : Bool := m.valid && decide (m.countdown = 0)

/-- STATUS (rule R106): FAULTED [0], ERR_CODE [7:4], BW_STATE [9:8], MI_VALID [12], MI_DONE [13],
BW_LASTBIT [16], RC_NZ [17], RC_DIRTY [18]. -/
def statusWord (s : State) : Word :=
  0#13 ++ BitVec.ofBool s.rc.dirty ++ BitVec.ofBool s.rc.nz ++ BitVec.ofBool s.bw.lastBit ++ 0#2 ++
    BitVec.ofBool (miDone s.mi) ++ BitVec.ofBool s.mi.valid ++ 0#2 ++
    BitVec.ofNat 2 s.bw.st.number ++ s.latch.code.bits ++ 0#3 ++ BitVec.ofBool s.latch.faulted

/-- BW.BITPOS = 8·(BW.POS + BW.RUN) + 8 + BW.NBITS, modulo 2^32 (rule R121). -/
def bitpos (b : Bw) : BitVec 32 :=
  BitVec.ofInt 32 (8 * ((b.pos.toNat : Int) + b.run.toNat) + 8 + b.nbits.toInt)

end Sys2Proof.Machine
end

