-- ==== Sys2Proof/Machine/Tables.lean ====
section
/-! DEFINITION. The constant tables of the hardware (spec/10_state.md rule R138). -/
namespace Sys2Proof.Machine

/-- KNORM[i], the renormalisation shift (rule R403). -/
def knorm (i : Nat) : Nat := 7 - Nat.log2 (i + 1)

/-- KNEW_RANGE[i], the range after renormalisation (rule R403). -/
def knewRange (i : Nat) : Nat := ((i + 1) <<< knorm i) - 1

/-- BANDS[n], the frequency band of a coefficient position, n = 0..16 (rule R602). -/
def bands : List Nat := [0, 1, 2, 3, 6, 4, 5, 6, 6, 6, 6, 6, 6, 6, 6, 7, 0]

/-- BANDS[n] (rule R602). -/
def band (n : Nat) : Nat := bands.getD n 0

/-- FIRST(t), the first coded position of a coefficient type (rule R601). -/
def firstPos (t : Nat) : Nat := if t = 0 then 1 else 0

/-- The probabilities of Cat3's extra bits (rule R605). -/
def cat3 : List Byte := [173, 148, 140]

/-- The probabilities of Cat4's extra bits (rule R605). -/
def cat4 : List Byte := [176, 155, 140, 135]

/-- The probabilities of Cat5's extra bits (rule R605). -/
def cat5 : List Byte := [180, 157, 141, 134, 130]

/-- The probabilities of Cat6's extra bits (rule R605). -/
def cat6 : List Byte := [254, 254, 243, 230, 196, 177, 153, 140, 133, 130, 129]

/-- The probability of the Cat1 bit (rule R604). -/
def cat1Prob : Byte := 159

/-- The probability of the high Cat2 bit (rule R604). -/
def cat2aProb : Byte := 165

/-- The probability of the low Cat2 bit (rule R604). -/
def cat2bProb : Byte := 145

/-- The probability of a uniform bit (rule R401). -/
def uniformProb : Byte := 128

/-- The largest magnitude the token tree codes (rule R607). -/
def maxMagnitude : Nat := 2114

/-- CELL(t,b,c,k), the flat index of a probability or statistics cell (rule R17). -/
def cellIx (t b c k : Nat) : Nat := ((t * 8 + b) * 3 + c) * 11 + k

end Sys2Proof.Machine
end

