-- ==== Sys2Proof/Machine/Operands.lean ====
section
/-! DEFINITION. The bits the literal commands code, from their operand fields (spec/30_encoding.md rule R304,
rule R306; spec/40_bitwriter.md rule R423, rule R424). -/
namespace Sys2Proof.Machine

/-- One binary decision for the bit writer: the bit, and the probability that it is 0 (rule R400). -/
abbrev CodedBit := Bool × Byte

/-- Bits n−1 down to 0 of `v`, each uniform (rule R401, rule R423). -/
def uniformBits (v : Nat) : Nat → List CodedBit
  | 0 => []
  | n + 1 => (v.testBit n, uniformProb) :: uniformBits v n

/-- The bits of BW_PUTBITS: NB bits of the zero-extended VAL, most significant first (rule R423). -/
def literalBits (nb : BitVec 5) (val : BitVec 16) : List CodedBit := uniformBits val.toNat nb.toNat

/-- M = (abs(V) << 1) | bool(V < 0) (rule R424). -/
def signedMagnitude (v : Int) : Nat := 2 * v.natAbs + (if v < 0 then 1 else 0)

/-- The bits of BW_PUTSBITS: a presence bit, and for V ≠ 0 bits NB..0 of M, with V the sign-extended VAL
(rule R424). -/
def signedBits (nb : BitVec 5) (val : BitVec 16) : List CodedBit :=
  let v := val.toInt
  if v = 0 then [(false, uniformProb)]
  else (true, uniformProb) :: uniformBits (signedMagnitude v) (nb.toNat + 1)

end Sys2Proof.Machine
end

