-- ==== Sys2Proof/Machine/BitWriter.lean ====
section
/-! DEFINITION. The bit writer: its internal primitives and its commands (spec/40_bitwriter.md). -/
namespace Sys2Proof.Machine

/-! ## Internal primitives -/

/-- The bytes a Flush writes (rule R404): the carry into OUT[BW.POS − 1], the pending run as 0x00 or 0xFF,
and the byte `bits & 0xFF`. -/
def flushOut (P : Params) (tick : Nat) (b : Bw) (bits : Nat) : Cells Byte :=
  let pos := b.pos.toNat
  let run := b.run.toNat
  let carried :=
    if bits.testBit 8 then cellSet b.out (pos - 1) (readCell P tick .out b.out (pos - 1) + 1) else b.out
  let filled := cellFill carried pos (if bits.testBit 8 then 0x00 else 0xFF) run
  cellSet filled (pos + run) (BitVec.ofNat 8 bits)

/-- Flush() (rule R404), with the faults of rule R405 and rule R406. -/
def flush (P : Params) (tick : Nat) (b : Bw) : Except Raise Bw :=
  let sh := (8 + b.nbits.toInt).toNat
  let bits := b.value.toNat >>> sh
  let value := BitVec.ofNat 32 (b.value.toNat - (bits <<< sh))
  let nbits := b.nbits - 8
  let need := b.pos.toNat + b.run.toNat + 1
  if 0x200 ≤ bits then .error { code := .carryInvariant, info := bits }
  else if bits % 256 ≠ 0xFF then
    if P.outCap < need then .error { code := .allocFailure, info := need }
    else if bits.testBit 8 ∧ b.pos = 0 then .error { code := .carryInvariant, info := bits }
    else
      .ok { b with
        value := value, nbits := nbits, run := 0, pos := BitVec.ofNat 32 need
        out := flushOut P tick b bits }
  else .ok { b with value := value, nbits := nbits, run := b.run + 1 }

/-- Renormalize() (rule R402). -/
def renormalize (P : Params) (tick : Nat) (b : Bw) : Except Raise Bw :=
  if b.range.toNat < 127 then
    let shift := knorm b.range.toNat
    let b' : Bw :=
      { b with
        range := BitVec.ofNat 8 (knewRange b.range.toNat)
        value := b.value <<< shift
        nbits := b.nbits + BitVec.ofNat 8 shift }
    if 0 < b'.nbits.toInt then flush P tick b' else .ok b'
  else .ok b

/-- The split of the interval at probability `p` (rule R400). -/
def splitOf (range p : Byte) : Nat := (range.toNat * p.toNat) >>> 8

/-- EncodeBit(bit, p) before its Renormalize (rule R400). -/
def narrow (bit : Bool) (p : Byte) (b : Bw) : Bw :=
  let split := splitOf b.range p
  if bit then
    { b with
      value := b.value + BitVec.ofNat 32 (split + 1), range := b.range - BitVec.ofNat 8 (split + 1)
      lastBit := true }
  else { b with range := BitVec.ofNat 8 split, lastBit := false }

/-- EncodeBit(bit, p) (rule R400); EncodeBitUniform is p = 128 (rule R401). -/
def encodeBit (P : Params) (tick : Nat) (d : CodedBit) (b : Bw) : Except Raise Bw :=
  renormalize P tick (narrow d.1 d.2 b)

/-- Code the listed decisions in order; the first Flush that faults ends it (rule R704). -/
def encodeBits (P : Params) (tick : Nat) : List CodedBit → Bw → Except Raise Bw
  | [], b => .ok b
  | d :: ds, b =>
    match encodeBit P tick d b with
    | .ok b' => encodeBits P tick ds b'
    | .error r => .error r

/-- The bit-writer precondition (rule R408). -/
def checkWriting (s : State) : Except Raise Unit :=
  if s.bw.st = .writing then .ok () else .error { code := .wrongState, info := s.bw.st.number }

/-- Check rule R408, then code the listed decisions. -/
def putBits (P : Params) (ds : List CodedBit) (s : State) : Except Raise State := do
  checkWriting s
  let b ← encodeBits P s.tick ds s.bw
  return s.withBw b

/-- The writer BW_INIT starts (rule R420). LASTBIT and OUT are not changed. -/
def initBw (b : Bw) : Bw :=
  { b with st := .writing, range := 254, value := 0, nbits := -8, run := 0, pos := 0 }

/-- BW_FINISH on the writer (rule R425): pad with 9 − NBITS zero bits, then force out the last byte. -/
def finishBw (P : Params) (tick : Nat) (b : Bw) : Except Raise Bw := do
  let padded ← encodeBits P tick (List.replicate (9 - b.nbits.toInt).toNat (false, uniformProb)) b
  let flushed ← flush P tick { padded with nbits := 0 }
  return { flushed with st := .finished }

/-- The body of BW_FINISH (rule R425): no effect in FINISHED, a fault from EMPTY. -/
def finishBody (P : Params) (s : State) : Except Raise State :=
  match s.bw.st with
  | .finished => .ok s
  | .empty => .error { code := .wrongState, info := BwState.empty.number }
  | .writing => do
    let b ← finishBw P s.tick s.bw
    return s.withBw b

/-! ## Commands -/

/-- BW_INIT (rule R420). -/
def execBwInit (s : State) : Host.Outcome State Fault Refusal :=
  .next (runCommand Config.params .bitWriter (encode .bwInit) (fun s => .ok (s.withBw (initBw s.bw))) s)

/-- BW_PUTBIT (rule R421). -/
def execBwPutbit (bit : Bool) (prob : Byte) (s : State) : Host.Outcome State Fault Refusal :=
  .next (runCommand Config.params .bitWriter (encode (.bwPutbit bit prob))
    (putBits Config.params [(bit, prob)]) s)

/-- BW_PUTBITU (rule R422). -/
def execBwPutbitu (bit : Bool) (s : State) : Host.Outcome State Fault Refusal :=
  .next (runCommand Config.params .bitWriter (encode (.bwPutbitu bit))
    (putBits Config.params [(bit, uniformProb)]) s)

/-- BW_PUTBITS (rule R423). -/
def execBwPutbits (nb : BitVec 5) (val : BitVec 16) (s : State) : Host.Outcome State Fault Refusal :=
  .next (runCommand Config.params .bitWriter (encode (.bwPutbits nb val))
    (putBits Config.params (literalBits nb val)) s)

/-- BW_PUTSBITS (rule R424). -/
def execBwPutsbits (nb : BitVec 5) (val : BitVec 16) (s : State) : Host.Outcome State Fault Refusal :=
  .next (runCommand Config.params .bitWriter (encode (.bwPutsbits nb val))
    (putBits Config.params (signedBits nb val)) s)

/-- BW_FINISH (rule R425). -/
def execBwFinish (s : State) : Host.Outcome State Fault Refusal :=
  .next (runCommand Config.params .bitWriter (encode .bwFinish) (finishBody Config.params) s)

end Sys2Proof.Machine
end

