-- ==== Sys2Proof/Machine/Iterator.lean ====
section
/-! DEFINITION. The macroblock iterator and its commands (spec/41_iterator.md). -/
namespace Sys2Proof.Machine

/-! ## Shared operations -/

/-- CheckMB(), the current-macroblock precondition (rule R501). -/
def checkMb (s : State) : Except Raise Unit :=
  if s.mi.valid = false ∨ s.mi.countdown = 0 then
    .error { code := .noMacroblock, info := s.mi.countdown.toNat }
  else .ok ()

/-- CFG_WIDTH | (CFG_HEIGHT << 16), the detail of INVALID_DIMENSIONS (rule R700). -/
def dimensionsInfo (c : Cfg) : Nat := c.width.toNat + c.height.toNat * 65536

/-- The number of macroblocks that cover `n` pixels, (n + 15) >> 4 (rule R125). -/
def mbCount (n : BitVec 16) : Nat := (n.toNat + 15) / 16

/-- The size of the current macroblock's part inside the image (rule R502). -/
structure Geometry where
  w : Nat
  h : Nat
  uvw : Nat
  uvh : Nat
deriving DecidableEq, Repr

/-- w, h, uvw, uvh of rule R502. -/
def geometryOf (s : State) : Geometry :=
  let w := min (s.cfg.width.toNat - 16 * s.mi.x.toNat) 16
  let h := min (s.cfg.height.toNat - 16 * s.mi.y.toNat) 16
  { w := w, h := h, uvw := (w + 1) / 2, uvh := (h + 1) / 2 }

/-- Geometry() with its check that the configured size still matches the grid (rule R502). -/
def geometry (s : State) : Except Raise Geometry :=
  if mbCount s.cfg.width ≠ s.mi.mbw.toNat ∨ mbCount s.cfg.height ≠ s.mi.mbh.toNat then
    .error { code := .invalidDimensions, info := dimensionsInfo s.cfg }
  else .ok (geometryOf s)

/-- One plane of the current macroblock (rule R530): the source address of its first sample, the stride, its
first column in the working buffers, the size inside the image and the full size. -/
structure Plane where
  base : Word
  stride : Word
  col : Nat
  w : Nat
  h : Nat
  size : Nat
deriving DecidableEq, Repr

/-- The Y, U and V planes at the current macroblock, in the order they are accessed (rule R530, rule R540).
Addresses are reduced modulo 2^32 (rule R212). -/
def planes (s : State) (g : Geometry) : List Plane :=
  let x := s.mi.x.setWidth 32
  let y := s.mi.y.setWidth 32
  [ { base := s.cfg.yBase + 16 * y * s.cfg.yStride + 16 * x, stride := s.cfg.yStride, col := 0
      w := g.w, h := g.h, size := 16 },
    { base := s.cfg.uBase + 8 * y * s.cfg.uvStride + 8 * x, stride := s.cfg.uvStride, col := 16
      w := g.uvw, h := g.uvh, size := 8 },
    { base := s.cfg.vBase + 8 * y * s.cfg.uvStride + 8 * x, stride := s.cfg.uvStride, col := 24
      w := g.uvw, h := g.uvh, size := 8 } ]

/-- The source address of sample (row i, column j) of a plane (rule R110, rule R531). -/
def Plane.addr (p : Plane) (i j : Nat) : Word := p.base + BitVec.ofNat 32 i * p.stride + BitVec.ofNat 32 j

/-- The (row, column) pairs of an h-by-w block, row by row. -/
def grid (h w : Nat) : List (Nat × Nat) :=
  (List.range h).flatMap fun i => (List.range w).map fun j => (i, j)

/-- The index of YUV_IN[r][c] or YUV_OUT[r][c] (rule R127, rule R206). -/
def yuvIx (r c : Nat) : Nat := 32 * r + c

/-- The addresses of a plane's samples inside the image, in access order (rule R531, rule R540). -/
def Plane.addrs (p : Plane) : List Word := (grid p.h p.w).map fun ij => p.addr ij.1 ij.2

/-- SrcCheck(list): the first address outside SRC_ADMIT raises SRC_BUS_ERROR (rule R504). -/
def srcCheck (P : Params) : List Word → Except Raise Unit
  | [] => .ok ()
  | a :: rest =>
    if P.srcAdmit a then srcCheck P rest else .error { code := .srcBusError, info := a.toNat }

/-- The elements ImportBlock writes (rule R531). Element (i, j) of the block gets the sample of the nearest
row and column inside the image: the last valid column is replicated to its right, and the last row, itself
padded, below it. -/
def importWrites (P : Params) (s : State) (p : Plane) : List (Nat × Byte) :=
  (grid p.size p.size).map fun ij =>
    (yuvIx ij.1 (p.col + ij.2), srcRead P s (p.addr (min ij.1 (p.h - 1)) (min ij.2 (p.w - 1))))

/-- The source bytes MI_EXPORT writes for a plane, in order (rule R540). -/
def exportWrites (P : Params) (s : State) (p : Plane) : List (Word × Byte) :=
  (grid p.h p.w).map fun ij =>
    (p.addr ij.1 ij.2, readCell P s.tick .yuvOut s.mi.yuvOut (yuvIx ij.1 (p.col + ij.2)))

/-- The neutral sample of the top caches (rule R503). -/
def neutralTop : Byte := 127

/-- The neutral sample of the left caches (rule R503). -/
def neutralLeft : Byte := 129

/-- InitTop() (rule R521). -/
def initTop (m : Mi) : Mi :=
  { m with
    yTop := cellFill m.yTop 0 neutralTop (16 * m.mbw.toNat)
    uvTop := cellFill m.uvTop 0 neutralTop (16 * m.mbw.toNat)
    nz := cellFill m.nz 0 0 m.mbw.toNat }

/-- InitLeft() (rule R522): the corner is element −1, at index 0. -/
def initLeft (m : Mi) : Mi :=
  let corner : Byte := if 0 < m.y.toNat then neutralLeft else neutralTop
  { m with
    yLeft := cellFill (cellSet m.yLeft 0 corner) 1 neutralLeft 16
    uLeft := cellFill (cellSet m.uLeft 0 corner) 1 neutralLeft 8
    vLeft := cellFill (cellSet m.vLeft 0 corner) 1 neutralLeft 8
    leftNz := cellSet m.leftNz 8 0 }

/-- NZ[x] (rule R131). -/
def nzAt (P : Params) (s : State) (x : Nat) : BitVec 32 := readCell P s.tick .nz s.mi.nz x

/-- NZ[MI.X − 1], where NZ[−1] is hardwired 0 (rule R131). -/
def nzLeftOf (P : Params) (s : State) : BitVec 32 :=
  if s.mi.x.toNat = 0 then 0 else nzAt P s (s.mi.x.toNat - 1)

/-- TOP_NZ and LEFT_NZ (rule R132). -/
structure NzFlags where
  top : Cells (BitVec 1)
  left : Cells (BitVec 1)
deriving DecidableEq, Repr

/-- Bit `b` of an NZ word as a flag. -/
def flagBit (v : BitVec 32) (b : Nat) : BitVec 1 := v.extractLsb' b 1

/-- The bits of NZ[MI.X] that load TOP_NZ[0..8] (rule R561). -/
def topNzBits : List Nat := [12, 13, 14, 15, 18, 19, 22, 23, 24]

/-- The bits of NZ[MI.X − 1] that load LEFT_NZ[0..7]; LEFT_NZ[8] is not loaded (rule R561). -/
def leftNzBits : List Nat := [3, 7, 11, 15, 17, 19, 21, 23]

/-- NzToFlags() (rule R561). -/
def nzToFlags (P : Params) (s : State) : NzFlags :=
  let t := nzAt P s s.mi.x.toNat
  let l := nzLeftOf P s
  { top := cellSetAll s.mi.topNz (topNzBits.mapIdx fun j b => (j, flagBit t b))
    left := cellSetAll s.mi.leftNz (leftNzBits.mapIdx fun j b => (j, flagBit l b)) }

/-- TOP_NZ[j]. -/
def topFlag (P : Params) (tick : Nat) (f : NzFlags) (j : Nat) : BitVec 1 := readCell P tick .topNz f.top j

/-- LEFT_NZ[j]. -/
def leftFlag (P : Params) (tick : Nat) (f : NzFlags) (j : Nat) : BitVec 1 := readCell P tick .leftNz f.left j

/-- The bits of an NZ word that TOP_NZ[j] goes to, and those that LEFT_NZ[j] goes to (rule R562). -/
def packedLeftBits : List (Nat × Nat) := [(0, 3), (1, 7), (2, 11), (4, 17), (6, 21)]

/-- The word FlagsToNz() builds (rule R562). -/
def packNz (P : Params) (tick : Nat) (f : NzFlags) : BitVec 32 :=
  let tops := topNzBits.mapIdx fun j b => (topFlag P tick f j).setWidth 32 <<< b
  let lefts := packedLeftBits.map fun jb => (leftFlag P tick f jb.1).setWidth 32 <<< jb.2
  (tops ++ lefts).foldl (· ||| ·) 0

/-- The iterator's current flags. -/
def currentFlags (m : Mi) : NzFlags := { top := m.topNz, left := m.leftNz }

/-- The iterator with flags `f` and their packed word in NZ[MI.X] (rule R562). -/
def flagsToNz (P : Params) (tick : Nat) (f : NzFlags) (m : Mi) : Mi :=
  { m with topNz := f.top, leftNz := f.left, nz := cellSet m.nz m.x.toNat (packNz P tick f) }

/-! ## Command bodies -/

/-- The body of MI_RESET (rule R520). -/
def resetBody (P : Params) (s : State) : Except Raise State :=
  let mbw := mbCount s.cfg.width
  let mbh := mbCount s.cfg.height
  if s.cfg.width = 0 ∨ s.cfg.height = 0 ∨ P.maxMbW < mbw ∨ P.maxMbH < mbh then
    .error { code := .invalidDimensions, info := dimensionsInfo s.cfg }
  else
    let placed : Mi :=
      { s.mi with
        mbw := BitVec.ofNat 16 mbw, mbh := BitVec.ofNat 16 mbh, x := 0, y := 0
        countdown := BitVec.ofNat 32 (mbw * mbh) }
    let cached := initLeft (initTop placed)
    .ok (s.withMi { cached with bitCount := List.replicate 12 0, valid := true })

/-- The body of MI_IMPORT (rule R530). -/
def importBody (P : Params) (s : State) : Except Raise State := do
  checkMb s
  let g ← geometry s
  let ps := planes s g
  srcCheck P (ps.flatMap Plane.addrs)
  return s.withMi { s.mi with yuvIn := cellSetAll s.mi.yuvIn (ps.flatMap (importWrites P s)) }

/-- The body of MI_EXPORT (rule R540). -/
def exportBody (P : Params) (s : State) : Except Raise State := do
  checkMb s
  let g ← geometry s
  let ps := planes s g
  srcCheck P (ps.flatMap Plane.addrs)
  return s.withSrc (srcWriteAll s.src (ps.flatMap (exportWrites P s)))

/-- YUV_OUT[r][c]. -/
def yuvOutAt (P : Params) (s : State) (r c : Nat) : Byte :=
  readCell P s.tick .yuvOut s.mi.yuvOut (yuvIx r c)

/-- The left caches after MI_SAVE_BOUNDARY with a macroblock to the right (rule R545): column `c` of the
reconstruction at indices 1 on, and the old top sample as the corner. -/
def leftFrom (P : Params) (s : State) (m : Cells Byte) (n c : Nat) (corner : Byte) : Cells Byte :=
  cellSetAll m ((0, corner) :: (List.range n).map fun i => (i + 1, yuvOutAt P s i c))

/-- The top caches after MI_SAVE_BOUNDARY with a row below (rule R545): `n` samples of row `r` from column
`c` on, written from index `k` on. -/
def topFrom (P : Params) (s : State) (m : Cells Byte) (k n r c : Nat) : Cells Byte :=
  cellSetAll m ((List.range n).map fun j => (k + j, yuvOutAt P s r (c + j)))

/-- The left caches after MI_SAVE_BOUNDARY: written where a macroblock stands to the right, the corners from
the top caches' values of before the command (rule R545). -/
def savedLeft (P : Params) (s : State) : Mi :=
  let x16 := 16 * s.mi.x.toNat
  let yTopAt (i : Nat) : Byte := readCell P s.tick .yTop s.mi.yTop i
  let uvTopAt (i : Nat) : Byte := readCell P s.tick .uvTop s.mi.uvTop i
  if s.mi.x.toNat + 1 < s.mi.mbw.toNat then
    { s.mi with
      yLeft := leftFrom P s s.mi.yLeft 16 15 (yTopAt (x16 + 15))
      uLeft := leftFrom P s s.mi.uLeft 8 23 (uvTopAt (x16 + 7))
      vLeft := leftFrom P s s.mi.vLeft 8 31 (uvTopAt (x16 + 15)) }
  else s.mi

/-- The top caches after MI_SAVE_BOUNDARY, over `m`: written where a macroblock row stands below (rule R545). -/
def savedTop (P : Params) (s : State) (m : Mi) : Mi :=
  let x16 := 16 * s.mi.x.toNat
  if s.mi.y.toNat + 1 < s.mi.mbh.toNat then
    { m with
      yTop := topFrom P s m.yTop x16 16 15 0
      uvTop := topFrom P s (topFrom P s m.uvTop x16 8 7 16) (x16 + 8) 8 7 24 }
  else m

/-- The body of MI_SAVE_BOUNDARY (rule R545). -/
def saveBoundaryBody (P : Params) (s : State) : Except Raise State := do
  checkMb s
  return s.withMi (savedTop P s (savedLeft P s))

/-- The iterator one macroblock on (rule R550). -/
def advanceMi (m : Mi) : Mi :=
  let stepped : Mi := { m with x := m.x + 1 }
  let moved : Mi :=
    if stepped.x = m.mbw then initLeft { stepped with x := 0, y := m.y + 1 } else stepped
  { moved with countdown := m.countdown - 1 }

/-- The body of MI_ADVANCE (rule R550). -/
def advanceBody (s : State) : Except Raise State := do
  checkMb s
  return s.withMi (advanceMi s.mi)

/-- The body of MI_NZ_TO_FLAGS (rule R561). -/
def nzToFlagsBody (P : Params) (s : State) : Except Raise State := do
  checkMb s
  let f := nzToFlags P s
  return s.withMi { s.mi with topNz := f.top, leftNz := f.left }

/-- The body of MI_FLAGS_TO_NZ (rule R562). -/
def flagsToNzBody (P : Params) (s : State) : Except Raise State := do
  checkMb s
  return s.withMi (flagsToNz P s.tick (currentFlags s.mi) s.mi)

/-- The body of MI_SKIP_NZ (rule R563): intra-16 clears NZ[MI.X] and LEFT_NZ[8], intra-4 keeps bit 24. -/
def skipNzBody (P : Params) (s : State) : Except Raise State := do
  checkMb s
  let x := s.mi.x.toNat
  if s.cfg.mbType = 1 then
    return s.withMi { s.mi with nz := cellSet s.mi.nz x 0, leftNz := cellSet s.mi.leftNz 8 0 }
  else
    return s.withMi { s.mi with nz := cellSet s.mi.nz x (nzAt P s x &&& 0x01000000) }

/-! ## Commands -/

/-- MI_RESET (rule R520). -/
def execMiReset (s : State) : Host.Outcome State Fault Refusal :=
  .next (runCommand Config.params .bitWriter (encode .miReset) (resetBody Config.params) s)

/-- MI_IMPORT (rule R530). -/
def execMiImport (s : State) : Host.Outcome State Fault Refusal :=
  .next (runCommand Config.params .bitWriter (encode .miImport) (importBody Config.params) s)

/-- MI_EXPORT (rule R540). -/
def execMiExport (s : State) : Host.Outcome State Fault Refusal :=
  .next (runCommand Config.params .bitWriter (encode .miExport) (exportBody Config.params) s)

/-- MI_SAVE_BOUNDARY (rule R545). -/
def execMiSaveBoundary (s : State) : Host.Outcome State Fault Refusal :=
  .next (runCommand Config.params .bitWriter (encode .miSaveBoundary) (saveBoundaryBody Config.params) s)

/-- MI_ADVANCE (rule R550). -/
def execMiAdvance (s : State) : Host.Outcome State Fault Refusal :=
  .next (runCommand Config.params .bitWriter (encode .miAdvance) advanceBody s)

/-- MI_NZ_TO_FLAGS (rule R561). -/
def execMiNzToFlags (s : State) : Host.Outcome State Fault Refusal :=
  .next (runCommand Config.params .bitWriter (encode .miNzToFlags) (nzToFlagsBody Config.params) s)

/-- MI_FLAGS_TO_NZ (rule R562). -/
def execMiFlagsToNz (s : State) : Host.Outcome State Fault Refusal :=
  .next (runCommand Config.params .bitWriter (encode .miFlagsToNz) (flagsToNzBody Config.params) s)

/-- MI_SKIP_NZ (rule R563). -/
def execMiSkipNz (s : State) : Host.Outcome State Fault Refusal :=
  .next (runCommand Config.params .bitWriter (encode .miSkipNz) (skipNzBody Config.params) s)

end Sys2Proof.Machine
end

