-- ==== Sys2Proof/Machine/Residual.lean ====
section
/-! DEFINITION. The residual coder and its commands (spec/42_residual.md). -/
namespace Sys2Proof.Machine

/-! ## The walk over a block -/

/-- One decision of the walk (rule R608). -/
inductive Decision
  /-- Decide(bit, k): a decision with the probability of table cell `ix`. -/
  | cell (bit : Bool) (ix : Nat)
  /-- Fixed(bit, p): a decision with a fixed probability. -/
  | fixed (bit : Bool) (p : Byte)
  /-- Sign(bit): a uniform sign bit. -/
  | sign (bit : Bool)
deriving DecidableEq, Repr

/-- LAST(C): the largest index with a non-zero coefficient, or −1 (rule R603). -/
def lastNonzero : List Int → Int
  | [] => -1
  | x :: xs => if 0 ≤ lastNonzero xs then lastNonzero xs + 1 else if x ≠ 0 then 0 else -1

/-- The extra bits of `e`, most significant first, one for each probability (rule R605). -/
def extraBits : List Byte → Nat → List Decision
  | [], _ => []
  | p :: ps, e => .fixed (e.testBit ps.length) p :: extraBits ps e

/-- The decisions on a magnitude above 10: category, then extra bits (rule R604, rule R605). -/
def categoryDecisions (cell : Nat → Nat) (v : Nat) : List Decision :=
  if v < 19 then .cell false (cell 8) :: .cell false (cell 9) :: extraBits cat3 (v - 11)
  else if v < 35 then .cell false (cell 8) :: .cell true (cell 9) :: extraBits cat4 (v - 19)
  else if v < 67 then .cell true (cell 8) :: .cell false (cell 10) :: extraBits cat5 (v - 35)
  else .cell true (cell 8) :: .cell true (cell 10) :: extraBits cat6 (v - 67)

/-- The decisions on a magnitude of at least 1, from node ONE on (rule R604). `cell k` is the table cell of
node k at the current type, band and context. -/
def magnitudeDecisions (cell : Nat → Nat) (v : Nat) : List Decision :=
  if v ≤ 1 then [.cell false (cell 2)]
  else if v ≤ 4 then
    .cell true (cell 2) :: .cell false (cell 3) :: .cell (decide (v ≠ 2)) (cell 4) ::
      (if v ≠ 2 then [.cell (decide (v = 4)) (cell 5)] else [])
  else if v ≤ 10 then
    .cell true (cell 2) :: .cell true (cell 3) :: .cell false (cell 6) ::
      .cell (decide (6 < v)) (cell 7) ::
      (if v ≤ 6 then [.fixed (decide (v = 6)) cat1Prob]
       else [.fixed (decide (9 ≤ v)) cat2aProb, .fixed (decide (v % 2 = 0)) cat2bProb])
  else
    .cell true (cell 2) :: .cell true (cell 3) :: .cell true (cell 6) :: categoryDecisions cell v

/-- The loop of Walk (rule R608) over the coefficients from position `n` on, in band `b` and context `c`,
for type `t` and LAST(C) = `last`. -/
def walkFrom (t : Nat) (last : Int) : List Int → Nat → Nat → Nat → List Decision
  | [], _, _, _ => []
  | x :: rest, n, b, c =>
    if x = 0 then .cell false (cellIx t b c 1) :: walkFrom t last rest (n + 1) (band (n + 1)) 0
    else
      let c' := if 1 < x.natAbs then 2 else 1
      let b' := band (n + 1)
      .cell true (cellIx t b c 1) ::
        (magnitudeDecisions (cellIx t b c) x.natAbs ++ .sign (decide (x < 0)) ::
          (if n + 1 = 16 then []
           else if (n : Int) + 1 ≤ last then
             .cell true (cellIx t b' c' 0) :: walkFrom t last rest (n + 1) b' c'
           else [.cell false (cellIx t b' c' 0)]))

/-- Walk's result, bool(LAST(C) ≥ 0) (rule R608). -/
def blockFlag (coefs : List Int) : Bool := decide (0 ≤ lastNonzero coefs)

/-- The decisions of Walk(s, t, ctx, ·) on the coefficients of slot s, in order (rule R608). They do not
depend on the mode. -/
def walk (t ctx : Nat) (coefs : List Int) : List Decision :=
  let n := firstPos t
  if blockFlag coefs then
    .cell true (cellIx t n ctx 0) :: walkFrom t (lastNonzero coefs) (coefs.drop n) n n ctx
  else [.cell false (cellIx t n ctx 0)]

/-! ## Coding and recording a decision -/

/-- PROB[i] (rule R133). -/
def probAt (r : Rc) (i : Nat) : Byte := r.prob.getD i 0

/-- STATS[i] (rule R134). -/
def statsAt (r : Rc) (i : Nat) : BitVec 32 := r.stats.getD i 0

/-- The coded bit of a decision in coding mode (rule R608). -/
def codedBit (r : Rc) : Decision → CodedBit
  | .cell bit ix => (bit, probAt r ix)
  | .fixed bit p => (bit, p)
  | .sign bit => (bit, uniformProb)

/-- Code the decisions (rule R608, coding mode). -/
def codeDecisions (P : Params) (tick : Nat) (r : Rc) (ds : List Decision) (b : Bw) : Except Raise Bw :=
  encodeBits P tick (ds.map (codedBit r)) b

/-- A counter pair with one more decision (rule R630). -/
def recordCount (P : Params) (p : BitVec 32) (bit : Bool) : BitVec 32 :=
  let halved : Nat :=
    if P.halveThreshold ≤ p.toNat then ((p.toNat + 1) >>> 1) &&& 0x7FFF7FFF else p.toNat
  BitVec.ofNat 32 (halved + 0x00010000 + bit.toNat)

/-- Record(bit, i) (rule R630). -/
def record (P : Params) (bit : Bool) (i : Nat) (r : Rc) : Rc :=
  { r with stats := r.stats.set i (recordCount P (statsAt r i) bit) }

/-- Record the decisions (rule R608, recording mode): fixed and sign decisions are not counted. -/
def recordDecisions (P : Params) : List Decision → Rc → Rc
  | [], r => r
  | .cell bit ix :: ds, r => recordDecisions P ds (record P bit ix r)
  | .fixed _ _ :: ds, r => recordDecisions P ds r
  | .sign _ :: ds, r => recordDecisions P ds r

/-! ## Blocks -/

/-- COEF[s][0..15], as signed integers (rule R135). -/
def blockCoefs (P : Params) (s : State) (slot : Nat) : List Int :=
  (List.range 16).map fun n => (readCell P s.tick .coef s.rc.coef (16 * slot + n)).toInt

/-- The check of rule R607 on the coefficients from position `n` on. -/
def checkCoefs (slot t : Nat) : List Int → Nat → Except Raise Unit
  | [], _ => .ok ()
  | x :: rest, n =>
    if t = 0 ∧ n = 0 ∧ x ≠ 0 then .error { code := .firstCoeffNonzero, info := slot * 16 }
    else if maxMagnitude < x.natAbs then .error { code := .coeffRange, info := slot * 16 + n }
    else checkCoefs slot t rest (n + 1)

/-- CheckBlock(s, t) (rule R607). -/
def checkBlock (P : Params) (s : State) (slot t : Nat) : Except Raise Unit :=
  checkCoefs slot t (blockCoefs P s slot) 0

/-- The body of RC_CODE_BLOCK (rule R610). -/
def codeBlockBody (P : Params) (slot t ctx : Nat) (s : State) : Except Raise State := do
  checkWriting s
  checkBlock P s slot t
  let coefs := blockCoefs P s slot
  let b ← codeDecisions P s.tick s.rc (walk t ctx coefs) s.bw
  return (s.withBw b).withRc { s.rc with nz := blockFlag coefs }

/-- The body of RC_RECORD_BLOCK (rule R611). -/
def recordBlockBody (P : Params) (slot t ctx : Nat) (s : State) : Except Raise State := do
  checkBlock P s slot t
  let coefs := blockCoefs P s slot
  return s.withRc { recordDecisions P (walk t ctx coefs) s.rc with nz := blockFlag coefs }

/-! ## Macroblocks -/

/-- One block of a macroblock (rule R620, rule R621): its slot, its type, and the indices of the two flags
that give its context and take its result. -/
structure MbBlock where
  slot : Nat
  ty : Nat
  top : Nat
  left : Nat
deriving DecidableEq, Repr

/-- The luma blocks in coding order (rule R620): for intra-16 the DC block first. -/
def lumaBlocks (i16 : Bool) : List MbBlock :=
  (if i16 then [{ slot := 0, ty := 1, top := 8, left := 8 }] else []) ++
    (grid 4 4).map fun yx =>
      { slot := 1 + yx.2 + 4 * yx.1, ty := if i16 then 0 else 3, top := yx.2, left := yx.1 }

/-- The chroma blocks in coding order: U (ch = 0), then V (ch = 2) (rule R620, rule R622). -/
def chromaBlocks : List MbBlock :=
  [0, 2].flatMap fun ch => (grid 2 2).map fun yx =>
    { slot := 17 + 2 * ch + yx.2 + 2 * yx.1, ty := 2, top := 4 + ch + yx.2, left := 4 + ch + yx.1 }

/-- CheckBlock for each block in order (rule R622). -/
def checkBlocks (P : Params) (s : State) : List MbBlock → Except Raise Unit
  | [] => .ok ()
  | k :: rest =>
    match checkBlock P s k.slot k.ty with
    | .ok _ => checkBlocks P s rest
    | .error r => .error r

/-- The context of a block: the sum of its top and its left flag (rule R621). -/
def blockCtx (P : Params) (tick : Nat) (f : NzFlags) (k : MbBlock) : Nat :=
  (topFlag P tick f k.top).toNat + (leftFlag P tick f k.left).toNat

/-- Both flags of a block set to its result (rule R621). -/
def setFlags (f : NzFlags) (k : MbBlock) (bit : Bool) : NzFlags :=
  { top := cellSet f.top k.top (BitVec.ofBool bit), left := cellSet f.left k.left (BitVec.ofBool bit) }

/-- The decisions of the listed blocks in order, and the flags after them (rule R622). -/
def walkBlocks (P : Params) (s : State) : List MbBlock → NzFlags → List Decision × NzFlags
  | [], f => ([], f)
  | k :: rest, f =>
    let coefs := blockCoefs P s k.slot
    let tail := walkBlocks P s rest (setFlags f k (blockFlag coefs))
    (walk k.ty (blockCtx P s.tick f k) coefs ++ tail.1, tail.2)

/-- MB_TYPE as intra-16 or not (rule R111). -/
def isI16 (s : State) : Bool := decide (s.cfg.mbType = 1)

/-- BIT_COUNT with `n` added at index `i`, modulo 2^64 (rule R113). -/
def addBits (counts : List (BitVec 64)) (i : Nat) (n : BitVec 32) : List (BitVec 64) :=
  counts.set i (counts.getD i 0 + n.setWidth 64)

/-- The iterator with the bit accounting of RC_CODE_MB for segment `seg` (rule R622). -/
def accountBits (seg : Nat) (i16 : Bool) (luma uv : BitVec 32) (m : Mi) : Mi :=
  { m with
    lumaBits := luma
    uvBits := uv
    bitCount := addBits (addBits m.bitCount (3 * seg + i16.toNat) luma) (3 * seg + 2) uv }

/-- The body of RC_CODE_MB (rule R622). -/
def codeMbBody (P : Params) (s : State) : Except Raise State := do
  checkMb s
  checkWriting s
  let i16 := isI16 s
  checkBlocks P s (lumaBlocks i16 ++ chromaBlocks)
  let luma := walkBlocks P s (lumaBlocks i16) (nzToFlags P s)
  let b1 ← codeDecisions P s.tick s.rc luma.1 s.bw
  let chroma := walkBlocks P s chromaBlocks luma.2
  let b2 ← codeDecisions P s.tick s.rc chroma.1 b1
  let counted :=
    accountBits s.cfg.mbSegment.toNat i16 (bitpos b1 - bitpos s.bw) (bitpos b2 - bitpos b1) s.mi
  return (s.withBw b2).withMi (flagsToNz P s.tick chroma.2 counted)

/-- The body of RC_RECORD_MB (rule R623). -/
def recordMbBody (P : Params) (s : State) : Except Raise State := do
  checkMb s
  let blocks := lumaBlocks (isI16 s) ++ chromaBlocks
  checkBlocks P s blocks
  let walked := walkBlocks P s blocks (nzToFlags P s)
  return (s.withRc (recordDecisions P walked.1 s.rc)).withMi (flagsToNz P s.tick walked.2 s.mi)

/-! ## Statistics and probabilities -/

/-- RC_RESET_STATS on the residual coder (rule R631). -/
def clearStats (r : Rc) : Rc := { r with stats := List.replicate numCells 0 }

/-- RC_LOAD_DEFAULT on the residual coder (rule R632). -/
def loadDefault (P : Params) (r : Rc) : Rc := { r with prob := (List.range numCells).map P.defaultProb }

/-- BranchCost(nb, total, p) (rule R640). total − nb is taken on integers. -/
def branchCost (P : Params) (nb total : Nat) (p : Byte) : Int :=
  nb * P.bitCost true p + ((total : Int) - nb) * P.bitCost false p

/-- new_p of a cell (rule R640). -/
def fittedProb (nb total : Nat) : Byte :=
  if nb = 0 then 255 else BitVec.ofInt 8 (255 - ((nb * 255) / total : Nat))

/-- What RC_FINALIZE does with one cell. -/
structure CellFit where
  /-- The cell's new probability. -/
  prob : Byte
  /-- What the cell adds to size. -/
  size : Nat
  /-- Whether the cell sets dirty. -/
  dirty : Bool
deriving DecidableEq, Repr

/-- The loop body of RC_FINALIZE for cell `i` (rule R640); 2048 = 8·256. -/
def fitCell (P : Params) (r : Rc) (i : Nat) : CellFit :=
  let total := (statsAt r i).toNat / 65536
  let nb := (statsAt r i).toNat % 65536
  let upd := P.updateProb i
  let oldP := P.defaultProb i
  let newP := fittedProb nb total
  let oldCost := branchCost P nb total oldP + P.bitCost false upd
  let newCost := branchCost P nb total newP + P.bitCost true upd + 2048
  if newCost < oldCost then
    { prob := newP, size := P.bitCost true upd + 2048, dirty := decide (newP ≠ oldP) }
  else { prob := oldP, size := P.bitCost false upd, dirty := false }

/-- RC_FINALIZE on the residual coder (rule R640): no cell's fit depends on another's. -/
def finalize (P : Params) (r : Rc) : Rc :=
  let fits := (List.range numCells).map (fitCell P r)
  { r with
    prob := fits.map CellFit.prob
    size := BitVec.ofNat 32 (fits.map CellFit.size).sum
    dirty := fits.any CellFit.dirty }

/-! ## Commands -/

/-- RC_CODE_BLOCK (rule R610). -/
def execRcCodeBlock (slot : BitVec 5) (ty ctx : BitVec 2) (s : State) : Host.Outcome State Fault Refusal :=
  .next (runCommand Config.params .bitWriter (encode (.rcCodeBlock slot ty ctx))
    (codeBlockBody Config.params slot.toNat ty.toNat ctx.toNat) s)

/-- RC_RECORD_BLOCK (rule R611). -/
def execRcRecordBlock (slot : BitVec 5) (ty ctx : BitVec 2) (s : State) :
    Host.Outcome State Fault Refusal :=
  .next (runCommand Config.params .bitWriter (encode (.rcRecordBlock slot ty ctx))
    (recordBlockBody Config.params slot.toNat ty.toNat ctx.toNat) s)

/-- RC_CODE_MB (rule R622). -/
def execRcCodeMb (s : State) : Host.Outcome State Fault Refusal :=
  .next (runCommand Config.params .macroblock (encode .rcCodeMb) (codeMbBody Config.params) s)

/-- RC_RECORD_MB (rule R623). -/
def execRcRecordMb (s : State) : Host.Outcome State Fault Refusal :=
  .next (runCommand Config.params .bitWriter (encode .rcRecordMb) (recordMbBody Config.params) s)

/-- RC_RESET_STATS (rule R631). -/
def execRcResetStats (s : State) : Host.Outcome State Fault Refusal :=
  .next (runCommand Config.params .bitWriter (encode .rcResetStats)
    (fun s => .ok (s.withRc (clearStats s.rc))) s)

/-- RC_LOAD_DEFAULT (rule R632). -/
def execRcLoadDefault (s : State) : Host.Outcome State Fault Refusal :=
  .next (runCommand Config.params .bitWriter (encode .rcLoadDefault)
    (fun s => .ok (s.withRc (loadDefault Config.params s.rc))) s)

/-- RC_FINALIZE (rule R640). -/
def execRcFinalize (s : State) : Host.Outcome State Fault Refusal :=
  .next (runCommand Config.params .bitWriter (encode .rcFinalize)
    (fun s => .ok (s.withRc (finalize Config.params s.rc))) s)

end Sys2Proof.Machine
end

