-- ==== Sys2Proof/Machine/System.lean ====
section
/-! DEFINITION. The system commands (spec/60_exceptions.md rule R720, spec/70_reset_and_hazards.md rule R801). -/
namespace Sys2Proof.Machine

/-- NOP (rule R720). -/
def execNop (s : State) : Host.Outcome State Fault Refusal :=
  .next (runCommand Config.params .bitWriter (encode .nop) (fun s => .ok s) s)

/-- SOFT_RESET (rule R801): the one command that acts while FAULTED = 1. -/
def execSoftReset (s : State) : Host.Outcome State Fault Refusal :=
  .next (resetVrce Config.params s)

end Sys2Proof.Machine
end

