-- ==== Sys2Proof/Machine/Dispatch.lean ====
section
/-! DEFINITION. The meaning of each command of spec/30_encoding.md rule R307. -/
namespace Sys2Proof.Machine

/-- Execute a command. -/
def exec (i : Instr) (s : State) : Host.Outcome State Fault Refusal :=
  match i with
  | .nop => Sys2Proof.Machine.execNop s
  | .softReset => Sys2Proof.Machine.execSoftReset s
  | .bwInit => Sys2Proof.Machine.execBwInit s
  | .bwPutbit bit prob => Sys2Proof.Machine.execBwPutbit bit prob s
  | .bwPutbitu bit => Sys2Proof.Machine.execBwPutbitu bit s
  | .bwPutbits nb val => Sys2Proof.Machine.execBwPutbits nb val s
  | .bwPutsbits nb val => Sys2Proof.Machine.execBwPutsbits nb val s
  | .bwFinish => Sys2Proof.Machine.execBwFinish s
  | .miReset => Sys2Proof.Machine.execMiReset s
  | .miImport => Sys2Proof.Machine.execMiImport s
  | .miExport => Sys2Proof.Machine.execMiExport s
  | .miSaveBoundary => Sys2Proof.Machine.execMiSaveBoundary s
  | .miAdvance => Sys2Proof.Machine.execMiAdvance s
  | .miNzToFlags => Sys2Proof.Machine.execMiNzToFlags s
  | .miFlagsToNz => Sys2Proof.Machine.execMiFlagsToNz s
  | .miSkipNz => Sys2Proof.Machine.execMiSkipNz s
  | .rcCodeBlock slot ty ctx => Sys2Proof.Machine.execRcCodeBlock slot ty ctx s
  | .rcRecordBlock slot ty ctx => Sys2Proof.Machine.execRcRecordBlock slot ty ctx s
  | .rcCodeMb => Sys2Proof.Machine.execRcCodeMb s
  | .rcRecordMb => Sys2Proof.Machine.execRcRecordMb s
  | .rcResetStats => Sys2Proof.Machine.execRcResetStats s
  | .rcLoadDefault => Sys2Proof.Machine.execRcLoadDefault s
  | .rcFinalize => Sys2Proof.Machine.execRcFinalize s

end Sys2Proof.Machine
end

