-- ==== Sys2Proof/Machine/HostPort.lean ====
section
/-! DEFINITION. The host port: the register map, the array windows, and what a host access does
(spec/10_state.md rule R104, spec/20_memory.md rule R200 to rule R213). -/
namespace Sys2Proof.Machine

/-- A host-visible element (rule R104, rule R206). The arrays count their elements as the state does: the
left caches and NZ from element −1, which has index 0. -/
inductive HostElem
  | cmd | status | errCmd | errInfo
  | cfgWidth | cfgHeight | cfgYStride | cfgUvStride | cfgYBase | cfgUBase | cfgVBase
  | mbType | mbSegment
  | bwRange | bwValue | bwNbits | bwRun | bwPos | bwBitpos
  | miX | miY | miMbw | miMbh | miCountdown | miLumaBits | miUvBits
  | rcSize
  /-- Half `i` of the BIT_COUNT area: counter i/2, low word first (rule R113). -/
  | bitCountHalf (i : Nat)
  | prob (i : Nat) | stats (i : Nat) | coef (i : Nat) | yuvIn (i : Nat) | yuvOut (i : Nat)
  | yLeft (i : Nat) | uLeft (i : Nat) | vLeft (i : Nat) | topNz (i : Nat) | leftNz (i : Nat)
  | nz (i : Nat) | yTop (i : Nat) | uvTop (i : Nat) | out (i : Nat)
deriving DecidableEq, Repr

/-- The registers at their offsets (rule R104). -/
def registerMap : List (Nat × HostElem) :=
  [ (0x000, .cmd), (0x004, .status), (0x008, .errCmd), (0x00C, .errInfo),
    (0x010, .cfgWidth), (0x014, .cfgHeight), (0x018, .cfgYStride), (0x01C, .cfgUvStride),
    (0x020, .cfgYBase), (0x024, .cfgUBase), (0x028, .cfgVBase), (0x02C, .mbType), (0x030, .mbSegment),
    (0x040, .bwRange), (0x044, .bwValue), (0x048, .bwNbits), (0x04C, .bwRun), (0x050, .bwPos),
    (0x054, .bwBitpos), (0x060, .miX), (0x064, .miY), (0x068, .miMbw), (0x06C, .miMbh),
    (0x070, .miCountdown), (0x074, .miLumaBits), (0x078, .miUvBits), (0x080, .rcSize) ]

/-- An array window: `count` elements of `bytes` bytes each from `base` on (rule R206). -/
structure Window where
  base : Nat
  count : Nat
  bytes : Nat
  elem : Nat → HostElem

/-- The windows of rule R206, and the BIT_COUNT area of rule R104. -/
def windows (P : Params) : List Window :=
  [ ⟨0xC0, 24, 4, .bitCountHalf⟩, ⟨0x1000, 1056, 1, .prob⟩, ⟨0x2000, 1056, 4, .stats⟩,
    ⟨0x4000, 400, 2, .coef⟩, ⟨0x5000, 512, 1, .yuvIn⟩, ⟨0x5200, 512, 1, .yuvOut⟩,
    ⟨0x6000, 17, 1, .yLeft⟩, ⟨0x6020, 9, 1, .uLeft⟩, ⟨0x6030, 9, 1, .vLeft⟩,
    ⟨0x6040, 9, 1, .topNz⟩, ⟨0x6050, 9, 1, .leftNz⟩, ⟨0x10000, P.maxMbW + 1, 4, .nz⟩,
    ⟨0x20000, 16 * P.maxMbW, 1, .yTop⟩, ⟨0x28000, 16 * P.maxMbW, 1, .uvTop⟩,
    ⟨0x40000000, P.outCap, 1, .out⟩ ]

/-- The element of a window at address `a`, if the address is that of an element: inside the window and
aligned to it (rule R205). -/
def Window.at? (v : Window) (a : Nat) : Option HostElem :=
  if v.base ≤ a ∧ a < v.base + v.count * v.bytes ∧ (a - v.base) % v.bytes = 0 then
    some (v.elem ((a - v.base) / v.bytes))
  else none

/-- The element at a host address, if one is mapped there (rule R201, rule R202, rule R206). -/
def locate (P : Params) (a : Word) : Option HostElem :=
  match registerMap.lookup a.toNat with
  | some e => some e
  | none => (windows P).findSome? fun v => v.at? a.toNat

/-- The access width of an element in bytes (rule R205). -/
def HostElem.bytes : HostElem → Nat
  | .prob _ => 1
  | .coef _ => 2
  | .yuvIn _ => 1
  | .yuvOut _ => 1
  | .yLeft _ => 1
  | .uLeft _ => 1
  | .vLeft _ => 1
  | .topNz _ => 1
  | .leftNz _ => 1
  | .yTop _ => 1
  | .uvTop _ => 1
  | .out _ => 1
  | _ => 4

/-- The element an access of `bytes` bytes at `a` reaches: the width must be the element's own (rule R205). -/
def accessed (P : Params) (a : Word) (bytes : Nat) : Option HostElem :=
  match locate P a with
  | some e => if e.bytes = bytes then some e else none
  | none => none

/-- OUT[i] as the host reads it: OUT[i] for i ≥ BW.POS has no defined value (rule R123). -/
def outAt (P : Params) (s : State) (i : Nat) : Byte :=
  if i < s.bw.pos.toNat then readCell P s.tick .out s.bw.out i else freeBits P 8 .out s.tick i

/-- Half `i` of the BIT_COUNT area (rule R113, rule R203). -/
def bitCountHalfAt (s : State) (i : Nat) : Word :=
  (s.mi.bitCount.getD (i / 2) 0).extractLsb' (32 * (i % 2)) 32

/-- The value a host read of an element returns, zero-extended to 32 bits; bits outside a register's field
read 0 and CMD reads 0 (rule R104, rule R105). -/
def readElem (P : Params) (s : State) : HostElem → Word
  | .cmd => 0
  | .status => statusWord s
  | .errCmd => s.latch.cmd
  | .errInfo => s.latch.info
  | .cfgWidth => s.cfg.width.setWidth 32
  | .cfgHeight => s.cfg.height.setWidth 32
  | .cfgYStride => s.cfg.yStride
  | .cfgUvStride => s.cfg.uvStride
  | .cfgYBase => s.cfg.yBase
  | .cfgUBase => s.cfg.uBase
  | .cfgVBase => s.cfg.vBase
  | .mbType => s.cfg.mbType.setWidth 32
  | .mbSegment => s.cfg.mbSegment.setWidth 32
  | .bwRange => s.bw.range.setWidth 32
  | .bwValue => s.bw.value
  | .bwNbits => s.bw.nbits.signExtend 32
  | .bwRun => s.bw.run
  | .bwPos => s.bw.pos
  | .bwBitpos => bitpos s.bw
  | .miX => s.mi.x.setWidth 32
  | .miY => s.mi.y.setWidth 32
  | .miMbw => s.mi.mbw.setWidth 32
  | .miMbh => s.mi.mbh.setWidth 32
  | .miCountdown => s.mi.countdown
  | .miLumaBits => s.mi.lumaBits
  | .miUvBits => s.mi.uvBits
  | .rcSize => s.rc.size
  | .bitCountHalf i => bitCountHalfAt s i
  | .prob i => (probAt s.rc i).setWidth 32
  | .stats i => statsAt s.rc i
  | .coef i => (readCell P s.tick .coef s.rc.coef i).setWidth 32
  | .yuvIn i => (readCell P s.tick .yuvIn s.mi.yuvIn i).setWidth 32
  | .yuvOut i => (readCell P s.tick .yuvOut s.mi.yuvOut i).setWidth 32
  | .yLeft i => (readCell P s.tick .yLeft s.mi.yLeft i).setWidth 32
  | .uLeft i => (readCell P s.tick .uLeft s.mi.uLeft i).setWidth 32
  | .vLeft i => (readCell P s.tick .vLeft s.mi.vLeft i).setWidth 32
  | .topNz i => (readCell P s.tick .topNz s.mi.topNz i).setWidth 32
  | .leftNz i => (readCell P s.tick .leftNz s.mi.leftNz i).setWidth 32
  | .nz i => if i = 0 then 0 else nzAt P s (i - 1)
  | .yTop i => (readCell P s.tick .yTop s.mi.yTop i).setWidth 32
  | .uvTop i => (readCell P s.tick .uvTop s.mi.uvTop i).setWidth 32
  | .out i => (outAt P s i).setWidth 32

/-- A host write of the element's own width: the state with the element stored, or `none` where the element
is read-only (rule R104, rule R205, rule R206). Bits outside the field are ignored (rule R104). A write to
CMD executes a command instead (`commandOf`). -/
def writeElem (s : State) (v : Word) : HostElem → Option State
  | .cfgWidth => some (s.withCfg { s.cfg with width := v.setWidth 16 })
  | .cfgHeight => some (s.withCfg { s.cfg with height := v.setWidth 16 })
  | .cfgYStride => some (s.withCfg { s.cfg with yStride := v })
  | .cfgUvStride => some (s.withCfg { s.cfg with uvStride := v })
  | .cfgYBase => some (s.withCfg { s.cfg with yBase := v })
  | .cfgUBase => some (s.withCfg { s.cfg with uBase := v })
  | .cfgVBase => some (s.withCfg { s.cfg with vBase := v })
  | .mbType => some (s.withCfg { s.cfg with mbType := v.setWidth 1 })
  | .mbSegment => some (s.withCfg { s.cfg with mbSegment := v.setWidth 2 })
  | .prob i => some (s.withRc { s.rc with prob := s.rc.prob.set i (v.setWidth 8) })
  | .coef i => some (s.withRc { s.rc with coef := cellSet s.rc.coef i (v.setWidth 16) })
  | .yuvOut i => some (s.withMi { s.mi with yuvOut := cellSet s.mi.yuvOut i (v.setWidth 8) })
  | _ => none

/-- A host-port read (rule R205, rule R209): the data, or the error response of rule R202. -/
def hostRead (P : Params) (a : Word) (bytes : Nat) (s : State) : State :=
  match accessed P a bytes with
  | some e => s.withResp (.data (readElem P s e))
  | none => s.withResp .refused

/-- A host-port write other than of a command (rule R205, rule R209): the element stored, or the error
response of rule R202. -/
def hostWrite (P : Params) (a : Word) (bytes : Nat) (v : Word) (s : State) : State :=
  match accessed P a bytes with
  | some e =>
    match writeElem s v e with
    | some t => t
    | none => s.withResp .refused
  | none => s.withResp .refused

/-- The command word of an event, if the event is a full-width write to CMD (rule R105). -/
def commandOf : HostEvent → Option Word
  | .write addr bytes value => if addr = 0 ∧ bytes = 4 then some value else none
  | .read _ _ => none
  | .srcRead _ => none
  | .srcWrite _ _ => none
  | .hardReset => none

/-- What an event that is no command does (rule R101, rule R212, rule R800). -/
def hostAccess (P : Params) (e : HostEvent) (s : State) : State :=
  match e with
  | .read addr bytes => hostRead P addr bytes s
  | .write addr bytes value => hostWrite P addr bytes value s
  | .srcRead addr => s.withResp (.data ((srcRead P s addr).setWidth 32))
  | .srcWrite addr value => s.withSrc (srcWriteAll s.src [(addr, value)])
  | .hardReset => resetVrce P s

/-- The events that are waiting once the host is about to write the command word `w` to CMD, before those it
had planned. -/
def queueCommand (w : Word) (q : List HostEvent) : List HostEvent := .write 0 4 w :: q

end Sys2Proof.Machine
end

