-- ==== Sys2Proof/Machine/Step.lean ====
section
/-! DEFINITION. One step of the machine: the next event of the total order (spec/10_state.md rule R101,
spec/20_memory.md rule R215). -/
namespace Sys2Proof.Machine

/-- One step. The next host event is performed: a full-width write to CMD executes a command, any other event
is a host access, a source-memory access or a reset. With no event outstanding VRCE is idle and keeps all
state (rule R726). -/
def step (s : State) : Host.Outcome State Fault Refusal :=
  match s.hostQueue with
  | [] => .next s
  | e :: q =>
    match commandOf e with
    | some w =>
      match decode w with
      | .ok i => exec i (s.accept q)
      | .error _ => .next (illegalCommand Config.params w (s.accept q))
    | none => .next (hostAccess Config.params e (s.accept q))

/-- The state with the command word of a table row as the host's next event, a write to CMD: VRCE fetches
nothing, the host hands it its commands (rule R102, notes/assumptions/2.md). -/
def State.withFetchWord (s : State) (nbits w : Nat) : State :=
  { s with hostQueue := queueCommand (BitVec.ofNat 32 (w % 2 ^ nbits)) s.hostQueue }

end Sys2Proof.Machine
end

