-- ==== Sys2Proof/Safety.lean ====
section
/-! DEFINITION. What counts as a safe state of VRCE: the invariants its rules promise between events, and the
notions the statements about its runs are written with. -/
namespace Sys2Proof.Machine

/-! ## Reading a state -/

/-- No fault is latched (rule R703). -/
def State.running (s : State) : Prop := s.latch.faulted = false

/-- The iterator has a current macroblock (rule R126). -/
def State.hasMacroblock (s : State) : Prop := s.mi.valid = true ∧ s.mi.countdown ≠ 0

/-- `s` with a fault of command word `w` latched and nothing else changed: what a precise fault leaves
(rule R702, rule R704). -/
def State.faultedBy (s : State) (w : Word) (code : ErrCode) (info : Nat) : State :=
  s.withLatch { faulted := true, code := code, cmd := w, info := BitVec.ofNat 32 info }

/-- Execute the listed commands one after the other, as long as each answers a next state. -/
def execAll : List Instr → State → Option State
  | [], s => some s
  | i :: is, s =>
    match exec i s with
    | .next t => execAll is t
    | .fault _ => none
    | .refused _ => none

/-- The faults a command can raise: the column "raised by" of rule R700, read by command. -/
def faultsOf : Instr → List ErrCode
  | .nop => []
  | .softReset => []
  | .bwInit => []
  | .bwPutbit _ _ => [.allocFailure, .wrongState, .carryInvariant]
  | .bwPutbitu _ => [.allocFailure, .wrongState, .carryInvariant]
  | .bwPutbits _ _ => [.allocFailure, .wrongState, .carryInvariant]
  | .bwPutsbits _ _ => [.allocFailure, .wrongState, .carryInvariant]
  | .bwFinish => [.allocFailure, .wrongState, .carryInvariant]
  | .miReset => [.invalidDimensions]
  | .miImport => [.invalidDimensions, .noMacroblock, .srcBusError]
  | .miExport => [.invalidDimensions, .noMacroblock, .srcBusError]
  | .miSaveBoundary => [.noMacroblock]
  | .miAdvance => [.noMacroblock]
  | .miNzToFlags => [.noMacroblock]
  | .miFlagsToNz => [.noMacroblock]
  | .miSkipNz => [.noMacroblock]
  | .rcCodeBlock _ _ _ => [.allocFailure, .wrongState, .coeffRange, .firstCoeffNonzero, .carryInvariant]
  | .rcRecordBlock _ _ _ => [.coeffRange, .firstCoeffNonzero]
  | .rcCodeMb =>
    [.allocFailure, .wrongState, .noMacroblock, .coeffRange, .firstCoeffNonzero, .carryInvariant]
  | .rcRecordMb => [.noMacroblock, .coeffRange, .firstCoeffNonzero]
  | .rcResetStats => []
  | .rcLoadDefault => []
  | .rcFinalize => []

/-! ## The bit writer -/

/-- Between commands, while a stream is being written (rule R407): the interval width, the bits beyond the
next byte, and the bound on BW.VALUE that keeps every Flush below 0x180, so that no carry of more than one and no
carry that comes with a byte 0xFF can occur, and that makes a carry out of the first byte impossible
(rule R405). -/
def Bw.ok (b : Bw) : Prop :=
  127 ≤ b.range.toNat ∧ b.range.toNat ≤ 254 ∧ -8 ≤ b.nbits.toInt ∧ b.nbits.toInt ≤ 0 ∧
    b.value.toNat + b.range.toNat + 1 ≤ 3 * 2 ^ (b.nbits.toInt + 15).toNat ∧
    (b.pos = 0 → b.value.toNat + b.range.toNat + 1 ≤ 2 ^ (b.nbits.toInt + 16).toNat)

/-- No fault is latched and a stream is being written, by a writer in the bounds of rule R407. -/
def State.coding (s : State) : Prop := s.running ∧ s.bw.st = .writing ∧ s.bw.ok

/-- Every byte OUT[0..BW.POS−1] has been written, and while a stream is being written the last of them can
take a carry (rule R120, rule R404). -/
def Bw.outOk (b : Bw) : Prop :=
  (∀ i < b.pos.toNat, (cellGet b.out i).isSome) ∧
    (b.st = .writing → 0 < b.pos.toNat → cellGet b.out (b.pos.toNat - 1) ≠ some 0xFF)

/-- The bit writer is sound: no fault so far is CARRY_INVARIANT, and while no fault is latched the writer's
registers and OUT are as rule R407 and rule R404 promise, within the capacity of OUT. -/
def State.writerOk (s : State) : Prop :=
  s.latch.code ≠ .carryInvariant ∧
    (s.running → s.bw.outOk ∧ s.bw.pos.toNat ≤ Config.params.outCap ∧ (s.bw.st = .writing → s.bw.ok))

/-- The range after narrowing by one decision, before renormalisation (rule R400). -/
def narrowedRange (r : Nat) (d : CodedBit) : Nat :=
  let split := r * d.2.toNat / 256
  if d.1 then r - (split + 1) else split

/-- The renormalisation shift of one decision on range `r` (rule R402). -/
def shiftOf (r : Nat) (d : CodedBit) : Nat :=
  if narrowedRange r d < 127 then knorm (narrowedRange r d) else 0

/-- The range after one decision on range `r` (rule R402). -/
def nextRange (r : Nat) (d : CodedBit) : Nat :=
  if narrowedRange r d < 127 then knewRange (narrowedRange r d) else narrowedRange r d

/-- The bits the listed decisions shift out, from range `r` on. -/
def totalShift : Nat → List CodedBit → Nat
  | _, [] => 0
  | r, d :: ds => shiftOf r d + totalShift (nextRange r d) ds

/-- The low end of the coding interval in exact arithmetic: rule R400 and rule R402 on unbounded numbers, from
low end `low` and range `r`, with nothing ever moved out. -/
def exactLow : Nat → Nat → List CodedBit → Nat
  | low, _, [] => low
  | low, r, d :: ds =>
    exactLow ((low + if d.1 then r * d.2.toNat / 256 + 1 else 0) * 2 ^ shiftOf r d) (nextRange r d) ds

/-- The range after the listed decisions, from range `r` on. -/
def exactRange : Nat → List CodedBit → Nat
  | r, [] => r
  | r, d :: ds => exactRange (nextRange r d) ds

/-- How many Flushes `n` shifted bits cause, starting from BW.NBITS (rule R402: one each time NBITS would
exceed 0). -/
def flushCount (nbits : Int) (n : Nat) : Nat := ((nbits + n + 7) / 8).toNat

/-- The listed decisions fit into OUT whatever bytes they produce (rule R406). -/
def State.roomFor (s : State) (ds : List CodedBit) : Prop :=
  s.bw.pos.toNat + s.bw.run.toNat + flushCount s.bw.nbits.toInt (totalShift s.bw.range.toNat ds) ≤
    Config.params.outCap

/-- The bytes OUT[0..n−1], most significant first, as one number; a byte nothing has written counts 0. -/
def bytesNumber (m : Cells Byte) : Nat → Nat
  | 0 => 0
  | n + 1 => bytesNumber m n * 256 + ((cellGet m n).getD 0).toNat

/-- The number the writer has coded so far: OUT[0..BW.POS−1], then BW.RUN bytes 0xFF, then the 16 + NBITS
bits below them, with BW.VALUE added (rule R117 to rule R120). -/
def Bw.codeNumber (b : Bw) : Nat :=
  ((bytesNumber b.out b.pos.toNat + 1) * 256 ^ b.run.toNat - 1) * 2 ^ (b.nbits.toInt + 16).toNat +
    b.value.toNat

/-- The output stream OUT[0..BW.POS−1] (rule R204). -/
def Bw.stream (b : Bw) : List Byte := (List.range b.pos.toNat).map fun i => (cellGet b.out i).getD 0

/-! ## The independent decoder (spec/95_test_vectors.md §5, rule R428) -/

/-- The state of the boolean decoder. -/
structure BoolDecoder where
  value : Nat
  range : Nat
  bitCount : Nat
  rest : List Byte
deriving DecidableEq, Repr

/-- Init(bytes); a byte past the end reads 0. -/
def BoolDecoder.init (bytes : List Byte) : BoolDecoder :=
  { value := (bytes.getD 0 0).toNat * 256 + (bytes.getD 1 0).toNat, range := 255, bitCount := 0
    rest := bytes.drop 2 }

/-- The renormalisation loop of DecodeBit, for at most `fuel` shifts; 7 always suffice. -/
def BoolDecoder.shift : Nat → BoolDecoder → BoolDecoder
  | 0, d => d
  | fuel + 1, d =>
    if d.range < 128 then
      if d.bitCount = 7 then
        BoolDecoder.shift fuel
          { value := d.value * 2 + (d.rest.getD 0 0).toNat, range := d.range * 2, bitCount := 0
            rest := d.rest.drop 1 }
      else
        BoolDecoder.shift fuel { d with value := d.value * 2, range := d.range * 2, bitCount := d.bitCount + 1 }
    else d

/-- DecodeBit(p). -/
def BoolDecoder.decodeBit (d : BoolDecoder) (p : Byte) : Bool × BoolDecoder :=
  let split := 1 + (d.range - 1) * p.toNat / 256
  if split * 256 ≤ d.value then
    (true, BoolDecoder.shift 7 { d with range := d.range - split, value := d.value - split * 256 })
  else (false, BoolDecoder.shift 7 { d with range := split })

/-- Decode one bit for each listed probability. -/
def BoolDecoder.decodeAll : List Byte → BoolDecoder → List Bool
  | [], _ => []
  | p :: ps, d => (d.decodeBit p).1 :: BoolDecoder.decodeAll ps (d.decodeBit p).2

/-! ## The iterator -/

/-- The iterator is sound (rule R124 to rule R126, rule R551): a reset one has a grid within the limits and a
countdown that agrees with its position in raster order; at the end of the grid it stands at (0, MBH). -/
def State.iteratorOk (s : State) : Prop :=
  s.mi.valid = true →
    1 ≤ s.mi.mbw.toNat ∧ s.mi.mbw.toNat ≤ Config.params.maxMbW ∧ 1 ≤ s.mi.mbh.toNat ∧
      s.mi.mbh.toNat ≤ Config.params.maxMbH ∧ s.mi.mbh.toNat ≤ 4096 ∧
      s.mi.x.toNat < s.mi.mbw.toNat ∧
      s.mi.countdown.toNat + s.mi.y.toNat * s.mi.mbw.toNat + s.mi.x.toNat =
        s.mi.mbw.toNat * s.mi.mbh.toNat

/-! ## Storage -/

/-- Every listed index of a sparse array is below its size. -/
def cellsBelow {α : Type} (n : Nat) (m : Cells α) : Bool := m.all fun c => decide (c.1 < n)

/-- Every array is in canonical form and inside its size (rule R9, rule R123, rule R127 to rule R135), and so
is the source memory (rule R212). -/
def State.storageOk (s : State) : Prop :=
  (cellsWf s.bw.out ∧ cellsBelow Config.params.outCap s.bw.out) ∧
    (cellsWf s.mi.yuvIn ∧ cellsBelow 512 s.mi.yuvIn) ∧
    (cellsWf s.mi.yuvOut ∧ cellsBelow 512 s.mi.yuvOut) ∧
    (cellsWf s.mi.yTop ∧ cellsBelow (16 * Config.params.maxMbW) s.mi.yTop) ∧
    (cellsWf s.mi.uvTop ∧ cellsBelow (16 * Config.params.maxMbW) s.mi.uvTop) ∧
    (cellsWf s.mi.yLeft ∧ cellsBelow 17 s.mi.yLeft) ∧
    (cellsWf s.mi.uLeft ∧ cellsBelow 9 s.mi.uLeft) ∧
    (cellsWf s.mi.vLeft ∧ cellsBelow 9 s.mi.vLeft) ∧
    (cellsWf s.mi.nz ∧ cellsBelow Config.params.maxMbW s.mi.nz) ∧
    (cellsWf s.mi.topNz ∧ cellsBelow 9 s.mi.topNz) ∧
    (cellsWf s.mi.leftNz ∧ cellsBelow 9 s.mi.leftNz) ∧
    (cellsWf s.rc.coef ∧ cellsBelow 400 s.rc.coef) ∧
    s.rc.prob.length = numCells ∧ s.rc.stats.length = numCells ∧ s.mi.bitCount.length = 12 ∧
    Memory.wf s.src

/-- Every counter pair of STATS has at most as many ones as decisions (rule R630). -/
def State.statsOk (s : State) : Prop := ∀ w ∈ s.rc.stats, w.toNat % 65536 ≤ w.toNat / 65536

/-- The fault latch is consistent: without a fault its other fields stand at their reset values, with one it
names it (rule R107, rule R700). -/
def State.latchOk (s : State) : Prop :=
  if s.latch.faulted then s.latch.code ≠ .none
  else s.latch.code = .none ∧ s.latch.cmd = 0 ∧ s.latch.info = 0

/-! ## Coefficient blocks -/

/-- The data of a block may be coded as type `t` (rule R607): no magnitude above 2114, and for type 0 no
coefficient at position 0. -/
def blockLegal (t : Nat) (coefs : List Int) : Prop :=
  (∀ c ∈ coefs, c.natAbs ≤ maxMagnitude) ∧ (t = 0 → coefs.head? = some 0)

/-- The fault CheckBlock raises on the block in `slot` as type `ty` (rule R607): `code` and `info` are those of the
first offending position, and at position 0 of type 0 FIRST_COEFF_NONZERO comes first. -/
def State.blockFault (s : State) (slot ty : Nat) (code : ErrCode) (info : Nat) : Prop :=
  let coef (n : Nat) : Int := (blockCoefs Config.params s slot).getD n 0
  (ty = 0 ∧ coef 0 ≠ 0 ∧ code = .firstCoeffNonzero ∧ info = slot <<< 4) ∨
    ∃ n < 16, (ty = 0 → coef 0 = 0) ∧ (∀ m < n, (coef m).natAbs ≤ 2114) ∧ 2114 < (coef n).natAbs ∧
      code = .coeffRange ∧ info = (slot <<< 4) ||| n

/-- The table nodes asked about a magnitude, with their answers: the rows of rule R604 from ONE to C5/6, as
(tree position, answer, asked). -/
def tokenNodes (v : Nat) : List (Nat × Bool) :=
  ([ (2, decide (1 < v), decide (v ≠ 0)),
     (3, decide (4 < v), decide (2 ≤ v)),
     (4, decide (v ≠ 2), decide (2 ≤ v ∧ v ≤ 4)),
     (5, decide (v = 4), decide (3 ≤ v ∧ v ≤ 4)),
     (6, decide (10 < v), decide (5 ≤ v)),
     (7, decide (6 < v), decide (5 ≤ v ∧ v ≤ 10)),
     (8, decide (35 ≤ v), decide (11 ≤ v)),
     (9, decide (19 ≤ v), decide (11 ≤ v ∧ v ≤ 34)),
     (10, decide (67 ≤ v), decide (35 ≤ v)) ] : List (Nat × Bool × Bool)).filterMap fun row =>
    if row.2.2 then some (row.1, row.2.1) else none

/-- A magnitude category of rule R605: its least and greatest magnitude, and the probabilities of its extra
bits, most significant first. -/
structure Category where
  base : Nat
  last : Nat
  probs : List Byte
deriving DecidableEq, Repr

/-- The categories of rule R605. -/
def categories : List Category :=
  [ ⟨5, 6, [159]⟩, ⟨7, 10, [165, 145]⟩, ⟨11, 18, [173, 148, 140]⟩, ⟨19, 34, [176, 155, 140, 135]⟩,
    ⟨35, 66, [180, 157, 141, 134, 130]⟩,
    ⟨67, 2114, [254, 254, 243, 230, 196, 177, 153, 140, 133, 130, 129]⟩ ]

/-- The extra bits of a magnitude: v − base in as many bits as its category has probabilities, most
significant first (rule R605). -/
def categoryBits (v : Nat) : List CodedBit :=
  match categories.find? fun k => decide (k.base ≤ v ∧ v ≤ k.last) with
  | some k => k.probs.mapIdx fun i p => ((v - k.base).testBit (k.probs.length - 1 - i), p)
  | none => []

/-- The context of a coded position (rule R606): `ctx` at the first one, else the size class of the
coefficient before it. -/
def contextAt (t ctx : Nat) (coefs : List Int) (n : Nat) : Nat :=
  if n = firstPos t then ctx else min (coefs.getD (n - 1) 0).natAbs 2

/-- The table cell of tree position `k` at coefficient position `n` (rule R604). -/
def cellAt (t ctx : Nat) (coefs : List Int) (n k : Nat) : Nat :=
  cellIx t (band n) (contextAt t ctx coefs n) k

/-- The decisions of rule R604 at position `n`: EOB, where it is asked, with answer 1; ZERO; and for a
non-zero coefficient its magnitude and sign. -/
def tokenAt (t ctx : Nat) (coefs : List Int) (n : Nat) : List Decision :=
  let x := coefs.getD n 0
  (if n = firstPos t ∨ coefs.getD (n - 1) 0 ≠ 0 then [.cell true (cellAt t ctx coefs n 0)] else []) ++
    .cell (decide (x ≠ 0)) (cellAt t ctx coefs n 1) ::
      (if x = 0 then []
       else
        (tokenNodes x.natAbs).map (fun k => .cell k.2 (cellAt t ctx coefs n k.1)) ++
          (categoryBits x.natAbs).map (fun d => .fixed d.1 d.2) ++ [.sign (decide (x < 0))])

/-- The decisions on a block as the table of rule R604 gives them: a token for each position from FIRST(t) to
LAST(C), then the closing EOB at the next position, if there is one. -/
def tokens (t ctx : Nat) (coefs : List Int) : List Decision :=
  let past := max (lastNonzero coefs + 1).toNat (firstPos t)
  (List.range' (firstPos t) (past - firstPos t)).flatMap (tokenAt t ctx coefs) ++
    if past < 16 then [.cell false (cellAt t ctx coefs past 0)] else []

/-- The bit of a decision, if it is one of table cell `i`. -/
def Decision.bitAt (i : Nat) : Decision → Option Bool
  | .cell bit ix => if ix = i then some bit else none
  | .fixed _ _ => none
  | .sign _ => none

/-! ## Macroblocks -/

/-- newNonZeroFlag of a slot (rule R608): some coefficient is not 0. -/
def State.slotFlag (s : State) (slot : Nat) : Bool := (blockCoefs Config.params s slot).any fun c => c ≠ 0

/-- TOP_NZ[j] as the macroblock starts: its bit of NZ[MI.X] (rule R561). -/
def State.topBit (s : State) (j : Nat) : Bool :=
  (nzAt Config.params s s.mi.x.toNat).getLsbD (topNzBits.getD j 0)

/-- LEFT_NZ[j] as the macroblock starts: its bit of NZ[MI.X − 1], and LEFT_NZ[8] as it was (rule R561). -/
def State.leftBit (s : State) (j : Nat) : Bool :=
  if j = 8 then (readCell Config.params s.tick .leftNz s.mi.leftNz 8).getLsbD 0
  else (nzLeftOf Config.params s).getLsbD (leftNzBits.getD j 0)

/-- The context of a block (rule R621): the flags of the blocks above and to the left, which lie in this
macroblock but for the first row and column. The blocks of a plane have slots `base + bx + n·by`, and its
flags begin at index `flag`. -/
def State.blockContext (s : State) (base n flag bx by_ : Nat) : Nat :=
  (if by_ = 0 then s.topBit (flag + bx) else s.slotFlag (base + bx + n * (by_ - 1))).toNat +
    (if bx = 0 then s.leftBit (flag + by_) else s.slotFlag (base + (bx - 1) + n * by_)).toNat

/-- A block to code: slot, type, context. -/
structure BlockUse where
  slot : Nat
  ty : Nat
  ctx : Nat
deriving DecidableEq, Repr

/-- The blocks of one plane in raster order. -/
def State.planeUses (s : State) (base n flag ty : Nat) : List BlockUse :=
  (grid n n).map fun yx => ⟨base + yx.2 + n * yx.1, ty, s.blockContext base n flag yx.2 yx.1⟩

/-- The luma blocks of the macroblock in coding order (rule R620, rule R621). -/
def State.lumaUses (s : State) : List BlockUse :=
  if s.cfg.mbType = 1 then ⟨0, 1, (s.topBit 8).toNat + (s.leftBit 8).toNat⟩ :: s.planeUses 1 4 0 0
  else s.planeUses 1 4 0 3

/-- The chroma blocks of the macroblock in coding order (rule R620, rule R621). -/
def State.chromaUses (s : State) : List BlockUse := s.planeUses 17 2 4 2 ++ s.planeUses 21 2 6 2

/-- The block command of a block. -/
def BlockUse.command (f : BitVec 5 → BitVec 2 → BitVec 2 → Instr) (u : BlockUse) : Instr :=
  f (BitVec.ofNat 5 u.slot) (BitVec.ofNat 2 u.ty) (BitVec.ofNat 2 u.ctx)

/-- Every block of the macroblock may be coded (rule R607). -/
def State.mbLegal (s : State) : Prop :=
  ∀ u ∈ s.lumaUses ++ s.chromaUses, blockLegal u.ty (blockCoefs Config.params s u.slot)

/-- The decisions of the listed blocks, with the probabilities they are coded with. -/
def State.usesBits (s : State) (us : List BlockUse) : List CodedBit :=
  us.flatMap fun u => (walk u.ty u.ctx (blockCoefs Config.params s u.slot)).map (codedBit s.rc)

/-- The flags after the macroblock (rule R621, rule R622): TOP_NZ from the bottom row of each plane, LEFT_NZ
from its right column; the DC flags from the DC block, or as the macroblock started. -/
def State.endTop (s : State) : List Bool :=
  [s.slotFlag 13, s.slotFlag 14, s.slotFlag 15, s.slotFlag 16, s.slotFlag 19, s.slotFlag 20,
    s.slotFlag 23, s.slotFlag 24, if s.cfg.mbType = 1 then s.slotFlag 0 else s.topBit 8]

/-- LEFT_NZ[0..7] after the macroblock. LEFT_NZ[8] is changed by an intra-16 macroblock only. -/
def State.endLeft (s : State) : List Bool :=
  [s.slotFlag 4, s.slotFlag 8, s.slotFlag 12, s.slotFlag 16, s.slotFlag 18, s.slotFlag 20,
    s.slotFlag 22, s.slotFlag 24]

/-- The NZ word of nine TOP_NZ and eight LEFT_NZ flags (rule R562), by bit number. -/
def nzBit (top left : Nat → Bool) (b : Nat) : Bool :=
  match b with
  | 12 => top 0
  | 13 => top 1
  | 14 => top 2
  | 15 => top 3
  | 18 => top 4
  | 19 => top 5
  | 22 => top 6
  | 23 => top 7
  | 24 => top 8
  | 3 => left 0
  | 7 => left 1
  | 11 => left 2
  | 17 => left 4
  | 21 => left 6
  | _ => false

/-- `m'` is `m` with the flags and the summary of the macroblock just coded or recorded, and with nothing else
changed but what `accountBits` counts: TOP_NZ, LEFT_NZ and NZ[MI.X] (rule R622, rule R623). -/
def State.mbFlagsDone (s : State) (m' : Mi) : Prop :=
  (∀ j < 9, cellGet m'.topNz j = some (BitVec.ofBool (s.endTop.getD j false))) ∧
    (∀ j < 8, cellGet m'.leftNz j = some (BitVec.ofBool (s.endLeft.getD j false))) ∧
    (cellGet m'.leftNz 8 =
      if s.cfg.mbType = 1 then some (BitVec.ofBool (s.slotFlag 0)) else cellGet s.mi.leftNz 8) ∧
    (∃ w : BitVec 32, cellGet m'.nz s.mi.x.toNat = some w ∧
      ∀ b < 32, w.getLsbD b = nzBit (s.endTop.getD · false) (s.endLeft.getD · false) b) ∧
    ∀ x, x ≠ s.mi.x.toNat → cellGet m'.nz x = cellGet s.mi.nz x

/-! ## The host port -/

/-- The offsets of the 32-bit registers (rule R104), with what is there. -/
def hostRegisters : List (Nat × HostElem) :=
  [ (0x000, .cmd), (0x004, .status), (0x008, .errCmd), (0x00C, .errInfo), (0x010, .cfgWidth),
    (0x014, .cfgHeight), (0x018, .cfgYStride), (0x01C, .cfgUvStride), (0x020, .cfgYBase),
    (0x024, .cfgUBase), (0x028, .cfgVBase), (0x02C, .mbType), (0x030, .mbSegment), (0x040, .bwRange),
    (0x044, .bwValue), (0x048, .bwNbits), (0x04C, .bwRun), (0x050, .bwPos), (0x054, .bwBitpos),
    (0x060, .miX), (0x064, .miY), (0x068, .miMbw), (0x06C, .miMbh), (0x070, .miCountdown),
    (0x074, .miLumaBits), (0x078, .miUvBits), (0x080, .rcSize) ]

/-- The arrays of rule R206 and the BIT_COUNT area of rule R104: the host address of element 0, the number of
elements, their width in bytes, and the element. The left caches and NZ begin with element −1. -/
def hostArrays : List (Nat × Nat × Nat × (Nat → HostElem)) :=
  [ (0x0C0, 24, 4, .bitCountHalf), (0x1000, 1056, 1, .prob), (0x2000, 1056, 4, .stats),
    (0x4000, 400, 2, .coef), (0x5000, 512, 1, .yuvIn), (0x5200, 512, 1, .yuvOut), (0x6000, 17, 1, .yLeft),
    (0x6020, 9, 1, .uLeft), (0x6030, 9, 1, .vLeft), (0x6040, 9, 1, .topNz), (0x6050, 9, 1, .leftNz),
    (0x10000, Config.params.maxMbW + 1, 4, .nz), (0x20000, 16 * Config.params.maxMbW, 1, .yTop),
    (0x28000, 16 * Config.params.maxMbW, 1, .uvTop), (0x40000000, Config.params.outCap, 1, .out) ]

/-- An access of `bytes` bytes at `a` reaches the element `e`: the address is the element's own and so is the
width (rule R201, rule R205, rule R206). -/
def hostMaps (a : Nat) (bytes : Nat) (e : HostElem) : Prop :=
  (bytes = 4 ∧ (a, e) ∈ hostRegisters) ∨
    ∃ v ∈ hostArrays, bytes = v.2.2.1 ∧ ∃ i < v.2.1, a = v.1 + v.2.2.1 * i ∧ e = v.2.2.2 i

/-- What the host reads at the offset of each register but STATUS (rule R104), modulo 2^32: CMD reads 0, BW_NBITS is
signed (rule R118), BW_BITPOS is rule R121. -/
def State.registerValues (s : State) : List (Nat × Int) :=
  [ (0x000, 0), (0x008, s.latch.cmd.toNat), (0x00C, s.latch.info.toNat), (0x010, s.cfg.width.toNat),
    (0x014, s.cfg.height.toNat), (0x018, s.cfg.yStride.toInt), (0x01C, s.cfg.uvStride.toInt),
    (0x020, s.cfg.yBase.toNat), (0x024, s.cfg.uBase.toNat), (0x028, s.cfg.vBase.toNat),
    (0x02C, s.cfg.mbType.toNat), (0x030, s.cfg.mbSegment.toNat), (0x040, s.bw.range.toNat),
    (0x044, s.bw.value.toNat), (0x048, s.bw.nbits.toInt), (0x04C, s.bw.run.toNat), (0x050, s.bw.pos.toNat),
    (0x054, 8 * ((s.bw.pos.toNat : Int) + s.bw.run.toNat) + 8 + s.bw.nbits.toInt), (0x060, s.mi.x.toNat),
    (0x064, s.mi.y.toNat), (0x068, s.mi.mbw.toNat), (0x06C, s.mi.mbh.toNat),
    (0x070, s.mi.countdown.toNat), (0x074, s.mi.lumaBits.toNat), (0x078, s.mi.uvBits.toNat),
    (0x080, s.rc.size.toNat) ]

/-- A host-visible array with what the host reads in it: the host address of its first element, the number of
elements, their width in bytes, and the value of each. -/
structure ArrayValues where
  base : Nat
  count : Nat
  bytes : Nat
  value : Nat → Nat

/-- What the host reads in each array (rule R206, rule R113): counter c of BIT_COUNT at 0x0C0 + 8·c, low word first;
the left caches and NZ from element −1 on, where NZ[−1] is 0 (rule R131); OUT from BW.POS on holds any value
(rule R123), and so does an element nothing has written (rule R141). -/
def State.arrayValues (s : State) : List ArrayValues :=
  let P := Config.params
  [ ⟨0x0C0, 24, 4, fun k => (s.mi.bitCount.getD (k / 2) 0).toNat / 2 ^ (32 * (k % 2)) % 2 ^ 32⟩,
    ⟨0x1000, 1056, 1, fun k => (s.rc.prob.getD k 0).toNat⟩,
    ⟨0x2000, 1056, 4, fun k => (s.rc.stats.getD k 0).toNat⟩,
    ⟨0x4000, 400, 2, fun k => (readCell P s.tick .coef s.rc.coef k).toNat⟩,
    ⟨0x5000, 512, 1, fun k => (readCell P s.tick .yuvIn s.mi.yuvIn k).toNat⟩,
    ⟨0x5200, 512, 1, fun k => (readCell P s.tick .yuvOut s.mi.yuvOut k).toNat⟩,
    ⟨0x6000, 17, 1, fun k => (readCell P s.tick .yLeft s.mi.yLeft k).toNat⟩,
    ⟨0x6020, 9, 1, fun k => (readCell P s.tick .uLeft s.mi.uLeft k).toNat⟩,
    ⟨0x6030, 9, 1, fun k => (readCell P s.tick .vLeft s.mi.vLeft k).toNat⟩,
    ⟨0x6040, 9, 1, fun k => (readCell P s.tick .topNz s.mi.topNz k).toNat⟩,
    ⟨0x6050, 9, 1, fun k => (readCell P s.tick .leftNz s.mi.leftNz k).toNat⟩,
    ⟨0x10000, Config.params.maxMbW + 1, 4,
      fun k => if k = 0 then 0 else (readCell P s.tick .nz s.mi.nz (k - 1)).toNat⟩,
    ⟨0x20000, 16 * Config.params.maxMbW, 1, fun k => (readCell P s.tick .yTop s.mi.yTop k).toNat⟩,
    ⟨0x28000, 16 * Config.params.maxMbW, 1, fun k => (readCell P s.tick .uvTop s.mi.uvTop k).toNat⟩,
    ⟨0x40000000, Config.params.outCap, 1, fun k =>
      if k < s.bw.pos.toNat then (readCell P s.tick .out s.bw.out k).toNat
      else (Config.freeValue .out s.tick k).toNat % 256⟩ ]

/-- The bits a host write of an element stores (rule R104, rule R206); `none` where it is read-only. CMD is no
storage. -/
def HostElem.writable : HostElem → Option Word
  | .cfgWidth => some 0xFFFF
  | .cfgHeight => some 0xFFFF
  | .cfgYStride => some 0xFFFFFFFF
  | .cfgUvStride => some 0xFFFFFFFF
  | .cfgYBase => some 0xFFFFFFFF
  | .cfgUBase => some 0xFFFFFFFF
  | .cfgVBase => some 0xFFFFFFFF
  | .mbType => some 1
  | .mbSegment => some 3
  | .prob _ => some 0xFF
  | .coef _ => some 0xFFFF
  | .yuvOut _ => some 0xFF
  | _ => none

end Sys2Proof.Machine
end

