-- ==== Sys2Proof/Certificates/Slice0/Obligations.lean ====
section
/-! DEFINITION. The statements about the model. A statement's docstring names the rule of spec/ it rests on; where a
clause is the model's own choice it names the log entry. `running` is FAULTED = 0, and every command's result is
stated as the whole next state, so that what is not named in it is unchanged. -/

open Sys2Proof Sys2Proof.Machine

/-! ## Encoding -/

/-- Decoding the word of a command gives the command back, with every operand at every legal value
(rule R300 to rule R308). -/
def Obligations.DecodeInvertsEncode : Prop :=
  ∀ i : Instr, i.wellFormed = true → decode (encode i) = .ok i

/-- A word that decodes is the word of the command it decodes to, and that command is in range: no bit of a
legal word is dropped (rule R300 to rule R308). -/
def Obligations.EncodeInvertsDecode : Prop :=
  ∀ (w : Word) (i : Instr), decode w = .ok i → i.wellFormed = true ∧ encode i = w

/-- The words that decode are those of the rows of spec/opcode_table.json, mask, match and field ranges
(rule R307, rule R308). -/
def Obligations.DecodeAcceptsExactlyTheTable : Prop :=
  ∀ w : Word, (∃ i, decode w = .ok i) ↔ ∃ r ∈ opcodeTable, r.covers w = true

/-- The encoding examples of rule R314, which the spec derives from its formats (rule R301 to rule R305, rule R307). -/
def Obligations.ExampleWordsDecode : Prop :=
  ∀ p ∈ ([ (0x20000000, .bwInit), (0x240001C8, .bwPutbit true 200), (0x28000001, .bwPutbitu true),
     (0x2C030005, .bwPutbits 3 5), (0x3004FFFD, .bwPutsbits 4 (-3)), (0x34000000, .bwFinish),
     (0x40000000, .miReset), (0x50000000, .miAdvance), (0x60001121, .rcCodeBlock 17 2 1),
     (0x68000000, .rcCodeMb), (0x78000000, .rcFinalize), (0x08000000, .softReset) ] :
    List (Word × Instr)), decode p.1 = .ok p.2 ∧ encode p.2 = p.1

/-! ## The step -/

/-- A step whose event is a write of a legal word to CMD executes the command, after the event has left the
queue (rule R101, rule R105; the queue is the model's own, log 1). -/
def Obligations.StepRunsDecodedCommand : Prop :=
  ∀ (s : State) (w : Word) (q : List HostEvent) (i : Instr),
    s.hostQueue = .write 0 4 w :: q → decode w = .ok i → step s = exec i (s.accept q)

/-- An illegal word does nothing but raise ILLEGAL_COMMAND with ERR_INFO 0, and nothing at all while
FAULTED = 1 (rule R311). The queue, the response and the tick are the model's own (log 1). -/
def Obligations.IllegalWordRaisesFault : Prop :=
  ∀ (s : State) (w : Word) (q : List HostEvent) (e : DecodeError),
    s.hostQueue = .write 0 4 w :: q → decode w = .error e →
      step s =
        .next (if s.latch.faulted then s.accept q else (s.accept q).faultedBy w .illegalCommand 0)

/-! ## Faults and reset -/

/-- While FAULTED = 1, every word but SOFT_RESET's has no effect (rule R703). Every host access leaves the latch alone
and does and answers what it would with the latch clear, but that STATUS, ERR_CMD and ERR_INFO show the latch; hardware
reset does the same with and without a fault (rule R800). The queue, the response and the tick are the model's own
(log 1), and so are hardware reset and the host's source-memory accesses as events (log 13). -/
def Obligations.FaultedMachineIgnoresCommands : Prop :=
  ∀ (s : State) (e : HostEvent) (q : List HostEvent), s.hostQueue = e :: q → s.latch.faulted = true →
    (∀ w, commandOf e = some w → w ≠ 0x08000000 → step s = .next (s.accept q)) ∧
      (commandOf e = none → ∃ t u, step s = .next t ∧ step (s.withLatch Latch.reset) = .next u ∧
        (e = .hardReset → t = u) ∧
        (e ≠ .hardReset →
          t =
            (u.withLatch s.latch).withResp
              (if e = .read 0x004 4 then .data (readElem Config.params s .status)
              else if e = .read 0x008 4 then .data s.latch.cmd
              else if e = .read 0x00C 4 then .data s.latch.info
              else u.hostResp)))

/-- What a faulting command leaves (rule R702, rule R704): ERR_CMD is its word (rule R700), a precise fault
changes the latch only, and an imprecise one leaves alone everything but the bit writer's registers and OUT
and, for RC_CODE_MB, the flags, NZ[MI.X] and the bit counts. -/
def Obligations.FaultsArePrecise : Prop :=
  ∀ (i : Instr) (s t : State), s.running → exec i s = .next t → t.latch.faulted = true →
    t.latch.cmd = encode i ∧ t.latch.code ≠ .none ∧
      (t.latch.code ≠ .allocFailure → t.latch.code ≠ .carryInvariant → t = s.withLatch t.latch) ∧
      t = (((s.withLatch t.latch).withBw t.bw).withMi t.mi) ∧ t.bw.st = s.bw.st ∧
      (i ≠ .rcCodeMb → t.mi = s.mi) ∧
      t.mi =
        { s.mi with
          topNz := t.mi.topNz, leftNz := t.mi.leftNz, nz := t.mi.nz, lumaBits := t.mi.lumaBits
          uvBits := t.mi.uvBits, bitCount := t.mi.bitCount } ∧
      ∀ x, x ≠ s.mi.x.toNat → cellGet t.mi.nz x = cellGet s.mi.nz x

/-- Without a fault ERR_CODE, ERR_CMD and ERR_INFO are 0, and with one ERR_CODE names it (rule R107,
rule R700): every step keeps that. -/
def Obligations.StepKeepsLatchOk : Prop :=
  ∀ s t : State, s.latchOk → step s = .next t → t.latchOk

/-- The values rule R142 gives, in the reset state, after hardware reset and after SOFT_RESET, and the registers as
the host then reads them (rule R104, rule R106). Hardware reset as an event is the model's own (log 13). -/
def Obligations.ResetValues : Prop :=
  ∀ s : State,
    (s = State.reset ∨ (∃ u, exec .softReset u = .next s) ∨
      ∃ u q, u.hostQueue = .hardReset :: q ∧ step u = .next s) →
  s.latch = { faulted := false, code := .none, cmd := 0, info := 0 } ∧
    s.cfg =
      { width := 0, height := 0, yStride := 0, uvStride := 0, yBase := 0, uBase := 0, vBase := 0
        mbType := 0, mbSegment := 0 } ∧
    s.bw.st = .empty ∧ s.bw.range = 0 ∧ s.bw.value = 0 ∧ s.bw.nbits = 0 ∧ s.bw.run = 0 ∧
    s.bw.pos = 0 ∧ s.bw.lastBit = false ∧
    s.mi.x = 0 ∧ s.mi.y = 0 ∧ s.mi.mbw = 0 ∧ s.mi.mbh = 0 ∧ s.mi.countdown = 0 ∧
    s.mi.valid = false ∧ s.mi.lumaBits = 0 ∧ s.mi.uvBits = 0 ∧
    s.mi.bitCount.length = 12 ∧ (∀ c ∈ s.mi.bitCount, c = 0) ∧
    s.rc.nz = false ∧ s.rc.dirty = false ∧ s.rc.size = 0 ∧
    s.rc.prob.length = 1056 ∧ (∀ i < 1056, probAt s.rc i = Config.defaultCoeffProbs i) ∧
    s.rc.stats.length = 1056 ∧ (∀ i < 1056, statsAt s.rc i = 0) ∧
    readElem Config.params s (.nz 0) = 0 ∧
    ∀ p ∈ hostRegisters, readElem Config.params s p.2 = if p.2 = .bwBitpos then 8 else 0

/-- SOFT_RESET, also while FAULTED = 1, and hardware reset put VRCE into its reset state: STATUS becomes 0, and the
source memory is unchanged (rule R800, rule R801). The host's side of the port, the queue, the response and the tick, is
the model's own (log 1), and so is hardware reset as an event of the queue (log 13). -/
def Obligations.ResetsRestoreResetState : Prop :=
  ∀ s : State,
    (∃ t,
      exec .softReset s = .next t ∧
        t =
          { State.reset with
            src := s.src, hostQueue := s.hostQueue, hostResp := s.hostResp, tick := s.tick } ∧
        statusWord t = 0 ∧ t.latch.cmd = 0) ∧
      ∀ q : List HostEvent, s.hostQueue = .hardReset :: q →
        step s =
          .next { State.reset with src := s.src, hostQueue := q, hostResp := .done, tick := s.tick + 1 }

/-- NOP changes no state (rule R720). -/
def Obligations.NopChangesNothing : Prop := ∀ s : State, exec .nop s = .next s

/-- Each part of the state is written only by the commands the spec names for it (rule R106, rule R107, rule R113 to
rule R136, rule R214), or by SOFT_RESET: the configuration, YUV_OUT and COEF by no command, and the fault latch only by
a command that takes a fault rule R700 lists for it, when none is latched (rule R702, rule R703). An imprecise fault
writes nothing that its command may not write (rule R704). The host's side of the port is the model's own (log 1). -/
def Obligations.OnlyNamedCommandsWrite : Prop :=
  ∀ (i : Instr) (s t : State), exec i s = .next t → i ≠ .softReset →
    let codes : Prop :=
      i ∈ [Instr.bwFinish, .rcCodeMb] ∨ (∃ bit p, i = .bwPutbit bit p) ∨ (∃ bit, i = .bwPutbitu bit) ∨
        (∃ nb val, i = .bwPutbits nb val) ∨ (∃ nb val, i = .bwPutsbits nb val) ∨
        ∃ slot ty ctx, i = .rcCodeBlock slot ty ctx
    t.cfg = s.cfg ∧ t.mi.yuvOut = s.mi.yuvOut ∧ t.rc.coef = s.rc.coef ∧
      (t.hostQueue = s.hostQueue ∧ t.hostResp = s.hostResp ∧ t.tick = s.tick) ∧
      (t.latch ≠ s.latch → s.running ∧ t.latch.faulted = true ∧ t.latch.code ∈ faultsOf i) ∧
      (t.src ≠ s.src → i = .miExport) ∧
      (t.bw.st ≠ s.bw.st → i = .bwInit ∨ i = .bwFinish) ∧
      (t.bw.range ≠ s.bw.range ∨ t.bw.value ≠ s.bw.value ∨ t.bw.nbits ≠ s.bw.nbits ∨
          t.bw.run ≠ s.bw.run ∨ t.bw.pos ≠ s.bw.pos → i = .bwInit ∨ codes) ∧
      (t.bw.lastBit ≠ s.bw.lastBit ∨ t.bw.out ≠ s.bw.out → codes) ∧
      (t.mi.valid ≠ s.mi.valid ∨ t.mi.mbw ≠ s.mi.mbw ∨ t.mi.mbh ≠ s.mi.mbh → i = .miReset) ∧
      (t.mi.x ≠ s.mi.x ∨ t.mi.y ≠ s.mi.y ∨ t.mi.countdown ≠ s.mi.countdown →
        i = .miReset ∨ i = .miAdvance) ∧
      (t.mi.bitCount ≠ s.mi.bitCount → i = .miReset ∨ i = .rcCodeMb) ∧
      (t.mi.lumaBits ≠ s.mi.lumaBits ∨ t.mi.uvBits ≠ s.mi.uvBits → i = .rcCodeMb) ∧
      (t.mi.yuvIn ≠ s.mi.yuvIn → i = .miImport) ∧
      (t.mi.yTop ≠ s.mi.yTop ∨ t.mi.uvTop ≠ s.mi.uvTop → i = .miReset ∨ i = .miSaveBoundary) ∧
      (t.mi.yLeft ≠ s.mi.yLeft ∨ t.mi.uLeft ≠ s.mi.uLeft ∨ t.mi.vLeft ≠ s.mi.vLeft →
        i = .miReset ∨ i = .miAdvance ∨ i = .miSaveBoundary) ∧
      (t.mi.nz ≠ s.mi.nz → i ∈ [Instr.miReset, .miFlagsToNz, .miSkipNz, .rcCodeMb, .rcRecordMb]) ∧
      (t.mi.topNz ≠ s.mi.topNz → i ∈ [Instr.miNzToFlags, .rcCodeMb, .rcRecordMb]) ∧
      (t.mi.leftNz ≠ s.mi.leftNz →
        i ∈ [Instr.miReset, .miAdvance, .miNzToFlags, .miSkipNz, .rcCodeMb, .rcRecordMb]) ∧
      (t.rc.nz ≠ s.rc.nz →
        (∃ slot ty ctx, i = .rcCodeBlock slot ty ctx) ∨ ∃ slot ty ctx, i = .rcRecordBlock slot ty ctx) ∧
      (t.rc.dirty ≠ s.rc.dirty ∨ t.rc.size ≠ s.rc.size → i = .rcFinalize) ∧
      (t.rc.prob ≠ s.rc.prob → i = .rcLoadDefault ∨ i = .rcFinalize) ∧
      (t.rc.stats ≠ s.rc.stats →
        i = .rcResetStats ∨ i = .rcRecordMb ∨ ∃ slot ty ctx, i = .rcRecordBlock slot ty ctx)

/-- Only MI_IMPORT reads the source memory and only MI_EXPORT writes it (rule R214). Every other command does the same
whatever the source memory holds; MI_IMPORT takes nothing from it but the samples in YUV_IN; and the bytes MI_EXPORT
writes, and where, are the same whatever it held before. -/
def Obligations.SourceMemoryIsIsolated : Prop :=
  ∀ (i : Instr) (s t : State), exec i s = .next t →
    (i ≠ .miExport → t.src = s.src) ∧
      (i ≠ .miImport → i ≠ .miExport → ∀ m, exec i (s.withSrc m) = .next (t.withSrc m)) ∧
      (i = .miImport → ∀ m, ∃ u, exec i (s.withSrc m) = .next u ∧
        u = (t.withMi { t.mi with yuvIn := u.mi.yuvIn }).withSrc m) ∧
      (i = .miExport → ∃ writes : List (Word × Byte), t.src = srcWriteAll s.src writes ∧
        ∀ m, exec i (s.withSrc m) = .next (t.withSrc (srcWriteAll m writes)))

/-! ## The bit writer -/

/-- KNORM and KNEW_RANGE as rule R403 lists them. -/
def Obligations.RenormalisationTables : Prop :=
  (List.range 128).map knorm =
      List.replicate 1 7 ++ List.replicate 2 6 ++ List.replicate 4 5 ++ List.replicate 8 4 ++
        List.replicate 16 3 ++ List.replicate 32 2 ++ List.replicate 64 1 ++ [0] ∧
    (List.range 128).map knewRange =
      [127, 127, 191, 127, 159, 191, 223, 127, 143, 159, 175, 191, 207, 223, 239] ++
        [127, 135, 143, 151, 159, 167, 175, 183, 191, 199, 207, 215, 223, 231, 239, 247] ++
        [127, 131, 135, 139, 143, 147, 151, 155, 159, 163, 167, 171, 175, 179, 183, 187, 191, 195, 199, 203,
          207, 211, 215, 219, 223, 227, 231, 235, 239, 243, 247, 251] ++
        [127, 129, 131, 133, 135, 137, 139, 141, 143, 145, 147, 149, 151, 153, 155, 157, 159, 161, 163, 165,
          167, 169, 171, 173, 175, 177, 179, 181, 183, 185, 187, 189, 191, 193, 195, 197, 199, 201, 203, 205,
          207, 209, 211, 213, 215, 217, 219, 221, 223, 225, 227, 229, 231, 233, 235, 237, 239, 241, 243, 245,
          247, 249, 251, 253] ++
        [127]

/-- BW_INIT starts a writer from any BW.STATE; BW.LASTBIT stays, BW_RANGE, BW_NBITS and BW_BITPOS read 254,
0xFFFFFFF8 and 0, and no byte of OUT has a defined value any more (rule R420): each reads as a free value, which is the
model's choice (log 6, log 18). -/
def Obligations.BwInitStartsWriter : Prop :=
  ∀ s : State, s.running → ∃ t,
    exec .bwInit s = .next t ∧
      t =
        s.withBw
          { st := .writing, range := 254, value := 0, nbits := -8, run := 0, pos := 0
            lastBit := s.bw.lastBit, out := s.bw.out } ∧
      readElem Config.params t .bwRange = 254 ∧ readElem Config.params t .bwNbits = 0xFFFFFFF8 ∧
      readElem Config.params t .bwBitpos = 0 ∧
      ∀ k, readElem Config.params t (.out k) = (Config.freeValue .out t.tick k).setWidth 32 &&& 0xFF

/-- BW_PUTBIT when no Flush follows: the interval is narrowed and shifted (rule R400, rule R402, rule R421). -/
def Obligations.PutBitNarrowsInterval : Prop :=
  ∀ (bit : Bool) (p : Byte) (s : State), s.coding →
    let r := s.bw.range.toNat
    let shift := shiftOf r (bit, p)
    s.bw.nbits.toInt + shift ≤ 0 → ∃ t,
      exec (.bwPutbit bit p) s = .next t ∧
        t =
          s.withBw
            { s.bw with range := t.bw.range, value := t.bw.value, nbits := t.bw.nbits, lastBit := bit } ∧
        t.bw.range.toNat = nextRange r (bit, p) ∧
        t.bw.value.toNat = (s.bw.value.toNat + if bit then r * p.toNat / 256 + 1 else 0) * 2 ^ shift ∧
        t.bw.nbits.toInt = s.bw.nbits.toInt + shift

/-- BW_PUTBIT when a Flush follows (rule R404): `bits` is the value above the 8 + NBITS low bits. A byte 0xFF is
held back; any other byte is written behind the pending run, which becomes 0xFF bytes, or 0x00 bytes behind an
incremented byte when `bits` has a carry. -/
def Obligations.PutBitFlushesByte : Prop :=
  ∀ (bit : Bool) (p : Byte) (s : State), s.coding →
    let r := s.bw.range.toNat
    let shift := shiftOf r (bit, p)
    let pos := s.bw.pos.toNat
    let run := s.bw.run.toNat
    let value := (s.bw.value.toNat + if bit then r * p.toNat / 256 + 1 else 0) * 2 ^ shift
    let unit := 2 ^ (s.bw.nbits.toInt + shift + 8).toNat
    let bits := value / unit
    0 < s.bw.nbits.toInt + shift →
      (bits % 256 ≠ 255 → pos + run + 1 ≤ Config.params.outCap) → ∃ t,
        exec (.bwPutbit bit p) s = .next t ∧
          t = s.withBw t.bw ∧ t.bw.st = .writing ∧ t.bw.lastBit = bit ∧
          t.bw.range.toNat = nextRange r (bit, p) ∧ t.bw.value.toNat = value % unit ∧
          t.bw.nbits.toInt = s.bw.nbits.toInt + shift - 8 ∧
          if bits % 256 = 255 then
            t.bw.pos = s.bw.pos ∧ t.bw.run = s.bw.run + 1 ∧ t.bw.out = s.bw.out
          else
            t.bw.pos.toNat = pos + run + 1 ∧ t.bw.run = 0 ∧
              cellGet t.bw.out (pos + run) = some (BitVec.ofNat 8 bits) ∧
              (∀ k < run, cellGet t.bw.out (pos + k) = some (if bits < 256 then 0xFF else 0x00)) ∧
              (∀ k, k < pos → (bits < 256 ∨ k + 1 < pos) →
                cellGet t.bw.out k = cellGet s.bw.out k) ∧
              (256 ≤ bits → 0 < pos ∧
                ∀ b, cellGet s.bw.out (pos - 1) = some b → cellGet t.bw.out (pos - 1) = some (b + 1)) ∧
              ∀ k, pos + run < k → cellGet t.bw.out k = cellGet s.bw.out k

/-- BW_PUTBIT whose Flush must write a byte that does not fit into OUT faults with ALLOC_FAILURE (rule R406);
the latch is exact and all but the bit writer's registers and OUT is unchanged (rule R704). -/
def Obligations.PutBitWithoutRoomFaults : Prop :=
  ∀ (bit : Bool) (p : Byte) (s : State), s.coding →
    let r := s.bw.range.toNat
    let shift := shiftOf r (bit, p)
    let need := s.bw.pos.toNat + s.bw.run.toNat + 1
    let value := (s.bw.value.toNat + if bit then r * p.toNat / 256 + 1 else 0) * 2 ^ shift
    0 < s.bw.nbits.toInt + shift →
      value / 2 ^ (s.bw.nbits.toInt + shift + 8).toNat % 256 ≠ 255 → Config.params.outCap < need → ∃ t,
        exec (.bwPutbit bit p) s = .next t ∧
          t = (s.faultedBy (encode (.bwPutbit bit p)) .allocFailure need).withBw t.bw ∧
          t.bw.st = .writing

/-- BW_PUTBITU is BW_PUTBIT with probability 128 (rule R401, rule R422): where no fault is taken both leave the same
state, a fault is the same but for its command word, and a bit that fits is coded. -/
def Obligations.UniformBitIsHalf : Prop :=
  ∀ (bit : Bool) (s : State), s.running → s.bw.st = .writing → ∃ t u,
    exec (.bwPutbitu bit) s = .next t ∧ exec (.bwPutbit bit 128) s = .next u ∧
      (u.running → t = u ∧ t = s.withBw t.bw ∧ t.bw.lastBit = bit) ∧
      (u.latch.faulted = true → t.latch = { u.latch with cmd := encode (.bwPutbitu bit) }) ∧
      (s.bw.ok → s.roomFor [(bit, 128)] →
        t.running ∧ t.bw.range.toNat = nextRange s.bw.range.toNat (bit, 128))

/-- BW_PUTBITS codes bits NB − 1 down to 0 of VAL as uniform bits (rule R423): where no fault is taken it leaves what
NB BW_PUTBITU commands leave, a fault is theirs but for its command word, and bits that fit are coded. -/
def Obligations.PutBitsIsUniformBits : Prop :=
  ∀ (nb : BitVec 5) (val : BitVec 16) (s : State), putbitsCountOk nb = true → s.running →
    s.bw.st = .writing →
    let bits := (List.range nb.toNat).reverse.map fun k => val.getLsbD k
    ∃ t u,
      exec (.bwPutbits nb val) s = .next t ∧ execAll (bits.map fun b => .bwPutbitu b) s = some u ∧
        (u.running → t = u ∧ t = s.withBw t.bw ∧ t.bw.lastBit = val.getLsbD 0) ∧
        (u.latch.faulted = true → t.latch = { u.latch with cmd := encode (.bwPutbits nb val) }) ∧
        (s.bw.ok → s.roomFor (bits.map fun b => (b, 128)) → t.running)

/-- BW_PUTSBITS codes a presence bit and, for V ≠ 0, bits NB down to 0 of 2·|V| + bool(V < 0), all uniform
(rule R424): where no fault is taken it leaves what those BW_PUTBITU commands leave, a fault is theirs but for its
command word, and bits that fit are coded. -/
def Obligations.PutSignedBitsIsUniformBits : Prop :=
  ∀ (nb : BitVec 5) (val : BitVec 16) (s : State), putsbitsCountOk nb = true → s.running →
    s.bw.st = .writing →
    let v := val.toInt
    let m := 2 * v.natAbs + if v < 0 then 1 else 0
    let bits :=
      if v = 0 then [false] else true :: (List.range (nb.toNat + 1)).reverse.map fun k => m.testBit k
    ∃ t u,
      exec (.bwPutsbits nb val) s = .next t ∧ execAll (bits.map fun b => .bwPutbitu b) s = some u ∧
        (u.running → t = u ∧ t = s.withBw t.bw ∧ t.bw.lastBit = decide (v < 0)) ∧
        (u.latch.faulted = true → t.latch = { u.latch with cmd := encode (.bwPutsbits nb val) }) ∧
        (s.bw.ok → s.roomFor (bits.map fun b => (b, 128)) → t.running)

/-- BW_FINISH from WRITING (rule R425, rule R426). Once a bit has been coded (BW.RANGE ≤ 253) it writes three
bytes and the pending run, the last byte 0x00 or 0x01, leaves FINISHED, and a second BW_FINISH does nothing;
where they do not fit it faults with ALLOC_FAILURE. OUT_CAP is OPEN (rule R8), so both cases stand in the
conclusion. -/
def Obligations.BwFinishClosesStream : Prop :=
  ∀ s : State, s.coding → s.bw.range.toNat ≤ 253 → s.bw.run.toNat + 3 < 2 ^ 32 → ∃ t,
    exec .bwFinish s = .next t ∧
      let n := s.bw.pos.toNat + s.bw.run.toNat + 3
      if n ≤ Config.params.outCap then
        t = s.withBw t.bw ∧ t.bw.st = .finished ∧ t.bw.pos.toNat = n ∧ t.bw.run = 0 ∧
          t.bw.lastBit = false ∧
          (cellGet t.bw.out (n - 1) = some 0x00 ∨ cellGet t.bw.out (n - 1) = some 0x01) ∧
          exec .bwFinish t = .next t
      else
        ∃ info, Config.params.outCap < info ∧ info ≤ n ∧
          t = (s.faultedBy (encode .bwFinish) .allocFailure info).withBw t.bw ∧ t.bw.st = .writing

/-- BW_FINISH where no bit was coded (rule R425, rule R426): in FINISHED it has no effect, in EMPTY it faults with
WRONG_STATE, and right after BW_INIT it gives the stream 00 00, where that fits. -/
def Obligations.BwFinishWithNothingCoded : Prop :=
  ∀ s : State, s.running →
    (s.bw.st = .finished → exec .bwFinish s = .next s) ∧
      (s.bw.st = .empty → exec .bwFinish s = .next (s.faultedBy (encode .bwFinish) .wrongState 0)) ∧
      ∃ u t, exec .bwInit s = .next u ∧ exec .bwFinish u = .next t ∧
        if 2 ≤ Config.params.outCap then
          t = u.withBw t.bw ∧ t.bw.st = .finished ∧ t.bw.pos = 2 ∧ t.bw.stream = [0x00, 0x00]
        else t.latch = { faulted := true, code := .allocFailure, cmd := encode .bwFinish, info := 2 }

/-- The bit commands and the coding RC commands need WRITING: else WRONG_STATE with BW.STATE as detail, before
any other change (rule R408); RC_CODE_MB checks its macroblock first (rule R705). -/
def Obligations.BitCommandsNeedWriting : Prop :=
  ∀ (i : Instr) (s : State), s.running → s.bw.st ≠ .writing →
    (i = .rcCodeMb ∧ s.hasMacroblock ∨ (∃ bit p, i = .bwPutbit bit p) ∨ (∃ bit, i = .bwPutbitu bit) ∨
      (∃ nb val, i = .bwPutbits nb val) ∨ (∃ nb val, i = .bwPutsbits nb val) ∨
      ∃ slot ty ctx, i = .rcCodeBlock slot ty ctx) →
    exec i s = .next (s.faultedBy (encode i) .wrongState (if s.bw.st = .empty then 0 else 2))

/-- The writer is an exact arithmetic coder (rule R400 to rule R404): coding a list of decisions that fits, one
BW_PUTBIT each, turns the number in OUT, the pending run and BW.VALUE into the low end that exact arithmetic on
unbounded numbers gives, with BW.RANGE the range, and BW.BITPOS counts the bits shifted. -/
def Obligations.WriterComputesExactCode : Prop :=
  ∀ (ds : List CodedBit) (s : State), s.coding → s.bw.outOk → s.roomFor ds → ∃ t,
    execAll (ds.map fun d => .bwPutbit d.1 d.2) s = some t ∧
      t = s.withBw t.bw ∧ t.coding ∧ t.bw.outOk ∧
      t.bw.codeNumber = exactLow s.bw.codeNumber s.bw.range.toNat ds ∧
      t.bw.range.toNat = exactRange s.bw.range.toNat ds ∧
      bitpos t.bw = bitpos s.bw + BitVec.ofNat 32 (totalShift s.bw.range.toNat ds)

/-- Decoder symmetry (rule R428), for every OUT_CAP: whatever bits are coded from BW_INIT on with whatever
probabilities, then closed by BW_FINISH, the independent boolean decoder of 95_test_vectors.md §5 reads the same
bits back from the output stream. Fewer than 2^31 bits cannot make the 32-bit BW.RUN wrap. -/
def Obligations.DecoderReadsBackWhatWasCoded : Prop :=
  ∀ (P : Params) (tick : Nat) (ds : List CodedBit) (b b₁ b₂ : Bw), P.outCap ≤ 2 ^ 28 →
    ds.length < 2 ^ 31 → encodeBits P tick ds (initBw b) = .ok b₁ → finishBw P tick b₁ = .ok b₂ →
      BoolDecoder.decodeAll (ds.map Prod.snd) (BoolDecoder.init b₂.stream) = ds.map Prod.fst

/-- The bounds of rule R407 hold between commands, OUT is written up to BW.POS, within OUT_CAP, and
CARRY_INVARIANT is never raised (rule R405 asks for the fault; that the arithmetic never reaches it is shown
here): every step keeps that. -/
def Obligations.StepKeepsWriterOk : Prop :=
  ∀ s t : State, s.writerOk → step s = .next t → t.writerOk

/-- Written bytes settle (rule R810, rule R404): a command that does not fault and does not start a new stream
changes no byte before OUT[BW.POS − 1], and none at all in FINISHED. -/
def Obligations.WrittenBytesSettle : Prop :=
  ∀ (i : Instr) (s t : State), s.running → exec i s = .next t → t.running → i ≠ .bwInit →
    i ≠ .softReset →
      (s.bw.pos.toNat ≤ t.bw.pos.toNat ∧
        ∀ k, k + 1 < s.bw.pos.toNat → cellGet t.bw.out k = cellGet s.bw.out k) ∧
        (s.bw.st ≠ .writing → t.bw = s.bw)

/-! ## The macroblock iterator -/

/-- The current-macroblock precondition (rule R501). -/
def Obligations.NoMacroblockFaults : Prop :=
  ∀ (i : Instr) (s : State), s.running → ¬ s.hasMacroblock →
    i ∈ [Instr.miImport, .miExport, .miSaveBoundary, .miAdvance, .miNzToFlags, .miFlagsToNz, .miSkipNz,
      .rcCodeMb, .rcRecordMb] →
    exec i s = .next (s.faultedBy (encode i) .noMacroblock s.mi.countdown.toNat)

/-- MI_RESET (rule R520) with InitTop and InitLeft (rule R521, rule R522): the grid, the top caches at 127, the
left caches at 129 with the corner 127, the summaries of the grid and LEFT_NZ[8] at 0, BIT_COUNT cleared; what is
beyond the grid is as before. -/
def Obligations.MiResetStartsGrid : Prop :=
  ∀ s : State, s.running →
    let mbw := (s.cfg.width.toNat + 15) / 16
    let mbh := (s.cfg.height.toNat + 15) / 16
    s.cfg.width ≠ 0 → s.cfg.height ≠ 0 → mbw ≤ Config.params.maxMbW → mbh ≤ Config.params.maxMbH → ∃ t,
      exec .miReset s = .next t ∧
        t =
          s.withMi
            { s.mi with
              x := 0, y := 0, mbw := t.mi.mbw, mbh := t.mi.mbh, countdown := t.mi.countdown, valid := true
              bitCount := List.replicate 12 0, yTop := t.mi.yTop, uvTop := t.mi.uvTop, nz := t.mi.nz
              yLeft := t.mi.yLeft, uLeft := t.mi.uLeft, vLeft := t.mi.vLeft, leftNz := t.mi.leftNz } ∧
        t.mi.mbw.toNat = mbw ∧ t.mi.mbh.toNat = mbh ∧ t.mi.countdown.toNat = mbw * mbh ∧
        (∀ k, cellGet t.mi.yTop k = if k < 16 * mbw then some 127 else cellGet s.mi.yTop k) ∧
        (∀ k, cellGet t.mi.uvTop k = if k < 16 * mbw then some 127 else cellGet s.mi.uvTop k) ∧
        (∀ k, cellGet t.mi.nz k = if k < mbw then some 0 else cellGet s.mi.nz k) ∧
        cellGet t.mi.yLeft 0 = some 127 ∧ cellGet t.mi.uLeft 0 = some 127 ∧
        cellGet t.mi.vLeft 0 = some 127 ∧
        (∀ k < 16, cellGet t.mi.yLeft (k + 1) = some 129) ∧
        (∀ k < 8, cellGet t.mi.uLeft (k + 1) = some 129 ∧ cellGet t.mi.vLeft (k + 1) = some 129) ∧
        ∀ k, cellGet t.mi.leftNz k = if k = 8 then some 0 else cellGet s.mi.leftNz k

/-- Dimensions that are 0 or too large are refused by MI_RESET (rule R520), and dimensions that no longer match
the grid by MI_IMPORT and MI_EXPORT (rule R502), with INVALID_DIMENSIONS and nothing else changed. -/
def Obligations.BadDimensionsFault : Prop :=
  ∀ s : State, s.running →
    let mbw := (s.cfg.width.toNat + 15) / 16
    let mbh := (s.cfg.height.toNat + 15) / 16
    let info := s.cfg.width.toNat ||| (s.cfg.height.toNat <<< 16)
    (s.cfg.width = 0 ∨ s.cfg.height = 0 ∨ Config.params.maxMbW < mbw ∨ Config.params.maxMbH < mbh →
      exec .miReset s = .next (s.faultedBy (encode .miReset) .invalidDimensions info)) ∧
      (s.hasMacroblock → mbw ≠ s.mi.mbw.toNat ∨ mbh ≠ s.mi.mbh.toNat →
        exec .miImport s = .next (s.faultedBy (encode .miImport) .invalidDimensions info) ∧
          exec .miExport s = .next (s.faultedBy (encode .miExport) .invalidDimensions info))

/-- MI_IMPORT (rule R530, rule R531, rule R532): if every address it reads may be accessed, each plane's block in
YUV_IN gets the sample of the nearest row and column inside the image; else SRC_BUS_ERROR with the first address
that may not (rule R504). SRC_ADMIT is OPEN (rule R8), so both cases stand in the conclusion. -/
def Obligations.MiImportFillsBuffer : Prop :=
  ∀ s : State, s.running → s.hasMacroblock →
    let x := s.mi.x.toNat
    let y := s.mi.y.toNat
    let w := min (s.cfg.width.toNat - 16 * x) 16
    let h := min (s.cfg.height.toNat - 16 * y) 16
    let uvw := (w + 1) / 2
    let uvh := (h + 1) / 2
    let reads := (planes s (geometryOf s)).flatMap Plane.addrs
    let sample (base stride : Word) (row col : Nat) : Option Byte :=
      some (srcRead Config.params s (base + BitVec.ofNat 32 row * stride + BitVec.ofNat 32 col))
    (s.cfg.width.toNat + 15) / 16 = s.mi.mbw.toNat → (s.cfg.height.toNat + 15) / 16 = s.mi.mbh.toNat →
    16 * x < s.cfg.width.toNat → 16 * y < s.cfg.height.toNat → ∃ t,
      exec .miImport s = .next t ∧
        if ∀ a ∈ reads, Config.params.srcAdmit a = true then
          t = s.withMi { s.mi with yuvIn := t.mi.yuvIn } ∧
            (∀ i < 16, ∀ j < 16, cellGet t.mi.yuvIn (32 * i + j) =
              sample s.cfg.yBase s.cfg.yStride (16 * y + min i (h - 1)) (16 * x + min j (w - 1))) ∧
            (∀ i < 8, ∀ j < 8, cellGet t.mi.yuvIn (32 * i + 16 + j) =
              sample s.cfg.uBase s.cfg.uvStride (8 * y + min i (uvh - 1)) (8 * x + min j (uvw - 1))) ∧
            (∀ i < 8, ∀ j < 8, cellGet t.mi.yuvIn (32 * i + 24 + j) =
              sample s.cfg.vBase s.cfg.uvStride (8 * y + min i (uvh - 1)) (8 * x + min j (uvw - 1))) ∧
            ∀ k, (16 ≤ k / 32 ∨ 8 ≤ k / 32 ∧ 16 ≤ k % 32) → cellGet t.mi.yuvIn k = cellGet s.mi.yuvIn k
        else
          ∃ pre a post, reads = pre ++ a :: post ∧ (∀ b ∈ pre, Config.params.srcAdmit b = true) ∧
            Config.params.srcAdmit a = false ∧
            t = s.faultedBy (encode .miImport) .srcBusError a.toNat

/-- MI_EXPORT (rule R540): if every address it writes may be accessed, each listed write that no later one
overwrites is in the source memory, and every other byte of it is as before; else SRC_BUS_ERROR with the first
address that may not (rule R504). The list has the sample YUV_OUT[i][c0 + j] of each plane at the address of row
i and column j, for the rows and columns inside the image. SRC_ADMIT is OPEN (rule R8). -/
def Obligations.MiExportWritesPlanes : Prop :=
  ∀ s : State, s.running → s.hasMacroblock →
    let x := s.mi.x.toNat
    let y := s.mi.y.toNat
    let w := min (s.cfg.width.toNat - 16 * x) 16
    let h := min (s.cfg.height.toNat - 16 * y) 16
    let writes := (planes s (geometryOf s)).flatMap (exportWrites Config.params s)
    let plane (base stride : Word) (row col c0 rows cols : Nat) : List (Word × Byte) :=
      (List.range rows).flatMap fun i => (List.range cols).map fun j =>
        (base + BitVec.ofNat 32 (row + i) * stride + BitVec.ofNat 32 (col + j),
          yuvOutAt Config.params s i (c0 + j))
    (s.cfg.width.toNat + 15) / 16 = s.mi.mbw.toNat → (s.cfg.height.toNat + 15) / 16 = s.mi.mbh.toNat →
      writes =
          plane s.cfg.yBase s.cfg.yStride (16 * y) (16 * x) 0 h w ++
            plane s.cfg.uBase s.cfg.uvStride (8 * y) (8 * x) 16 ((h + 1) / 2) ((w + 1) / 2) ++
            plane s.cfg.vBase s.cfg.uvStride (8 * y) (8 * x) 24 ((h + 1) / 2) ((w + 1) / 2) ∧
        ∃ t, exec .miExport s = .next t ∧
          if ∀ c ∈ writes, Config.params.srcAdmit c.1 = true then
            t = s.withSrc t.src ∧
              (∀ pre c post, writes = pre ++ c :: post → (∀ d ∈ post, d.1 ≠ c.1) →
                cellGet t.src c.1.toNat = some c.2) ∧
              ∀ a, (∀ c ∈ writes, c.1.toNat ≠ a) → cellGet t.src a = cellGet s.src a
          else
            ∃ pre c post, writes = pre ++ c :: post ∧ (∀ d ∈ pre, Config.params.srcAdmit d.1 = true) ∧
              Config.params.srcAdmit c.1 = false ∧
              t = s.faultedBy (encode .miExport) .srcBusError c.1.toNat

/-- MI_SAVE_BOUNDARY (rule R545): the right column goes to the left caches, with the old top samples as corners,
if a macroblock to the right exists, and the bottom row to the top caches if a row below exists. -/
def Obligations.MiSaveBoundaryFillsCaches : Prop :=
  ∀ s : State, s.running → s.hasMacroblock → ∃ t,
    let x := s.mi.x.toNat
    let recon (r c : Nat) : Option Byte := some (yuvOutAt Config.params s r c)
    let yOld (k : Nat) : Option Byte := some (readCell Config.params s.tick .yTop s.mi.yTop k)
    let uvOld (k : Nat) : Option Byte := some (readCell Config.params s.tick .uvTop s.mi.uvTop k)
    exec .miSaveBoundary s = .next t ∧
      t =
        s.withMi
          { s.mi with
            yLeft := t.mi.yLeft, uLeft := t.mi.uLeft, vLeft := t.mi.vLeft, yTop := t.mi.yTop
            uvTop := t.mi.uvTop } ∧
      (if x + 1 < s.mi.mbw.toNat then
        cellGet t.mi.yLeft 0 = yOld (16 * x + 15) ∧ cellGet t.mi.uLeft 0 = uvOld (16 * x + 7) ∧
          cellGet t.mi.vLeft 0 = uvOld (16 * x + 15) ∧
          (∀ i < 16, cellGet t.mi.yLeft (i + 1) = recon i 15) ∧
          (∀ i < 8, cellGet t.mi.uLeft (i + 1) = recon i 23 ∧ cellGet t.mi.vLeft (i + 1) = recon i 31)
      else t.mi.yLeft = s.mi.yLeft ∧ t.mi.uLeft = s.mi.uLeft ∧ t.mi.vLeft = s.mi.vLeft) ∧
      if s.mi.y.toNat + 1 < s.mi.mbh.toNat then
        (∀ j < 16, cellGet t.mi.yTop (16 * x + j) = recon 15 j) ∧
          (∀ j < 8, cellGet t.mi.uvTop (16 * x + j) = recon 7 (16 + j) ∧
            cellGet t.mi.uvTop (16 * x + 8 + j) = recon 7 (24 + j)) ∧
          ∀ k, k < 16 * x ∨ 16 * x + 16 ≤ k →
            cellGet t.mi.yTop k = cellGet s.mi.yTop k ∧ cellGet t.mi.uvTop k = cellGet s.mi.uvTop k
      else t.mi.yTop = s.mi.yTop ∧ t.mi.uvTop = s.mi.uvTop

/-- MI_ADVANCE (rule R550): one column on, or to the start of the next row with the left caches at 129 and
LEFT_NZ[8] at 0 (InitLeft, rule R522); MI_DONE is 1 exactly when the countdown reaches 0. -/
def Obligations.MiAdvanceMovesOn : Prop :=
  ∀ s : State, s.running → s.hasMacroblock → ∃ t,
    exec .miAdvance s = .next t ∧
      miDone t.mi = decide (s.mi.countdown = 1) ∧
      if s.mi.x + 1 ≠ s.mi.mbw then
        t = s.withMi { s.mi with x := s.mi.x + 1, countdown := s.mi.countdown - 1 }
      else
        t =
            s.withMi
              { s.mi with
                x := 0, y := s.mi.y + 1, countdown := s.mi.countdown - 1, yLeft := t.mi.yLeft
                uLeft := t.mi.uLeft, vLeft := t.mi.vLeft, leftNz := t.mi.leftNz } ∧
          (∀ k < 17, cellGet t.mi.yLeft k =
            some (if k = 0 ∧ s.mi.y + 1 = 0 then 127 else 129)) ∧
          (∀ k < 9, cellGet t.mi.uLeft k = some (if k = 0 ∧ s.mi.y + 1 = 0 then 127 else 129) ∧
            cellGet t.mi.vLeft k = some (if k = 0 ∧ s.mi.y + 1 = 0 then 127 else 129)) ∧
          ∀ k, cellGet t.mi.leftNz k = if k = 8 then some 0 else cellGet s.mi.leftNz k

/-- Traversal (rule R551, which the spec marks as derived): after a successful MI_RESET exactly MBW·MBH advances succeed,
the k-th one, but for the last, at column k mod MBW and row k div MBW with MI_DONE = 0, the last one at (0, MBH) with
MI_DONE = 1, and the next one faults with NO_MACROBLOCK. -/
def Obligations.AdvanceVisitsRasterOrder : Prop :=
  ∀ s t : State, s.running → exec .miReset s = .next t → t.running →
    let mbw := t.mi.mbw.toNat
    let mbh := t.mi.mbh.toNat
    ∀ k, k ≤ mbw * mbh → ∃ u,
      execAll (List.replicate k .miAdvance) t = some u ∧ u.running ∧
        if k < mbw * mbh then
          u.mi.x.toNat = k % mbw ∧ u.mi.y.toNat = k / mbw ∧ miDone u.mi = false
        else
          u.mi.x = 0 ∧ u.mi.y = t.mi.mbh ∧ u.mi.countdown = 0 ∧ miDone u.mi = true ∧
            exec .miAdvance u = .next (u.faultedBy (encode .miAdvance) .noMacroblock 0)

/-- The position, the grid and the countdown agree (rule R125, rule R126, rule R551): every step keeps that. -/
def Obligations.StepKeepsIteratorOk : Prop :=
  ∀ s t : State, s.iteratorOk → step s = .next t → t.iteratorOk

/-- MI_NZ_TO_FLAGS (rule R561): bits 12 to 15, 18, 19, 22, 23 and 24 of NZ[MI.X] to TOP_NZ, and bits 3, 7, 11, 15,
17, 19, 21 and 23 of NZ[MI.X − 1], which is 0 in column 0, to LEFT_NZ[0..7]; LEFT_NZ[8] is kept. -/
def Obligations.MiNzToFlagsUnpacks : Prop :=
  ∀ s : State, s.running → s.hasMacroblock → ∃ t,
    let above := nzAt Config.params s s.mi.x.toNat
    let left := if s.mi.x = 0 then 0 else nzAt Config.params s (s.mi.x.toNat - 1)
    exec .miNzToFlags s = .next t ∧
      t = s.withMi { s.mi with topNz := t.mi.topNz, leftNz := t.mi.leftNz } ∧
      (∀ j < 9, cellGet t.mi.topNz j =
        some (BitVec.ofBool (above.getLsbD ([12, 13, 14, 15, 18, 19, 22, 23, 24].getD j 0)))) ∧
      (∀ j < 8, cellGet t.mi.leftNz j =
        some (BitVec.ofBool (left.getLsbD ([3, 7, 11, 15, 17, 19, 21, 23].getD j 0)))) ∧
      ∀ j, 8 ≤ j → cellGet t.mi.leftNz j = cellGet s.mi.leftNz j ∧
        (j ≠ 8 → cellGet t.mi.topNz j = cellGet s.mi.topNz j)

/-- MI_FLAGS_TO_NZ (rule R562): NZ[MI.X] gets the word of the flags, 0 in every bit no flag goes to; the flags and
every other summary are unchanged. -/
def Obligations.MiFlagsToNzPacks : Prop :=
  ∀ s : State, s.running → s.hasMacroblock → ∃ t,
    let top (j : Nat) : Bool := (readCell Config.params s.tick .topNz s.mi.topNz j).getLsbD 0
    let left (j : Nat) : Bool := (readCell Config.params s.tick .leftNz s.mi.leftNz j).getLsbD 0
    exec .miFlagsToNz s = .next t ∧
      t = s.withMi { s.mi with nz := t.mi.nz } ∧
      (∃ w : BitVec 32, cellGet t.mi.nz s.mi.x.toNat = some w ∧
        ∀ b < 32, w.getLsbD b = nzBit top left b) ∧
      ∀ x, x ≠ s.mi.x.toNat → cellGet t.mi.nz x = cellGet s.mi.nz x

/-- MI_SKIP_NZ (rule R563): an intra-16 macroblock clears NZ[MI.X] and LEFT_NZ[8], an intra-4 one keeps bit 24 of
NZ[MI.X] only. -/
def Obligations.MiSkipNzUpdatesSummary : Prop :=
  ∀ s : State, s.running → s.hasMacroblock →
    exec .miSkipNz s =
      .next
        (if s.cfg.mbType = 1 then
          s.withMi
            { s.mi with nz := cellSet s.mi.nz s.mi.x.toNat 0, leftNz := cellSet s.mi.leftNz 8 0 }
        else
          s.withMi
            { s.mi with
              nz := cellSet s.mi.nz s.mi.x.toNat
                (nzAt Config.params s s.mi.x.toNat &&& (1#32 <<< 24)) })

/-! ## The residual coder -/

/-- The walk over a block makes the decisions of the token table (rule R604 to rule R606, rule R608), on every
block that may be coded. -/
def Obligations.WalkFollowsTokenTable : Prop :=
  ∀ (t ctx : Nat) (coefs : List Int), t < 4 → coefs.length = 16 → blockLegal t coefs →
    walk t ctx coefs = tokens t ctx coefs

/-- The decisions determine the block: two blocks that may be coded as one type, with the same decisions from one
context, have the same coefficients (rule R600, rule R607: no value loses bits). -/
def Obligations.WalkDeterminesBlock : Prop :=
  ∀ (t ctx : Nat) (a b : List Int), t < 4 → a.length = 16 → b.length = 16 → blockLegal t a →
    blockLegal t b → walk t ctx a = walk t ctx b → a = b

/-- The extra bits of each magnitude (rule R612, which the spec derives from rule R604 and rule R605): their count by
class. -/
def Obligations.ExtraBitCounts : Prop :=
  ∀ (cell : Nat → Nat) (v : Nat), 1 ≤ v → v ≤ 2114 →
    ((magnitudeDecisions cell v).filter fun d => match d with
      | .fixed _ _ => true
      | .cell _ _ => false
      | .sign _ => false).length =
      if v ≤ 4 then 0 else if v ≤ 6 then 1 else if v ≤ 10 then 2 else if v ≤ 18 then 3
      else if v ≤ 34 then 4 else if v ≤ 66 then 5 else 11

/-- CheckBlock (rule R607): the first offending position decides the fault, FIRST_COEFF_NONZERO before
COEFF_RANGE at position 0; nothing is coded or recorded. RC_CODE_BLOCK and RC_RECORD_BLOCK check their own block;
RC_CODE_MB and RC_RECORD_MB check the blocks of the macroblock, and the first offending slot in the order of rule R620
decides, which is the order of the slots (rule R622, rule R623, rule R705). -/
def Obligations.IllegalBlocksFault : Prop :=
  ∀ (i : Instr) (s : State) (code : ErrCode) (info : Nat), s.running →
    (∀ (slot : BitVec 5) (ty ctx : BitVec 2),
      i = .rcCodeBlock slot ty ctx ∧ s.bw.st = .writing ∨ i = .rcRecordBlock slot ty ctx →
        s.blockFault slot.toNat ty.toNat code info →
          exec i s = .next (s.faultedBy (encode i) code info)) ∧
      (i = .rcCodeMb ∧ s.bw.st = .writing ∨ i = .rcRecordMb → s.hasMacroblock →
        let first := if s.cfg.mbType = 1 then 0 else 1
        let type (k : Nat) : Nat :=
          if k = 0 then 1 else if k ≤ 16 then (if s.cfg.mbType = 1 then 0 else 3) else 2
        ∀ slot < 25, first ≤ slot →
          (∀ k < slot, first ≤ k → blockLegal (type k) (blockCoefs Config.params s k)) →
            s.blockFault slot (type slot) code info →
              exec i s = .next (s.faultedBy (encode i) code info))

/-- RC_CODE_BLOCK (rule R610): on a block that may be coded it leaves what BW_PUTBIT leaves for each decision of the
walk in turn, and RC.NZ; a fault is theirs but for its command word and leaves RC.NZ alone; a block that fits is
coded. -/
def Obligations.RcCodeBlockCodesWalk : Prop :=
  ∀ (slot : BitVec 5) (ty ctx : BitVec 2) (s : State), s.running → s.bw.st = .writing →
    let coefs := blockCoefs Config.params s slot.toNat
    let bits := (walk ty.toNat ctx.toNat coefs).map (codedBit s.rc)
    blockLegal ty.toNat coefs → ∃ t u,
      exec (.rcCodeBlock slot ty ctx) s = .next t ∧
        execAll (bits.map fun d => .bwPutbit d.1 d.2) s = some u ∧
        (u.running →
          t = u.withRc { s.rc with nz := coefs.any fun c => c ≠ 0 } ∧ u = s.withBw u.bw) ∧
        (u.latch.faulted = true →
          t.latch = { u.latch with cmd := encode (.rcCodeBlock slot ty ctx) } ∧ t.rc = s.rc) ∧
        (s.bw.ok → s.roomFor bits → t.running)

/-- RC_RECORD_BLOCK (rule R611): on a block that may be recorded, each cell of STATS counts the decisions the walk
makes at it, in order, and RC.NZ is set; nothing else changes. -/
def Obligations.RcRecordBlockCountsWalk : Prop :=
  ∀ (slot : BitVec 5) (ty ctx : BitVec 2) (s : State), s.running →
    let coefs := blockCoefs Config.params s slot.toNat
    let ds := walk ty.toNat ctx.toNat coefs
    blockLegal ty.toNat coefs → s.rc.stats.length = 1056 → ∃ t,
      exec (.rcRecordBlock slot ty ctx) s = .next t ∧
        t = s.withRc { s.rc with stats := t.rc.stats, nz := coefs.any fun c => c ≠ 0 } ∧
        t.rc.stats.length = 1056 ∧
        ∀ i < 1056, statsAt t.rc i =
          (ds.filterMap (Decision.bitAt i)).foldl (recordCount Config.params) (statsAt s.rc i)

/-- Record (rule R630) on the two counts of a cell, with ones ≤ total: below a total of 0xFFFE both count on; from
there they are halved first, and the pair 0xFFFF, 0xFFFF goes to 0. -/
def Obligations.RecordHalvesFullCounters : Prop :=
  ∀ (p : BitVec 32) (bit : Bool),
    let total := p.toNat / 65536
    let ones := p.toNat % 65536
    ones ≤ total →
      let kept : Nat × Nat :=
        if total < 0xFFFE then (total, ones)
        else if ones = 0xFFFF then (0, 0)
        else (total / 2, (ones + 1) / 2)
      (recordCount Config.params p bit).toNat / 65536 = kept.1 + 1 ∧
        (recordCount Config.params p bit).toNat % 65536 = kept.2 + bit.toNat

/-- RC_CODE_MB (rule R620 to rule R622, rule R624): on a macroblock whose blocks may be coded and fit, the bit
writer does what the RC_CODE_BLOCK commands of its blocks do, each with the context its neighbours give; the bit
positions before, between and after luma and chroma give the counts; the flags and the summary are updated, and
nothing else changes. -/
def Obligations.RcCodeMbCodesItsBlocks : Prop :=
  ∀ s : State, s.coding → s.hasMacroblock → s.mbLegal →
    s.roomFor (s.usesBits (s.lumaUses ++ s.chromaUses)) → ∃ t u v,
      exec .rcCodeMb s = .next t ∧
        execAll (s.lumaUses.map (BlockUse.command .rcCodeBlock)) s = some u ∧
        execAll (s.chromaUses.map (BlockUse.command .rcCodeBlock)) u = some v ∧ v.running ∧
        let luma := bitpos u.bw - bitpos s.bw
        let uv := bitpos v.bw - bitpos u.bw
        t = (s.withBw v.bw).withMi t.mi ∧
          t.mi =
            { s.mi with
              lumaBits := luma, uvBits := uv, bitCount := t.mi.bitCount, topNz := t.mi.topNz
              leftNz := t.mi.leftNz, nz := t.mi.nz } ∧
          luma + uv = bitpos t.bw - bitpos s.bw ∧
          (s.mi.bitCount.length = 12 → ∀ seg < 4, ∀ k < 3,
            t.mi.bitCount.getD (3 * seg + k) 0 =
              s.mi.bitCount.getD (3 * seg + k) 0 +
                if seg = s.cfg.mbSegment.toNat ∧ k = 2 then uv.setWidth 64
                else if seg = s.cfg.mbSegment.toNat ∧ k = s.cfg.mbType.toNat then luma.setWidth 64
                else 0) ∧
          s.mbFlagsDone t.mi

/-- RC_RECORD_MB (rule R623): on a macroblock whose blocks may be recorded, STATS gets what the RC_RECORD_BLOCK
commands of its blocks would count, and the flags and the summary are updated exactly as RC_CODE_MB updates them;
nothing else changes. -/
def Obligations.RcRecordMbCountsItsBlocks : Prop :=
  ∀ s : State, s.running → s.hasMacroblock → s.mbLegal → ∃ t u,
    exec .rcRecordMb s = .next t ∧
      execAll ((s.lumaUses ++ s.chromaUses).map (BlockUse.command .rcRecordBlock)) s = some u ∧ u.running ∧
      t = (s.withRc { s.rc with stats := u.rc.stats }).withMi t.mi ∧
      t.mi = { s.mi with topNz := t.mi.topNz, leftNz := t.mi.leftNz, nz := t.mi.nz } ∧
      s.mbFlagsDone t.mi

/-- RC_RESET_STATS clears every counter and RC_LOAD_DEFAULT loads every default probability; neither changes
anything else (rule R631, rule R632). -/
def Obligations.StatsResetAndDefaultLoad : Prop :=
  ∀ s : State, s.running →
    (∃ t, exec .rcResetStats s = .next t ∧ t = s.withRc { s.rc with stats := t.rc.stats } ∧
      t.rc.stats.length = 1056 ∧ ∀ i < 1056, statsAt t.rc i = 0) ∧
      ∃ t, exec .rcLoadDefault s = .next t ∧ t = s.withRc { s.rc with prob := t.rc.prob } ∧
        t.rc.prob.length = 1056 ∧ ∀ i < 1056, probAt t.rc i = Config.defaultCoeffProbs i

/-- RC_FINALIZE (rule R640, rule R641): a cell takes the fitted probability exactly when that saves more than 2048
and the update flag's extra cost; RC.SIZE is the total cost of the flags and of 8 bits for each fitted cell, and
RC.DIRTY says whether some fitted probability differs from its default. STATS as rule R630 keeps it. -/
def Obligations.RcFinalizeFitsCells : Prop :=
  ∀ s : State, s.running → s.statsOk →
    let total (i : Nat) : Nat := (statsAt s.rc i).toNat / 65536
    let ones (i : Nat) : Nat := (statsAt s.rc i).toNat % 65536
    let fitted (i : Nat) : Nat := if ones i = 0 then 255 else 255 - ones i * 255 / total i
    let cost (i : Nat) (p : Byte) : Int :=
      ones i * Config.bitCost true p + ((total i : Int) - ones i) * Config.bitCost false p
    let flag (i : Nat) (use : Bool) : Nat := Config.bitCost use (Config.coeffUpdateProbs i)
    let use (i : Nat) : Bool :=
      decide (2048 + ((flag i true : Int) - flag i false) <
        cost i (Config.defaultCoeffProbs i) - cost i (BitVec.ofNat 8 (fitted i)))
    ∃ t, exec .rcFinalize s = .next t ∧
      t = s.withRc { s.rc with prob := t.rc.prob, size := t.rc.size, dirty := t.rc.dirty } ∧
      t.rc.prob.length = 1056 ∧
      (∀ i < 1056, (probAt t.rc i).toNat =
        if use i then fitted i else (Config.defaultCoeffProbs i).toNat) ∧
      t.rc.size = BitVec.ofNat 32
        ((List.range 1056).map fun i => flag i (use i) + if use i then 2048 else 0).sum ∧
      (t.rc.dirty = true ↔
        ∃ i < 1056, use i = true ∧ fitted i ≠ (Config.defaultCoeffProbs i).toNat)

/-- The ones count of no cell exceeds its total count (rule R630): every step keeps that. -/
def Obligations.StepKeepsStatsOk : Prop :=
  ∀ s t : State, s.statsOk → step s = .next t → t.statsOk

/-! ## Storage and the host port -/

/-- Every array keeps its canonical form and its size, and so does the source memory (rule R9, rule R123, rule R127
to rule R135, rule R212), beside the iterator's invariant: every step keeps that. -/
def Obligations.StepKeepsStorageOk : Prop :=
  ∀ s t : State, s.iteratorOk → s.storageOk → step s = .next t → t.iteratorOk ∧ t.storageOk

/-- The invariants hold at reset (rule R142). -/
def Obligations.ResetMeetsInvariants : Prop :=
  State.reset.latchOk ∧ State.reset.writerOk ∧ State.reset.iteratorOk ∧ State.reset.statsOk ∧
    State.reset.storageOk

/-- STATUS, bit by bit (rule R106); ERR_CODE is the number rule R700 gives the fault. -/
def Obligations.StatusFields : Prop :=
  ∀ s : State,
    let w := readElem Config.params s .status
    w.getLsbD 0 = s.latch.faulted ∧
      (w.extractLsb' 4 4).toNat =
        [ErrCode.none, .allocFailure, .invalidDimensions, .illegalCommand, .wrongState, .noMacroblock,
          .coeffRange, .firstCoeffNonzero, .srcBusError, .carryInvariant].idxOf s.latch.code ∧
      (w.extractLsb' 8 2).toNat = [BwState.empty, .writing, .finished].idxOf s.bw.st ∧
      w.getLsbD 12 = s.mi.valid ∧ w.getLsbD 13 = (s.mi.valid && decide (s.mi.countdown = 0)) ∧
      w.getLsbD 16 = s.bw.lastBit ∧ w.getLsbD 17 = s.rc.nz ∧ w.getLsbD 18 = s.rc.dirty ∧
      w &&& 0xFFF8CC0E = 0

/-- The host map (rule R201, rule R205, rule R206): an access reaches an element exactly when its address and width
are the element's own in the register map or an array window. -/
def Obligations.HostMapIsTheTable : Prop :=
  ∀ (a : Word) (bytes : Nat) (e : HostElem),
    accessed Config.params a bytes = some e ↔ hostMaps a.toNat bytes e

/-- A host read answers the element at its address and changes nothing else: each register of rule R104 and each array
element of rule R206 and rule R113 reads as the value the state holds for it (STATUS: StatusFields); where no element is
mapped, or the width is not its own, the read gets the error response (rule R202, rule R205, rule R209). The queue, the
response and the tick are the model's own (log 1), and so are the error response as a next state (log 4), the free value
of what nothing has written (log 6, log 18) and narrow data zero-extended (log 12). -/
def Obligations.HostReadHasNoSideEffect : Prop :=
  ∀ (s : State) (q : List HostEvent) (a : Word) (bytes : Nat), s.hostQueue = .read a bytes :: q →
    ∃ t, step s = .next t ∧ t = (s.accept q).withResp t.hostResp ∧
      (∀ r ∈ s.registerValues, a.toNat = r.1 → bytes = 4 → t.hostResp = .data (BitVec.ofInt 32 r.2)) ∧
      (∀ v ∈ (s.accept q).arrayValues, bytes = v.bytes → ∀ k < v.count, a.toNat = v.base + v.bytes * k →
        t.hostResp = .data (BitVec.ofNat 32 (v.value k))) ∧
      (∀ e, hostMaps a.toNat bytes e →
        t.hostResp = .data (readElem Config.params (s.accept q) e)) ∧
      ((∀ e, ¬ hostMaps a.toNat bytes e) → t.hostResp = .refused)

/-- A host write to a writable element stores its field, so that the next read of it gives the field's bits back
and every other element reads as before; a write to any other address, at another width, or to a read-only element
gets the error response and changes nothing (rule R104, rule R202, rule R205, rule R209). A full-width write to CMD
is a command. The queue, the response and the tick are the model's own (log 1), the error response is a next state
(log 4), and narrow data stand in the low bits (log 12). -/
def Obligations.HostWriteStoresItsElement : Prop :=
  ∀ (s : State) (q : List HostEvent) (a : Word) (bytes : Nat) (v : Word),
    s.hostQueue = .write a bytes v :: q → (a = 0 → bytes ≠ 4) → s.rc.prob.length = 1056 →
      ∃ t, step s = .next t ∧
        (∀ e m, hostMaps a.toNat bytes e → e.writable = some m →
          t.hostResp = .done ∧ readElem Config.params t e = v &&& m ∧
            (∀ e', e' ≠ e → readElem Config.params t e' = readElem Config.params (s.accept q) e') ∧
            t = ((((s.accept q).withCfg t.cfg).withMi { s.mi with yuvOut := t.mi.yuvOut }).withRc
              { s.rc with prob := t.rc.prob, coef := t.rc.coef })) ∧
          ((∀ e, hostMaps a.toNat bytes e → e.writable = none) → t = (s.accept q).withResp .refused)

/-- The source memory is plain memory for the host (rule R212): a byte the host writes reads back, and every other
byte is as before. The host's own accesses as events of the queue (log 13), the zero-extended answer (log 12), and the
queue, the response and the tick (log 1) are the model's own. -/
def Obligations.SourceByteReadsBack : Prop :=
  ∀ (s : State) (q : List HostEvent) (a : Word) (v : Byte),
    s.hostQueue = .srcWrite a v :: .srcRead a :: q → ∃ t u,
      step s = .next t ∧ step t = .next u ∧
        t = (s.accept (.srcRead a :: q)).withSrc t.src ∧
        (∀ b, b ≠ a.toNat → cellGet t.src b = cellGet s.src b) ∧
        u = (t.accept q).withResp (.data (v.setWidth 32))
end

