-- ==== Sys2Proof/Laws/Cells.lean ====
section
/-! SUPPORT. Lemmas about sparse arrays: read after write, and that every operation keeps the canonical form. -/
namespace Sys2Proof.Machine

variable {α : Type}

@[simp] theorem cellGet_nil (k : Nat) : cellGet ([] : Cells α) k = none := rfl

@[simp] theorem cellGet_cellSet_same (m : Cells α) (k : Nat) (v : α) : cellGet (cellSet m k v) k = some v := by
  induction m with
  | nil => simp [cellSet, cellGet]
  | cons c t ih =>
    obtain ⟨a, x⟩ := c
    simp only [cellSet]
    split_ifs with h1 h2
    · simp [cellGet]
    · simp [cellGet]
    · simp [cellGet, ih, Ne.symm h2]

theorem cellGet_cellSet_other (m : Cells α) {k j : Nat} (v : α) (h : j ≠ k) :
    cellGet (cellSet m k v) j = cellGet m j := by
  induction m with
  | nil => simp [cellSet, cellGet, Ne.symm h]
  | cons c t ih =>
    obtain ⟨a, x⟩ := c
    simp only [cellSet]
    split_ifs with h1 h2
    · simp [cellGet, Ne.symm h]
    · subst h2
      simp [cellGet, Ne.symm h]
    · simp [cellGet, ih]

/-- Read after write. -/
theorem cellGet_cellSet (m : Cells α) (k j : Nat) (v : α) :
    cellGet (cellSet m k v) j = if j = k then some v else cellGet m j := by
  split_ifs with h
  · subst h
    simp
  · exact cellGet_cellSet_other m v h

theorem cellGet_cellErase (m : Cells α) (k j : Nat) :
    cellGet (cellErase m k) j = if j = k then none else cellGet m j := by
  induction m with
  | nil => simp [cellErase, cellGet]
  | cons c t ih =>
    obtain ⟨a, x⟩ := c
    simp only [cellErase, List.filter_cons] at ih ⊢
    by_cases hk : a = k
    · subst hk
      simp only [bne_self_eq_false, Bool.false_eq_true, if_false]
      rw [ih]
      split_ifs with hj
      · rfl
      · simp [cellGet, Ne.symm hj]
    · simp only [bne_iff_ne, ne_eq, hk, not_false_eq_true, if_true, cellGet]
      rw [ih]
      split_ifs with h1 h2 <;> simp_all

/-- Reading after `cellFill`: the filled elements hold `v`, the others are as before. -/
theorem cellGet_cellFill (m : Cells α) (k : Nat) (v : α) (n j : Nat) :
    cellGet (cellFill m k v n) j = if k ≤ j ∧ j < k + n then some v else cellGet m j := by
  induction n generalizing m k with
  | zero => simp [cellFill]
  | succ n ih =>
    rw [cellFill, ih, cellGet_cellSet]
    split_ifs <;> first | rfl | omega

theorem cellSetAll_append (m : Cells α) (l₁ l₂ : List (Nat × α)) :
    cellSetAll m (l₁ ++ l₂) = cellSetAll (cellSetAll m l₁) l₂ := by
  induction l₁ generalizing m with
  | nil => rfl
  | cons c t ih => exact ih _

/-- An element none of the writes names is as before. -/
theorem cellGet_cellSetAll_other (m : Cells α) (l : List (Nat × α)) (j : Nat) (h : ∀ c ∈ l, c.1 ≠ j) :
    cellGet (cellSetAll m l) j = cellGet m j := by
  induction l generalizing m with
  | nil => rfl
  | cons c t ih =>
    obtain ⟨a, x⟩ := c
    rw [cellSetAll, ih _ fun c hc => h c (List.mem_cons_of_mem _ hc), cellGet_cellSet_other]
    exact (h (a, x) (List.mem_cons_self)).symm

/-- After writes that all agree with `f`, an element they name holds what `f` says. -/
theorem cellGet_cellSetAll_of_forall (m : Cells α) (l : List (Nat × α)) (f : Nat → α) (j : Nat)
    (hf : ∀ c ∈ l, c.2 = f c.1) (hj : ∃ c ∈ l, c.1 = j) :
    cellGet (cellSetAll m l) j = some (f j) := by
  induction l generalizing m with
  | nil => simp at hj
  | cons c t ih =>
    obtain ⟨a, x⟩ := c
    rw [cellSetAll]
    by_cases ht : ∃ c ∈ t, c.1 = j
    · exact ih _ (fun c hc => hf c (List.mem_cons_of_mem _ hc)) ht
    · rw [cellGet_cellSetAll_other]
      · have ha : a = j := by
          obtain ⟨c, hc, hcj⟩ := hj
          rcases List.mem_cons.mp hc with rfl | hc
          · exact hcj
          · exact absurd ⟨c, hc, hcj⟩ ht
        subst ha
        rw [cellGet_cellSet_same]
        exact congrArg some (hf (a, x) List.mem_cons_self)
      · intro c hc hcj
        exact ht ⟨c, hc, hcj⟩

/-! ## The canonical form -/

theorem cellsRiseFrom_mono {lo lo' : Nat} {m : Cells α} (h : lo' ≤ lo) (hm : cellsRiseFrom lo m = true) :
    cellsRiseFrom lo' m = true := by
  cases m with
  | nil => rfl
  | cons c t =>
    simp only [cellsRiseFrom, Bool.and_eq_true, decide_eq_true_eq] at hm ⊢
    exact ⟨h.trans hm.1, hm.2⟩

theorem cellsRiseFrom_cellSet {lo : Nat} (m : Cells α) (k : Nat) (v : α) (hk : lo ≤ k)
    (hm : cellsRiseFrom lo m = true) : cellsRiseFrom lo (cellSet m k v) = true := by
  induction m generalizing lo with
  | nil => simp [cellSet, cellsRiseFrom, hk]
  | cons c t ih =>
    obtain ⟨a, x⟩ := c
    simp only [cellsRiseFrom, Bool.and_eq_true, decide_eq_true_eq] at hm
    simp only [cellSet]
    split_ifs with h1 h2
    · simp only [cellsRiseFrom, Bool.and_eq_true, decide_eq_true_eq]
      exact ⟨hk, by omega, hm.2⟩
    · subst h2
      simp only [cellsRiseFrom, Bool.and_eq_true, decide_eq_true_eq]
      exact ⟨hk, hm.2⟩
    · simp only [cellsRiseFrom, Bool.and_eq_true, decide_eq_true_eq]
      exact ⟨hm.1, ih (by omega) hm.2⟩

@[simp] theorem cellsWf_nil : cellsWf ([] : Cells α) = true := rfl

theorem cellsWf_cellSet {m : Cells α} (k : Nat) (v : α) (hm : cellsWf m = true) :
    cellsWf (cellSet m k v) = true :=
  cellsRiseFrom_cellSet m k v (Nat.zero_le _) hm

theorem cellsWf_cellSetAll {m : Cells α} (l : List (Nat × α)) (hm : cellsWf m = true) :
    cellsWf (cellSetAll m l) = true := by
  induction l generalizing m with
  | nil => exact hm
  | cons c t ih => exact ih (cellsWf_cellSet _ _ hm)

theorem cellsWf_cellFill {m : Cells α} (k : Nat) (v : α) (n : Nat) (hm : cellsWf m = true) :
    cellsWf (cellFill m k v n) = true := by
  induction n generalizing m k with
  | zero => exact hm
  | succ n ih => exact ih _ (cellsWf_cellSet _ _ hm)

theorem cellsRiseFrom_cellErase {lo : Nat} (m : Cells α) (k : Nat) (hm : cellsRiseFrom lo m = true) :
    cellsRiseFrom lo (cellErase m k) = true := by
  induction m generalizing lo with
  | nil => rfl
  | cons c t ih =>
    obtain ⟨a, x⟩ := c
    simp only [cellsRiseFrom, Bool.and_eq_true, decide_eq_true_eq] at hm
    simp only [cellErase, List.filter_cons] at ih ⊢
    split_ifs
    · simp only [cellsRiseFrom, Bool.and_eq_true, decide_eq_true_eq]
      exact ⟨hm.1, ih hm.2⟩
    · exact cellsRiseFrom_mono (by omega) (ih hm.2)

theorem cellsWf_cellErase {m : Cells α} (k : Nat) (hm : cellsWf m = true) : cellsWf (cellErase m k) = true :=
  cellsRiseFrom_cellErase m k hm

/-! ## Bounds on the indices -/

theorem cellsBelow_iff {n : Nat} {m : Cells α} : cellsBelow n m = true ↔ ∀ c ∈ m, c.1 < n := by
  simp [cellsBelow]

theorem mem_cellSet {m : Cells α} {k : Nat} {v : α} {c : Nat × α} (h : c ∈ cellSet m k v) :
    c = (k, v) ∨ c ∈ m := by
  induction m with
  | nil => simpa [cellSet] using h
  | cons d t ih =>
    obtain ⟨a, x⟩ := d
    simp only [cellSet] at h
    split_ifs at h
    · simpa using h
    · rcases List.mem_cons.mp h with h | h
      · exact .inl h
      · exact .inr (List.mem_cons_of_mem _ h)
    · rcases List.mem_cons.mp h with rfl | h
      · exact .inr List.mem_cons_self
      · exact (ih h).imp_right (List.mem_cons_of_mem _)

theorem cellsBelow_cellSet {n : Nat} {m : Cells α} {k : Nat} (v : α) (hk : k < n) (hm : cellsBelow n m = true) :
    cellsBelow n (cellSet m k v) = true := by
  rw [cellsBelow_iff] at hm ⊢
  intro c hc
  rcases mem_cellSet hc with rfl | hc
  · exact hk
  · exact hm c hc

theorem cellsBelow_cellSetAll {n : Nat} {m : Cells α} (l : List (Nat × α)) (hl : ∀ c ∈ l, c.1 < n)
    (hm : cellsBelow n m = true) : cellsBelow n (cellSetAll m l) = true := by
  induction l generalizing m with
  | nil => exact hm
  | cons c t ih =>
    exact ih (fun d hd => hl d (List.mem_cons_of_mem _ hd))
      (cellsBelow_cellSet _ (hl c List.mem_cons_self) hm)

theorem cellsBelow_cellFill {n : Nat} {m : Cells α} (k : Nat) (v : α) (j : Nat) (hk : k + j ≤ n)
    (hm : cellsBelow n m = true) : cellsBelow n (cellFill m k v j) = true := by
  induction j generalizing m k with
  | zero => exact hm
  | succ j ih => exact ih (k + 1) (by omega) (cellsBelow_cellSet _ (by omega) hm)

theorem cellsBelow_cellErase {n : Nat} {m : Cells α} (k : Nat) (hm : cellsBelow n m = true) :
    cellsBelow n (cellErase m k) = true := by
  rw [cellsBelow_iff] at hm ⊢
  intro c hc
  exact hm c (List.mem_of_mem_filter hc)

/-! ## The source memory -/

theorem Memory.wf_cellSet {m : List Host.Cell} (a : Word) (v : Byte) (hm : Memory.wf m = true) :
    Memory.wf (cellSet m a.toNat v) = true := by
  rw [Memory.wf, Bool.and_eq_true] at hm ⊢
  exact ⟨cellsWf_cellSet _ _ hm.1, cellsBelow_cellSet (n := 2 ^ 32) v a.isLt hm.2⟩

/-- MI_EXPORT's and the host's writes keep the source memory canonical (rule R212). -/
theorem Memory.wf_srcWriteAll {m : List Host.Cell} (l : List (Word × Byte)) (hm : Memory.wf m = true) :
    Memory.wf (srcWriteAll m l) = true := by
  induction l generalizing m with
  | nil => exact hm
  | cons c t ih => exact ih (Memory.wf_cellSet _ _ hm)

theorem Memory.wf_reset : Memory.wf State.reset.src = true := rfl

/-- A source byte none of the writes names is as before. -/
theorem cellGet_srcWriteAll_other (m : List Host.Cell) (l : List (Word × Byte)) (j : Nat)
    (h : ∀ c ∈ l, c.1.toNat ≠ j) : cellGet (srcWriteAll m l) j = cellGet m j := by
  induction l generalizing m with
  | nil => rfl
  | cons c t ih =>
    rw [srcWriteAll, ih _ fun d hd => h d (List.mem_cons_of_mem _ hd), cellGet_cellSet_other]
    exact (h c List.mem_cons_self).symm

theorem srcWriteAll_append (m : List Host.Cell) (l₁ l₂ : List (Word × Byte)) :
    srcWriteAll m (l₁ ++ l₂) = srcWriteAll (srcWriteAll m l₁) l₂ := by
  induction l₁ generalizing m with
  | nil => rfl
  | cons c t ih => exact ih _

end Sys2Proof.Machine
end

