-- ==== Sys2Proof/Laws/State.lean ====
section
/-! SUPPORT. What each named update of the state does to each field. -/
namespace Sys2Proof.Machine

/-! ## State.withLatch -/

@[simp] theorem State.withLatch_latch (s : State) (l : Latch) : (s.withLatch l).latch = l := rfl
@[simp] theorem State.withLatch_cfg (s : State) (l : Latch) : (s.withLatch l).cfg = s.cfg := rfl
@[simp] theorem State.withLatch_bw (s : State) (l : Latch) : (s.withLatch l).bw = s.bw := rfl
@[simp] theorem State.withLatch_mi (s : State) (l : Latch) : (s.withLatch l).mi = s.mi := rfl
@[simp] theorem State.withLatch_rc (s : State) (l : Latch) : (s.withLatch l).rc = s.rc := rfl
@[simp] theorem State.withLatch_src (s : State) (l : Latch) : (s.withLatch l).src = s.src := rfl
@[simp] theorem State.withLatch_hostQueue (s : State) (l : Latch) : (s.withLatch l).hostQueue = s.hostQueue := rfl
@[simp] theorem State.withLatch_hostResp (s : State) (l : Latch) : (s.withLatch l).hostResp = s.hostResp := rfl
@[simp] theorem State.withLatch_tick (s : State) (l : Latch) : (s.withLatch l).tick = s.tick := rfl

/-! ## State.withCfg -/

@[simp] theorem State.withCfg_latch (s : State) (c : Cfg) : (s.withCfg c).latch = s.latch := rfl
@[simp] theorem State.withCfg_cfg (s : State) (c : Cfg) : (s.withCfg c).cfg = c := rfl
@[simp] theorem State.withCfg_bw (s : State) (c : Cfg) : (s.withCfg c).bw = s.bw := rfl
@[simp] theorem State.withCfg_mi (s : State) (c : Cfg) : (s.withCfg c).mi = s.mi := rfl
@[simp] theorem State.withCfg_rc (s : State) (c : Cfg) : (s.withCfg c).rc = s.rc := rfl
@[simp] theorem State.withCfg_src (s : State) (c : Cfg) : (s.withCfg c).src = s.src := rfl
@[simp] theorem State.withCfg_hostQueue (s : State) (c : Cfg) : (s.withCfg c).hostQueue = s.hostQueue := rfl
@[simp] theorem State.withCfg_hostResp (s : State) (c : Cfg) : (s.withCfg c).hostResp = s.hostResp := rfl
@[simp] theorem State.withCfg_tick (s : State) (c : Cfg) : (s.withCfg c).tick = s.tick := rfl

/-! ## State.withBw -/

@[simp] theorem State.withBw_latch (s : State) (b : Bw) : (s.withBw b).latch = s.latch := rfl
@[simp] theorem State.withBw_cfg (s : State) (b : Bw) : (s.withBw b).cfg = s.cfg := rfl
@[simp] theorem State.withBw_bw (s : State) (b : Bw) : (s.withBw b).bw = b := rfl
@[simp] theorem State.withBw_mi (s : State) (b : Bw) : (s.withBw b).mi = s.mi := rfl
@[simp] theorem State.withBw_rc (s : State) (b : Bw) : (s.withBw b).rc = s.rc := rfl
@[simp] theorem State.withBw_src (s : State) (b : Bw) : (s.withBw b).src = s.src := rfl
@[simp] theorem State.withBw_hostQueue (s : State) (b : Bw) : (s.withBw b).hostQueue = s.hostQueue := rfl
@[simp] theorem State.withBw_hostResp (s : State) (b : Bw) : (s.withBw b).hostResp = s.hostResp := rfl
@[simp] theorem State.withBw_tick (s : State) (b : Bw) : (s.withBw b).tick = s.tick := rfl

/-! ## State.withMi -/

@[simp] theorem State.withMi_latch (s : State) (m : Mi) : (s.withMi m).latch = s.latch := rfl
@[simp] theorem State.withMi_cfg (s : State) (m : Mi) : (s.withMi m).cfg = s.cfg := rfl
@[simp] theorem State.withMi_bw (s : State) (m : Mi) : (s.withMi m).bw = s.bw := rfl
@[simp] theorem State.withMi_mi (s : State) (m : Mi) : (s.withMi m).mi = m := rfl
@[simp] theorem State.withMi_rc (s : State) (m : Mi) : (s.withMi m).rc = s.rc := rfl
@[simp] theorem State.withMi_src (s : State) (m : Mi) : (s.withMi m).src = s.src := rfl
@[simp] theorem State.withMi_hostQueue (s : State) (m : Mi) : (s.withMi m).hostQueue = s.hostQueue := rfl
@[simp] theorem State.withMi_hostResp (s : State) (m : Mi) : (s.withMi m).hostResp = s.hostResp := rfl
@[simp] theorem State.withMi_tick (s : State) (m : Mi) : (s.withMi m).tick = s.tick := rfl

/-! ## State.withRc -/

@[simp] theorem State.withRc_latch (s : State) (r : Rc) : (s.withRc r).latch = s.latch := rfl
@[simp] theorem State.withRc_cfg (s : State) (r : Rc) : (s.withRc r).cfg = s.cfg := rfl
@[simp] theorem State.withRc_bw (s : State) (r : Rc) : (s.withRc r).bw = s.bw := rfl
@[simp] theorem State.withRc_mi (s : State) (r : Rc) : (s.withRc r).mi = s.mi := rfl
@[simp] theorem State.withRc_rc (s : State) (r : Rc) : (s.withRc r).rc = r := rfl
@[simp] theorem State.withRc_src (s : State) (r : Rc) : (s.withRc r).src = s.src := rfl
@[simp] theorem State.withRc_hostQueue (s : State) (r : Rc) : (s.withRc r).hostQueue = s.hostQueue := rfl
@[simp] theorem State.withRc_hostResp (s : State) (r : Rc) : (s.withRc r).hostResp = s.hostResp := rfl
@[simp] theorem State.withRc_tick (s : State) (r : Rc) : (s.withRc r).tick = s.tick := rfl

/-! ## State.withSrc -/

@[simp] theorem State.withSrc_latch (s : State) (m : List Host.Cell) : (s.withSrc m).latch = s.latch := rfl
@[simp] theorem State.withSrc_cfg (s : State) (m : List Host.Cell) : (s.withSrc m).cfg = s.cfg := rfl
@[simp] theorem State.withSrc_bw (s : State) (m : List Host.Cell) : (s.withSrc m).bw = s.bw := rfl
@[simp] theorem State.withSrc_mi (s : State) (m : List Host.Cell) : (s.withSrc m).mi = s.mi := rfl
@[simp] theorem State.withSrc_rc (s : State) (m : List Host.Cell) : (s.withSrc m).rc = s.rc := rfl
@[simp] theorem State.withSrc_src (s : State) (m : List Host.Cell) : (s.withSrc m).src = m := rfl
@[simp] theorem State.withSrc_hostQueue (s : State) (m : List Host.Cell) : (s.withSrc m).hostQueue = s.hostQueue := rfl
@[simp] theorem State.withSrc_hostResp (s : State) (m : List Host.Cell) : (s.withSrc m).hostResp = s.hostResp := rfl
@[simp] theorem State.withSrc_tick (s : State) (m : List Host.Cell) : (s.withSrc m).tick = s.tick := rfl

/-! ## State.withResp -/

@[simp] theorem State.withResp_latch (s : State) (r : HostResp) : (s.withResp r).latch = s.latch := rfl
@[simp] theorem State.withResp_cfg (s : State) (r : HostResp) : (s.withResp r).cfg = s.cfg := rfl
@[simp] theorem State.withResp_bw (s : State) (r : HostResp) : (s.withResp r).bw = s.bw := rfl
@[simp] theorem State.withResp_mi (s : State) (r : HostResp) : (s.withResp r).mi = s.mi := rfl
@[simp] theorem State.withResp_rc (s : State) (r : HostResp) : (s.withResp r).rc = s.rc := rfl
@[simp] theorem State.withResp_src (s : State) (r : HostResp) : (s.withResp r).src = s.src := rfl
@[simp] theorem State.withResp_hostQueue (s : State) (r : HostResp) : (s.withResp r).hostQueue = s.hostQueue := rfl
@[simp] theorem State.withResp_hostResp (s : State) (r : HostResp) : (s.withResp r).hostResp = r := rfl
@[simp] theorem State.withResp_tick (s : State) (r : HostResp) : (s.withResp r).tick = s.tick := rfl

/-! ## State.accept -/

@[simp] theorem State.accept_latch (s : State) (q : List HostEvent) : (s.accept q).latch = s.latch := rfl
@[simp] theorem State.accept_cfg (s : State) (q : List HostEvent) : (s.accept q).cfg = s.cfg := rfl
@[simp] theorem State.accept_bw (s : State) (q : List HostEvent) : (s.accept q).bw = s.bw := rfl
@[simp] theorem State.accept_mi (s : State) (q : List HostEvent) : (s.accept q).mi = s.mi := rfl
@[simp] theorem State.accept_rc (s : State) (q : List HostEvent) : (s.accept q).rc = s.rc := rfl
@[simp] theorem State.accept_src (s : State) (q : List HostEvent) : (s.accept q).src = s.src := rfl
@[simp] theorem State.accept_hostQueue (s : State) (q : List HostEvent) : (s.accept q).hostQueue = q := rfl
@[simp] theorem State.accept_hostResp (s : State) (q : List HostEvent) : (s.accept q).hostResp = .done := rfl
@[simp] theorem State.accept_tick (s : State) (q : List HostEvent) : (s.accept q).tick = s.tick + 1 := rfl

/-! ## Reset -/

@[simp] theorem resetVrce_latch (P : Params) (s : State) : (resetVrce P s).latch = Latch.reset := rfl
@[simp] theorem resetVrce_cfg (P : Params) (s : State) : (resetVrce P s).cfg = Cfg.reset := rfl
@[simp] theorem resetVrce_bw (P : Params) (s : State) : (resetVrce P s).bw = Bw.reset := rfl
@[simp] theorem resetVrce_mi (P : Params) (s : State) : (resetVrce P s).mi = Mi.reset := rfl
@[simp] theorem resetVrce_rc (P : Params) (s : State) : (resetVrce P s).rc = Rc.reset P := rfl
@[simp] theorem resetVrce_src (P : Params) (s : State) : (resetVrce P s).src = s.src := rfl
@[simp] theorem resetVrce_hostQueue (P : Params) (s : State) : (resetVrce P s).hostQueue = s.hostQueue := rfl
@[simp] theorem resetVrce_hostResp (P : Params) (s : State) : (resetVrce P s).hostResp = s.hostResp := rfl
@[simp] theorem resetVrce_tick (P : Params) (s : State) : (resetVrce P s).tick = s.tick := rfl

@[simp] theorem raiseFault_latch (w : Word) (r : Raise) (s : State) : (raiseFault w r s).latch = { faulted := true, code := r.code, cmd := w, info := BitVec.ofNat 32 r.info } := rfl
@[simp] theorem raiseFault_cfg (w : Word) (r : Raise) (s : State) : (raiseFault w r s).cfg = s.cfg := rfl
@[simp] theorem raiseFault_bw (w : Word) (r : Raise) (s : State) : (raiseFault w r s).bw = s.bw := rfl
@[simp] theorem raiseFault_mi (w : Word) (r : Raise) (s : State) : (raiseFault w r s).mi = s.mi := rfl
@[simp] theorem raiseFault_rc (w : Word) (r : Raise) (s : State) : (raiseFault w r s).rc = s.rc := rfl
@[simp] theorem raiseFault_src (w : Word) (r : Raise) (s : State) : (raiseFault w r s).src = s.src := rfl
@[simp] theorem raiseFault_hostQueue (w : Word) (r : Raise) (s : State) : (raiseFault w r s).hostQueue = s.hostQueue := rfl
@[simp] theorem raiseFault_hostResp (w : Word) (r : Raise) (s : State) : (raiseFault w r s).hostResp = s.hostResp := rfl
@[simp] theorem raiseFault_tick (w : Word) (r : Raise) (s : State) : (raiseFault w r s).tick = s.tick := rfl

@[simp] theorem State.faultedBy_latch (s : State) (w : Word) (code : ErrCode) (info : Nat) :
    (s.faultedBy w code info).latch = { faulted := true, code := code, cmd := w, info := BitVec.ofNat 32 info } := rfl
@[simp] theorem State.faultedBy_cfg (s : State) (w : Word) (code : ErrCode) (info : Nat) :
    (s.faultedBy w code info).cfg = s.cfg := rfl
@[simp] theorem State.faultedBy_bw (s : State) (w : Word) (code : ErrCode) (info : Nat) :
    (s.faultedBy w code info).bw = s.bw := rfl
@[simp] theorem State.faultedBy_mi (s : State) (w : Word) (code : ErrCode) (info : Nat) :
    (s.faultedBy w code info).mi = s.mi := rfl
@[simp] theorem State.faultedBy_rc (s : State) (w : Word) (code : ErrCode) (info : Nat) :
    (s.faultedBy w code info).rc = s.rc := rfl
@[simp] theorem State.faultedBy_src (s : State) (w : Word) (code : ErrCode) (info : Nat) :
    (s.faultedBy w code info).src = s.src := rfl
@[simp] theorem State.faultedBy_hostQueue (s : State) (w : Word) (code : ErrCode) (info : Nat) :
    (s.faultedBy w code info).hostQueue = s.hostQueue := rfl
@[simp] theorem State.faultedBy_hostResp (s : State) (w : Word) (code : ErrCode) (info : Nat) :
    (s.faultedBy w code info).hostResp = s.hostResp := rfl
@[simp] theorem State.faultedBy_tick (s : State) (w : Word) (code : ErrCode) (info : Nat) :
    (s.faultedBy w code info).tick = s.tick := rfl

end Sys2Proof.Machine
end

