-- ==== Sys2Proof/Laws/Ops.lean ====
section
/-! SUPPORT. What running a command and what one step can do, said once. -/
namespace Sys2Proof.Machine

/-! ## Running a command -/

theorem runCommand_of_faulted (P : Params) (sp : Spoil) (w : Word) (body : State → Except Raise State) {s : State}
    (h : s.latch.faulted = true) : runCommand P sp w body s = s := by
  simp [runCommand, h]

theorem runCommand_of_ok {P : Params} {sp : Spoil} {w : Word} {body : State → Except Raise State} {s t : State}
    (hs : s.running) (h : body s = .ok t) : runCommand P sp w body s = t := by
  have hs : s.latch.faulted = false := hs
  simp [runCommand, hs, h]

theorem runCommand_of_error {P : Params} {sp : Spoil} {w : Word} {body : State → Except Raise State} {s : State}
    {r : Raise} (hs : s.running) (h : body s = .error r) : runCommand P sp w body s = takeFault P sp w r s := by
  have hs : s.latch.faulted = false := hs
  simp [runCommand, hs, h]

/-- A precise fault changes the latch only (rule R704). -/
theorem takeFault_of_precise {P : Params} {sp : Spoil} {w : Word} {r : Raise} (s : State)
    (h : r.code.imprecise = false) : takeFault P sp w r s = s.faultedBy w r.code r.info := by
  simp [takeFault, h, raiseFault, State.faultedBy]

theorem runCommand_of_precise {P : Params} {sp : Spoil} {w : Word} {body : State → Except Raise State} {s : State}
    {code : ErrCode} {info : Nat} (hs : s.running) (h : body s = .error ⟨code, info⟩)
    (hc : code.imprecise = false) : runCommand P sp w body s = s.faultedBy w code info := by
  rw [runCommand_of_error hs h, takeFault_of_precise s hc]

/-- What a command can do: nothing while FAULTED = 1, else its body's effect or the fault its body raises. -/
theorem runCommand_cases (P : Params) (sp : Spoil) (w : Word) (body : State → Except Raise State) (s : State) :
    (s.latch.faulted = true ∧ runCommand P sp w body s = s) ∨
      (s.running ∧ ∃ t, body s = .ok t ∧ runCommand P sp w body s = t) ∨
      (s.running ∧ ∃ r, body s = .error r ∧ runCommand P sp w body s = takeFault P sp w r s) := by
  rcases hf : s.latch.faulted with _ | _
  · rcases hb : body s with r | t
    · exact .inr (.inr ⟨hf, r, rfl, runCommand_of_error hf hb⟩)
    · exact .inr (.inl ⟨hf, t, rfl, runCommand_of_ok hf hb⟩)
  · exact .inl ⟨rfl, runCommand_of_faulted P sp w body hf⟩

@[simp] theorem takeFault_latch (P : Params) (sp : Spoil) (w : Word) (r : Raise) (s : State) :
    (takeFault P sp w r s).latch =
      { faulted := true, code := r.code, cmd := w, info := BitVec.ofNat 32 r.info } := rfl

@[simp] theorem takeFault_cfg (P : Params) (sp : Spoil) (w : Word) (r : Raise) (s : State) :
    (takeFault P sp w r s).cfg = s.cfg := by
  unfold takeFault raiseFault spoil
  split <;> cases sp <;> rfl

@[simp] theorem takeFault_rc (P : Params) (sp : Spoil) (w : Word) (r : Raise) (s : State) :
    (takeFault P sp w r s).rc = s.rc := by
  unfold takeFault raiseFault spoil
  split <;> cases sp <;> rfl

@[simp] theorem takeFault_src (P : Params) (sp : Spoil) (w : Word) (r : Raise) (s : State) :
    (takeFault P sp w r s).src = s.src := by
  unfold takeFault raiseFault spoil
  split <;> cases sp <;> rfl

theorem takeFault_bw (P : Params) (sp : Spoil) (w : Word) (r : Raise) (s : State) :
    (takeFault P sp w r s).bw = if r.code.imprecise then spoilBw P s.tick s.bw else s.bw := by
  unfold takeFault raiseFault spoil
  split <;> cases sp <;> rfl

theorem takeFault_mi (P : Params) (sp : Spoil) (w : Word) (r : Raise) (s : State) :
    (takeFault P sp w r s).mi =
      if r.code.imprecise ∧ sp = .macroblock then spoilMi P s.tick s.mi else s.mi := by
  unfold takeFault raiseFault spoil
  cases h : r.code.imprecise <;> cases sp <;> simp [State.withBw, State.withMi, State.withLatch]

/-- An imprecise fault (rule R704): the latch is exact, and no state but the bit writer's, and for RC_CODE_MB the
iterator's, differs. -/
theorem takeFault_eq (P : Params) (sp : Spoil) (w : Word) (r : Raise) (s : State) :
    takeFault P sp w r s =
      ((s.faultedBy w r.code r.info).withBw (takeFault P sp w r s).bw).withMi (takeFault P sp w r s).mi := by
  unfold takeFault raiseFault spoil State.faultedBy
  split <;> cases sp <;> rfl

/-! ## The body of each command -/

/-- What the imprecise faults of a command leave unspecified. -/
def spoilOf : Instr → Spoil
  | .rcCodeMb => .macroblock
  | _ => .bitWriter

/-- The body each command runs. SOFT_RESET has none: it acts also while FAULTED = 1. -/
def bodyOf (P : Params) : Instr → State → Except Raise State
  | .nop => fun s => .ok s
  | .softReset => fun s => .ok (resetVrce P s)
  | .bwInit => fun s => .ok (s.withBw (initBw s.bw))
  | .bwPutbit bit prob => putBits P [(bit, prob)]
  | .bwPutbitu bit => putBits P [(bit, uniformProb)]
  | .bwPutbits nb val => putBits P (literalBits nb val)
  | .bwPutsbits nb val => putBits P (signedBits nb val)
  | .bwFinish => finishBody P
  | .miReset => resetBody P
  | .miImport => importBody P
  | .miExport => exportBody P
  | .miSaveBoundary => saveBoundaryBody P
  | .miAdvance => advanceBody
  | .miNzToFlags => nzToFlagsBody P
  | .miFlagsToNz => flagsToNzBody P
  | .miSkipNz => skipNzBody P
  | .rcCodeBlock slot ty ctx => codeBlockBody P slot.toNat ty.toNat ctx.toNat
  | .rcRecordBlock slot ty ctx => recordBlockBody P slot.toNat ty.toNat ctx.toNat
  | .rcCodeMb => codeMbBody P
  | .rcRecordMb => recordMbBody P
  | .rcResetStats => fun s => .ok (s.withRc (clearStats s.rc))
  | .rcLoadDefault => fun s => .ok (s.withRc (loadDefault P s.rc))
  | .rcFinalize => fun s => .ok (s.withRc (finalize P s.rc))

theorem exec_softReset (s : State) : exec .softReset s = .next (resetVrce Config.params s) := rfl

/-- Every command but SOFT_RESET runs its body. -/
theorem exec_eq_runCommand {i : Instr} (h : i ≠ .softReset) (s : State) :
    exec i s = .next (runCommand Config.params (spoilOf i) (encode i) (bodyOf Config.params i) s) := by
  cases i <;> first | rfl | exact absurd rfl h

theorem exec_of_ok {i : Instr} {s t : State} (hi : i ≠ .softReset) (hs : s.running)
    (h : bodyOf Config.params i s = .ok t) : exec i s = .next t := by
  rw [exec_eq_runCommand hi, runCommand_of_ok hs h]

theorem exec_of_precise {i : Instr} {s : State} {code : ErrCode} {info : Nat} (hi : i ≠ .softReset)
    (hs : s.running) (h : bodyOf Config.params i s = .error ⟨code, info⟩) (hc : code.imprecise = false) :
    exec i s = .next (s.faultedBy (encode i) code info) := by
  rw [exec_eq_runCommand hi, runCommand_of_precise hs h hc]

/-- What a command can do. -/
theorem exec_cases {i : Instr} {s t : State} (h : exec i s = .next t) :
    (i = .softReset ∧ t = resetVrce Config.params s) ∨
      (s.latch.faulted = true ∧ t = s) ∨
      (s.running ∧ i ≠ .softReset ∧ bodyOf Config.params i s = .ok t) ∨
      (s.running ∧ i ≠ .softReset ∧ ∃ r, bodyOf Config.params i s = .error r ∧
        t = takeFault Config.params (spoilOf i) (encode i) r s) := by
  by_cases hi : i = .softReset
  · subst hi
    rw [exec_softReset] at h
    cases h
    exact .inl ⟨rfl, rfl⟩
  · rw [exec_eq_runCommand hi] at h
    cases h
    rcases runCommand_cases Config.params (spoilOf i) (encode i) (bodyOf Config.params i) s with
      ⟨hf, e⟩ | ⟨hr, t, hb, e⟩ | ⟨hr, r, hb, e⟩
    · exact .inr (.inl ⟨hf, e⟩)
    · exact .inr (.inr (.inl ⟨hr, hi, by rw [e, hb]⟩))
    · exact .inr (.inr (.inr ⟨hr, hi, r, hb, e⟩))

theorem exec_next (i : Instr) (s : State) : ∃ t, exec i s = .next t := by
  cases i <;> exact ⟨_, rfl⟩

/-! ## One step -/

/-- What one step can do: idle, execute a command, raise ILLEGAL_COMMAND, or perform another event. -/
theorem step_cases {s t : State} (h : step s = .next t) :
    (s.hostQueue = [] ∧ t = s) ∨
      (∃ e q w i, s.hostQueue = e :: q ∧ commandOf e = some w ∧ decode w = .ok i ∧
        exec i (s.accept q) = .next t) ∨
      (∃ e q w, s.hostQueue = e :: q ∧ commandOf e = some w ∧
        t = illegalCommand Config.params w (s.accept q)) ∨
      (∃ e q, s.hostQueue = e :: q ∧ commandOf e = none ∧
        t = hostAccess Config.params e (s.accept q)) := by
  unfold step at h
  split at h
  · cases h
    exact .inl ⟨‹_›, rfl⟩
  · next e q hq =>
    split at h
    · next w hw =>
      split at h
      · next i hi => exact .inr (.inl ⟨e, q, w, i, hq, hw, hi, h⟩)
      · cases h
        exact .inr (.inr (.inl ⟨e, q, w, hq, hw, rfl⟩))
    · next hw =>
      cases h
      exact .inr (.inr (.inr ⟨e, q, hq, hw, rfl⟩))

theorem commandOf_write (w : Word) : commandOf (.write 0 4 w) = some w := rfl

theorem illegalCommand_eq (P : Params) (w : Word) (s : State) :
    illegalCommand P w s = if s.latch.faulted then s else s.faultedBy w .illegalCommand 0 := by
  unfold illegalCommand runCommand
  split
  · rfl
  · exact takeFault_of_precise s rfl

end Sys2Proof.Machine
end

