-- ==== Sys2Proof/Laws/BitWriter.lean ====
section
/-! SUPPORT. What the bit writer's primitives do, in arithmetic on natural numbers. -/
namespace Sys2Proof.Machine

/-! ## Renormalisation -/

theorem knorm_bounds {r : Nat} (h : r < 127) : 1 ≤ knorm r ∧ knorm r ≤ 7 := by
  have H : ∀ r < 127, 1 ≤ knorm r ∧ knorm r ≤ 7 := by decide +kernel
  exact H r h

theorem knewRange_bounds {r : Nat} (h : r < 127) : 127 ≤ knewRange r ∧ knewRange r ≤ 253 := by
  have H : ∀ r < 127, 127 ≤ knewRange r ∧ knewRange r ≤ 253 := by decide +kernel
  exact H r h

theorem knewRange_succ (r : Nat) : knewRange r + 1 = (r + 1) * 2 ^ knorm r := by
  have : 0 < (r + 1) * 2 ^ knorm r := by positivity
  rw [knewRange, Nat.shiftLeft_eq]
  omega

/-! ## One decision on the range -/

theorem split_lt {r : Nat} (p : Byte) (h : 0 < r) : r * p.toNat / 256 < r := by
  rw [Nat.div_lt_iff_lt_mul (by omega)]
  have := p.isLt
  nlinarith

theorem narrowedRange_lt {r : Nat} (d : CodedBit) (h : 0 < r) : narrowedRange r d < r := by
  have := split_lt d.2 h
  unfold narrowedRange
  dsimp only
  split <;> omega

/-- The two sub-intervals of a decision lie in the interval: the low end moves by at most what the range loses. -/
theorem narrowed_inside {r : Nat} (d : CodedBit) (h : 0 < r) :
    (if d.1 then r * d.2.toNat / 256 + 1 else 0) + narrowedRange r d ≤ r := by
  have := split_lt d.2 h
  unfold narrowedRange
  dsimp only
  split <;> omega

theorem shiftOf_le (r : Nat) (d : CodedBit) : shiftOf r d ≤ 7 := by
  unfold shiftOf
  split
  · exact (knorm_bounds ‹_›).2
  · omega

theorem nextRange_succ (r : Nat) (d : CodedBit) :
    nextRange r d + 1 = (narrowedRange r d + 1) * 2 ^ shiftOf r d := by
  unfold nextRange shiftOf
  split
  · exact knewRange_succ _
  · simp

theorem nextRange_bounds {r : Nat} (d : CodedBit) (h : 0 < r) (h' : r ≤ 254) :
    127 ≤ nextRange r d ∧ nextRange r d ≤ 253 := by
  unfold nextRange
  split
  · exact knewRange_bounds ‹_›
  · have := narrowedRange_lt d h
    omega

/-! ## Flush -/

/-- The low bits of BW.VALUE that a Flush keeps count 2^(8 + NBITS). -/
def flushUnit (b : Bw) : Nat := 2 ^ (8 + b.nbits.toInt).toNat

/-- The next byte and its carry. -/
def flushBits (b : Bw) : Nat := b.value.toNat / flushUnit b

/-- The bytes a Flush that writes brings OUT to. -/
def flushNeed (b : Bw) : Nat := b.pos.toNat + b.run.toNat + 1

/-- A Flush of a value in bounds never raises CARRY_INVARIANT: it holds back a 0xFF, writes, or runs out of
room (rule R404 to rule R406). -/
theorem flush_eq (P : Params) (tick : Nat) {b : Bw} (hn : -8 ≤ b.nbits.toInt)
    (hv : b.value.toNat < 2 ^ (b.nbits.toInt + 17).toNat)
    (h0 : b.pos = 0 → b.value.toNat < 2 ^ (b.nbits.toInt + 16).toNat) :
    flush P tick b =
      if flushBits b % 256 = 255 then
        .ok { b with
          value := BitVec.ofNat 32 (b.value.toNat % flushUnit b), nbits := b.nbits - 8, run := b.run + 1 }
      else if P.outCap < flushNeed b then .error { code := .allocFailure, info := flushNeed b }
      else
        .ok { b with
          value := BitVec.ofNat 32 (b.value.toNat % flushUnit b), nbits := b.nbits - 8, run := 0
          pos := BitVec.ofNat 32 (flushNeed b), out := flushOut P tick b (flushBits b) } := by
  have e17 : (2 : Nat) ^ (b.nbits.toInt + 17).toNat = flushUnit b * 512 := by
    rw [flushUnit, show (b.nbits.toInt + 17).toNat = (8 + b.nbits.toInt).toNat + 9 by omega, pow_add]
    norm_num
  have e16 : (2 : Nat) ^ (b.nbits.toInt + 16).toNat = flushUnit b * 256 := by
    rw [flushUnit, show (b.nbits.toInt + 16).toNat = (8 + b.nbits.toInt).toNat + 8 by omega, pow_add]
    norm_num
  have hbits : b.value.toNat >>> (8 + b.nbits.toInt).toNat = flushBits b := Nat.shiftRight_eq_div_pow _ _
  have hrest : b.value.toNat - flushBits b <<< (8 + b.nbits.toInt).toNat = b.value.toNat % flushUnit b := by
    rw [Nat.shiftLeft_eq]
    have := Nat.div_add_mod' b.value.toNat (flushUnit b)
    simp only [flushBits]
    simp only [flushUnit] at this ⊢
    omega
  have hlt : flushBits b < 512 := by
    rw [flushBits, Nat.div_lt_iff_lt_mul (by unfold flushUnit; positivity)]
    rw [e17] at hv
    linarith
  have hlt0 : b.pos = 0 → flushBits b < 256 := by
    intro h
    have := h0 h
    rw [flushBits, Nat.div_lt_iff_lt_mul (by unfold flushUnit; positivity)]
    rw [e16] at this
    linarith
  have hneed : b.pos.toNat + b.run.toNat + 1 = flushNeed b := rfl
  unfold flush
  simp only [hbits, hrest, hneed]
  rw [if_neg (by omega)]
  by_cases hff : flushBits b % 256 = 255
  · simp [hff]
  · rw [if_pos hff, if_neg hff]
    by_cases hroom : P.outCap < flushNeed b
    · simp [hroom]
    · rw [if_neg hroom, if_neg hroom, if_neg]
      rintro ⟨hc, hp⟩
      have := hlt0 hp
      rw [Nat.testBit_lt_two_pow (by omega)] at hc
      cases hc

/-- What a Flush leaves in OUT: the pending run and the byte behind the bytes written before, the last of which
takes the carry. -/
theorem cellGet_flushOut (P : Params) (tick : Nat) (b : Bw) (bits k : Nat) :
    cellGet (flushOut P tick b bits) k =
      if k = b.pos.toNat + b.run.toNat then some (BitVec.ofNat 8 bits)
      else if b.pos.toNat ≤ k ∧ k < b.pos.toNat + b.run.toNat then
        some (if bits.testBit 8 then 0x00 else 0xFF)
      else if bits.testBit 8 = true ∧ k = b.pos.toNat - 1 then
        some (readCell P tick .out b.out (b.pos.toNat - 1) + 1)
      else cellGet b.out k := by
  simp only [flushOut, cellGet_cellSet, cellGet_cellFill]
  split
  · rfl
  split
  · rfl
  split
  · simp_all [cellGet_cellSet]
  · simp_all

/-! ## One decision -/

/-- The amount a decision adds to BW.VALUE before the shift. -/
def lowStep (r : Nat) (d : CodedBit) : Nat := if d.1 then r * d.2.toNat / 256 + 1 else 0

/-- The writer after a decision, before its Flush, if it has one. -/
def shifted (d : CodedBit) (b : Bw) : Bw :=
  { b with
    range := BitVec.ofNat 8 (nextRange b.range.toNat d)
    value := BitVec.ofNat 32 ((b.value.toNat + lowStep b.range.toNat d) * 2 ^ shiftOf b.range.toNat d)
    nbits := b.nbits + BitVec.ofNat 8 (shiftOf b.range.toNat d)
    lastBit := d.1 }

theorem nbits_add_toInt {n : BitVec 8} {k : Nat} (h : -8 ≤ n.toInt) (h' : n.toInt ≤ 0) (hk : k ≤ 7) :
    (n + BitVec.ofNat 8 k).toInt = n.toInt + k := by
  have hk' : (BitVec.ofNat 8 k).toInt = k := by
    rw [BitVec.toInt_ofNat']
    simp [Int.bmod_def]
    omega
  rw [BitVec.toInt_add, hk', Int.bmod_def]
  split <;> omega

theorem nbits_sub_toInt {n : BitVec 8} (h : -8 ≤ n.toInt) (h' : n.toInt ≤ 17) :
    (n - 8).toInt = n.toInt - 8 := by
  rw [BitVec.toInt_sub, show (8 : BitVec 8).toInt = 8 from rfl, Int.bmod_def]
  split <;> omega

/-- The bounds of rule R407, for a writer between its shift and its Flush as well. -/
structure Bw.InBounds (b : Bw) : Prop where
  range_ge : 127 ≤ b.range.toNat
  range_le : b.range.toNat ≤ 254
  nbits_ge : -8 ≤ b.nbits.toInt
  nbits_le : b.nbits.toInt ≤ 7
  value_le : b.value.toNat + b.range.toNat + 1 ≤ 3 * 2 ^ (b.nbits.toInt + 15).toNat
  value_le_first : b.pos = 0 → b.value.toNat + b.range.toNat + 1 ≤ 2 ^ (b.nbits.toInt + 16).toNat

theorem Bw.ok_iff {b : Bw} : b.ok ↔ b.InBounds ∧ b.nbits.toInt ≤ 0 := by
  constructor
  · rintro ⟨h1, h2, h3, h4, h5, h6⟩
    exact ⟨⟨h1, h2, h3, by omega, h5, h6⟩, h4⟩
  · rintro ⟨⟨h1, h2, h3, -, h5, h6⟩, h4⟩
    exact ⟨h1, h2, h3, h4, h5, h6⟩

theorem Bw.InBounds.value_lt {b : Bw} (h : b.InBounds) : b.value.toNat < 2 ^ (b.nbits.toInt + 17).toNat := by
  have h1 := h.value_le
  have h2 := h.nbits_ge
  rw [show (b.nbits.toInt + 17).toNat = (b.nbits.toInt + 15).toNat + 2 by omega, pow_add]
  omega

theorem Bw.InBounds.value_lt_first {b : Bw} (h : b.InBounds) :
    b.pos = 0 → b.value.toNat < 2 ^ (b.nbits.toInt + 16).toNat := by
  intro h0
  have := h.value_le_first h0
  omega

/-- A Flush of a writer in bounds extracts less than 0x180: at most one carry, and none with a byte 0xFF. -/
theorem Bw.InBounds.flushBits_lt {b : Bw} (h : b.InBounds) : flushBits b < 384 := by
  have h1 := h.value_le
  have h2 := h.nbits_ge
  rw [flushBits, Nat.div_lt_iff_lt_mul (by unfold flushUnit; positivity)]
  rw [show (b.nbits.toInt + 15).toNat = (8 + b.nbits.toInt).toNat + 7 by omega, pow_add] at h1
  unfold flushUnit
  omega

theorem Bw.InBounds.flushBits_lt_first {b : Bw} (h : b.InBounds) (h0 : b.pos = 0) : flushBits b < 256 := by
  have h1 := h.value_le_first h0
  have h2 := h.nbits_ge
  rw [flushBits, Nat.div_lt_iff_lt_mul (by unfold flushUnit; positivity)]
  rw [show (b.nbits.toInt + 16).toNat = (8 + b.nbits.toInt).toNat + 8 by omega, pow_add] at h1
  unfold flushUnit
  omega

theorem narrowed_scaled {r : Nat} (d : CodedBit) (h : 0 < r) (v : Nat) :
    (v + lowStep r d) * 2 ^ shiftOf r d + nextRange r d + 1 ≤ (v + r + 1) * 2 ^ shiftOf r d := by
  have h1 := nextRange_succ r d
  have h2 : lowStep r d + narrowedRange r d ≤ r := narrowed_inside d h
  have h3 : (v + lowStep r d + narrowedRange r d + 1) * 2 ^ shiftOf r d ≤ (v + r + 1) * 2 ^ shiftOf r d :=
    Nat.mul_le_mul_right _ (by omega)
  have h4 : (v + lowStep r d + narrowedRange r d + 1) * 2 ^ shiftOf r d =
      (v + lowStep r d) * 2 ^ shiftOf r d + (narrowedRange r d + 1) * 2 ^ shiftOf r d := by ring
  omega

theorem scaled_le {b : Bw} (h : b.ok) (d : CodedBit) :
    (b.value.toNat + lowStep b.range.toNat d) * 2 ^ shiftOf b.range.toNat d + nextRange b.range.toNat d + 1 ≤
      3 * 2 ^ (b.nbits.toInt + shiftOf b.range.toNat d + 15).toNat := by
  obtain ⟨h1, h2, h3, h4, h5, -⟩ := h
  have := narrowed_scaled d (show 0 < b.range.toNat by omega) b.value.toNat
  have e : (2 : Nat) ^ (b.nbits.toInt + shiftOf b.range.toNat d + 15).toNat =
      2 ^ (b.nbits.toInt + 15).toNat * 2 ^ shiftOf b.range.toNat d := by
    rw [← pow_add]
    congr 1
    omega
  rw [e, ← Nat.mul_assoc]
  exact this.trans (Nat.mul_le_mul_right _ h5)

theorem scaled_lt {b : Bw} (h : b.ok) (d : CodedBit) :
    (b.value.toNat + lowStep b.range.toNat d) * 2 ^ shiftOf b.range.toNat d < 2 ^ 24 := by
  have h1 := scaled_le h d
  have h2 := shiftOf_le b.range.toNat d
  have h3 : (2 : Nat) ^ (b.nbits.toInt + shiftOf b.range.toNat d + 15).toNat ≤ 2 ^ 22 :=
    Nat.pow_le_pow_right (by omega) (by have := h.2.2.2.1; omega)
  omega

section
variable {b : Bw} (h : b.ok) (d : CodedBit)
include h

theorem shifted_range : (shifted d b).range.toNat = nextRange b.range.toNat d := by
  have := nextRange_bounds d (show 0 < b.range.toNat by have := h.1; omega) h.2.1
  simp only [shifted, BitVec.toNat_ofNat]
  omega

theorem shifted_value : (shifted d b).value.toNat =
    (b.value.toNat + lowStep b.range.toNat d) * 2 ^ shiftOf b.range.toNat d := by
  have := scaled_lt h d
  simp only [shifted, BitVec.toNat_ofNat]
  omega

theorem shifted_nbits : (shifted d b).nbits.toInt = b.nbits.toInt + shiftOf b.range.toNat d :=
  nbits_add_toInt h.2.2.1 h.2.2.2.1 (shiftOf_le _ _)

theorem shifted_inBounds : (shifted d b).InBounds := by
  have hr := nextRange_bounds d (show 0 < b.range.toNat by have := h.1; omega) h.2.1
  have hs := shiftOf_le b.range.toNat d
  refine ⟨?_, ?_, ?_, ?_, ?_, ?_⟩
  · rw [shifted_range h]; exact hr.1
  · rw [shifted_range h]; omega
  · rw [shifted_nbits h]; have := h.2.2.1; omega
  · rw [shifted_nbits h]; have := h.2.2.2.1; omega
  · rw [shifted_range h, shifted_value h, shifted_nbits h]; exact scaled_le h d
  · intro h0
    rw [shifted_range h, shifted_value h, shifted_nbits h]
    have h5 := h.2.2.2.2.2 h0
    have h3 := h.2.2.1
    have := narrowed_scaled d (show 0 < b.range.toNat by have := h.1; omega) b.value.toNat
    have e : (2 : Nat) ^ (b.nbits.toInt + shiftOf b.range.toNat d + 16).toNat =
        2 ^ (b.nbits.toInt + 16).toNat * 2 ^ shiftOf b.range.toNat d := by
      rw [← pow_add]
      congr 1
      omega
    rw [e]
    exact this.trans (Nat.mul_le_mul_right _ h5)

/-- A decision narrows, shifts, and flushes when BW.NBITS has passed 0 (rule R400, rule R402). -/
theorem encodeBit_eq (P : Params) (tick : Nat) :
    encodeBit P tick d b =
      if 0 < b.nbits.toInt + shiftOf b.range.toNat d then flush P tick (shifted d b) else .ok (shifted d b) := by
  obtain ⟨h1, h2, h3, h4, h5, -⟩ := id h
  have hs := split_lt d.2 (show 0 < b.range.toNat by omega)
  have hl := narrowedRange_lt d (show 0 < b.range.toNat by omega)
  have hsp : splitOf b.range d.2 = b.range.toNat * d.2.toNat / 256 := by
    rw [splitOf, Nat.shiftRight_eq_div_pow]
  have hvlt : b.value.toNat + b.range.toNat + 1 ≤ 3 * 2 ^ 15 :=
    h5.trans (Nat.mul_le_mul_left _ (Nat.pow_le_pow_right (by omega) (by omega)))
  have hnr : (narrow d.1 d.2 b).range.toNat = narrowedRange b.range.toNat d := by
    unfold narrow narrowedRange
    dsimp only
    rw [hsp]
    split
    · rw [BitVec.toNat_sub, BitVec.toNat_ofNat]
      omega
    · rw [BitVec.toNat_ofNat]
      omega
  have hnv : (narrow d.1 d.2 b).value.toNat = b.value.toNat + lowStep b.range.toNat d := by
    unfold narrow lowStep
    dsimp only
    rw [hsp]
    split
    · rw [BitVec.toNat_add, BitVec.toNat_ofNat]
      omega
    · rfl
  have hrest : (narrow d.1 d.2 b) =
      { b with
        range := (narrow d.1 d.2 b).range, value := (narrow d.1 d.2 b).value, lastBit := d.1 } := by
    unfold narrow
    dsimp only
    split <;> simp_all
  have hsn := shifted_nbits h d
  unfold encodeBit renormalize
  rw [hnr]
  by_cases hlt : narrowedRange b.range.toNat d < 127
  · rw [if_pos hlt]
    have hk : shiftOf b.range.toNat d = knorm (narrowedRange b.range.toNat d) := if_pos hlt
    have hn : nextRange b.range.toNat d = knewRange (narrowedRange b.range.toNat d) := if_pos hlt
    have hb : { narrow d.1 d.2 b with
        range := BitVec.ofNat 8 (knewRange (narrowedRange b.range.toNat d))
        value := (narrow d.1 d.2 b).value <<< knorm (narrowedRange b.range.toNat d)
        nbits := (narrow d.1 d.2 b).nbits + BitVec.ofNat 8 (knorm (narrowedRange b.range.toNat d)) } =
        shifted d b := by
      have hv : (narrow d.1 d.2 b).value <<< knorm (narrowedRange b.range.toNat d) =
          BitVec.ofNat 32 ((b.value.toNat + lowStep b.range.toNat d) * 2 ^ shiftOf b.range.toNat d) := by
        apply BitVec.eq_of_toNat_eq
        rw [BitVec.toNat_shiftLeft, hnv, Nat.shiftLeft_eq, BitVec.toNat_ofNat, hk]
      rw [hv, hrest]
      simp only [shifted, hk, hn]
    have hn' : ((narrow d.1 d.2 b).nbits + BitVec.ofNat 8 (knorm (narrowedRange b.range.toNat d))).toInt =
        b.nbits.toInt + shiftOf b.range.toNat d := by
      rw [← hsn, ← hb]
    simp only [hb, hn']
  · rw [if_neg hlt]
    have hk : shiftOf b.range.toNat d = 0 := if_neg hlt
    have hn : nextRange b.range.toNat d = narrowedRange b.range.toNat d := if_neg hlt
    rw [if_neg (by omega)]
    congr 1
    rw [hrest]
    simp only [shifted, hk, hn, ← hnr, ← hnv]
    simp

end

/-! ## The writer after a Flush -/

/-- A Flush that succeeds keeps the bounds and brings BW.NBITS back below 1. -/
theorem flush_inBounds {P : Params} {tick : Nat} {b b' : Bw} (hb : b.InBounds) (hn : 1 ≤ b.nbits.toInt)
    (hP : P.outCap ≤ 2 ^ 28) (h : flush P tick b = .ok b') : b'.ok := by
  rw [flush_eq P tick hb.nbits_ge hb.value_lt hb.value_lt_first] at h
  have hU : flushUnit b = 2 ^ (8 + b.nbits.toInt).toNat := rfl
  have hUpos : 0 < flushUnit b := by unfold flushUnit; positivity
  have hU512 : 512 ≤ flushUnit b := by
    calc 512 = 2 ^ 9 := by norm_num
      _ ≤ flushUnit b := Nat.pow_le_pow_right (by omega) (by omega)
  have hU15 : flushUnit b ≤ 2 ^ 15 := Nat.pow_le_pow_right (by omega) (by have := hb.nbits_le; omega)
  have hmod := Nat.mod_lt b.value.toNat hUpos
  have hval : (BitVec.ofNat 32 (b.value.toNat % flushUnit b)).toNat = b.value.toNat % flushUnit b := by
    rw [BitVec.toNat_ofNat]
    omega
  have hnb : (b.nbits - 8).toInt = b.nbits.toInt - 8 :=
    nbits_sub_toInt (by have := hb.nbits_ge; omega) (by have := hb.nbits_le; omega)
  have e15 : 2 * (2 : Nat) ^ (b.nbits.toInt - 8 + 15).toNat = flushUnit b := by
    rw [hU, ← pow_succ']
    congr 1
    omega
  have e16 : (2 : Nat) ^ (b.nbits.toInt - 8 + 16).toNat = flushUnit b := by
    rw [hU]
    congr 1
    omega
  have hr := hb.range_le
  split at h
  · next hff =>
    cases h
    refine ⟨hb.range_ge, hr, by simp only [hnb]; omega, by simp only [hnb]; have := hb.nbits_le; omega, ?_, ?_⟩
    · simp only [hnb, hval]
      omega
    · intro h0
      have h1 := hb.value_le_first h0
      have e : (2 : Nat) ^ (b.nbits.toInt + 16).toNat = 256 * flushUnit b := by
        rw [hU, show (b.nbits.toInt + 16).toNat = 8 + (8 + b.nbits.toInt).toNat by omega, pow_add]
        norm_num
      have hdm := Nat.div_add_mod b.value.toNat (flushUnit b)
      have hbits : flushBits b < 256 := by
        rw [flushBits, Nat.div_lt_iff_lt_mul hUpos]
        omega
      have hbits : b.value.toNat / flushUnit b = 255 := by
        have : flushBits b % 256 = 255 := hff
        have : flushBits b = 255 := by omega
        exact this
      rw [hbits] at hdm
      simp only [hnb, hval, e16]
      omega
  · split at h
    · cases h
    · next hroom =>
      cases h
      refine ⟨hb.range_ge, hr, by simp only [hnb]; omega, by simp only [hnb]; have := hb.nbits_le; omega, ?_, ?_⟩
      · simp only [hnb, hval]
        omega
      · intro h0
        have : (BitVec.ofNat 32 (flushNeed b)).toNat = 0 := congrArg BitVec.toNat h0
        rw [BitVec.toNat_ofNat] at this
        unfold flushNeed at this hroom
        omega

/-- A decision keeps the writer in bounds. -/
theorem encodeBit_ok {P : Params} {tick : Nat} {d : CodedBit} {b b' : Bw} (hb : b.ok) (hP : P.outCap ≤ 2 ^ 28)
    (h : encodeBit P tick d b = .ok b') : b'.ok := by
  rw [encodeBit_eq hb] at h
  split at h
  · next hn => exact flush_inBounds (shifted_inBounds hb d) (by rw [shifted_nbits hb]; omega) hP h
  · next hn =>
    cases h
    exact Bw.ok_iff.mpr ⟨shifted_inBounds hb d, by rw [shifted_nbits hb]; omega⟩

/-- The only fault a Flush of a writer in bounds raises is ALLOC_FAILURE (rule R405). -/
theorem flush_error {P : Params} {tick : Nat} {b : Bw} {r : Raise} (hb : b.InBounds)
    (h : flush P tick b = .error r) :
    r = { code := .allocFailure, info := flushNeed b } ∧ P.outCap < flushNeed b ∧ flushBits b % 256 ≠ 255 := by
  rw [flush_eq P tick hb.nbits_ge hb.value_lt hb.value_lt_first] at h
  split at h
  · cases h
  · split at h
    · cases h
      exact ⟨rfl, ‹_›, ‹_›⟩
    · cases h

/-! ## Room in OUT -/

/-- A Flush counts one byte, written or held back, unless BW.RUN wraps. -/
theorem flush_count {P : Params} {tick : Nat} {b b' : Bw} (hb : b.InBounds) (hP : P.outCap ≤ 2 ^ 28)
    (hrun : b.run.toNat + 1 < 2 ^ 32) (h : flush P tick b = .ok b') :
    b'.pos.toNat + b'.run.toNat = b.pos.toNat + b.run.toNat + 1 := by
  rw [flush_eq P tick hb.nbits_ge hb.value_lt hb.value_lt_first] at h
  split at h
  · cases h
    simp only [BitVec.toNat_add, show (1 : BitVec 32).toNat = 1 from rfl]
    omega
  · split at h
    · cases h
    · next hroom =>
      cases h
      have : (BitVec.ofNat 32 (flushNeed b)).toNat = flushNeed b := by
        rw [BitVec.toNat_ofNat]
        unfold flushNeed at hroom ⊢
        omega
      simp only [this, show (0 : BitVec 32).toNat = 0 from rfl]
      rfl

theorem flush_nbits {P : Params} {tick : Nat} {b b' : Bw} (hb : b.InBounds) (hn : 1 ≤ b.nbits.toInt)
    (h : flush P tick b = .ok b') : b'.nbits.toInt = b.nbits.toInt - 8 ∧ b'.range = b.range ∧
      b'.st = b.st ∧ b'.lastBit = b.lastBit := by
  rw [flush_eq P tick hb.nbits_ge hb.value_lt hb.value_lt_first] at h
  have hnb : (b.nbits - 8).toInt = b.nbits.toInt - 8 :=
    nbits_sub_toInt (by have := hb.nbits_ge; omega) (by have := hb.nbits_le; omega)
  split at h
  · cases h
    exact ⟨hnb, rfl, rfl, rfl⟩
  · split at h
    · cases h
    · cases h
      exact ⟨hnb, rfl, rfl, rfl⟩

/-- A Flush succeeds where its byte fits. -/
theorem flush_of_room {P : Params} {tick : Nat} {b : Bw} (hb : b.InBounds) (h : flushNeed b ≤ P.outCap) :
    ∃ b', flush P tick b = .ok b' := by
  rw [flush_eq P tick hb.nbits_ge hb.value_lt hb.value_lt_first]
  split
  · exact ⟨_, rfl⟩
  · rw [if_neg (by omega)]
    exact ⟨_, rfl⟩

/-- What a decision that fits does to the registers: all but BW.VALUE and OUT, which `flush_eq` gives. -/
structure Coded (d : CodedBit) (b b' : Bw) : Prop where
  ok : b'.ok
  range : b'.range.toNat = nextRange b.range.toNat d
  st : b'.st = b.st
  lastBit : b'.lastBit = d.1
  bitpos : 8 * ((b'.pos.toNat : Int) + b'.run.toNat) + b'.nbits.toInt =
    8 * ((b.pos.toNat : Int) + b.run.toNat) + b.nbits.toInt + shiftOf b.range.toNat d

theorem encodeBit_coded {P : Params} {tick : Nat} {d : CodedBit} {b b' : Bw} (hb : b.ok) (hP : P.outCap ≤ 2 ^ 28)
    (hrun : b.run.toNat + 1 < 2 ^ 32) (h : encodeBit P tick d b = .ok b') : Coded d b b' := by
  have hok := encodeBit_ok hb hP h
  have hr := shifted_range hb d
  have hm := shifted_inBounds hb d
  have hn := shifted_nbits hb d
  rw [encodeBit_eq hb] at h
  split at h
  · next hpos =>
    have hc := flush_count hm hP hrun h
    obtain ⟨h1, h2, h3, h4⟩ := flush_nbits hm (by omega) h
    refine ⟨hok, by rw [h2, hr], h3, h4, ?_⟩
    have e1 : (shifted d b).pos = b.pos := rfl
    have e2 : (shifted d b).run = b.run := rfl
    rw [e1, e2] at hc
    omega
  · cases h
    refine ⟨hok, hr, rfl, rfl, ?_⟩
    rw [hn]
    simp only [shifted]
    omega

theorem flushCount_step (n : Int) (k m : Nat) :
    flushCount n (k + m) = if 0 < n + k then flushCount (n + k - 8) m + 1 else flushCount (n + k) m := by
  unfold flushCount
  split <;> omega

/-- What coding a list can do: it succeeds with the registers as `Coded` has them for each decision, or runs out
of room in a Flush. -/
theorem encodeBits_spec {P : Params} {tick : Nat} (hP : P.outCap ≤ 2 ^ 28) (ds : List CodedBit) {b : Bw}
    (hb : b.ok)
    (hrun : b.run.toNat + flushCount b.nbits.toInt (totalShift b.range.toNat ds) < 2 ^ 32) :
    (∃ b', encodeBits P tick ds b = .ok b' ∧ b'.ok ∧ b'.st = b.st ∧
      b'.range.toNat = exactRange b.range.toNat ds ∧
      8 * ((b'.pos.toNat : Int) + b'.run.toNat) + b'.nbits.toInt =
        8 * ((b.pos.toNat : Int) + b.run.toNat) + b.nbits.toInt + totalShift b.range.toNat ds) ∨
    ∃ info, encodeBits P tick ds b = .error { code := .allocFailure, info := info } ∧ P.outCap < info ∧
      info ≤ b.pos.toNat + b.run.toNat + flushCount b.nbits.toInt (totalShift b.range.toNat ds) := by
  induction ds generalizing b with
  | nil => exact .inl ⟨b, rfl, hb, rfl, rfl, by simp [totalShift]⟩
  | cons d ds ih =>
    have hs := shiftOf_le b.range.toNat d
    have hn1 := hb.2.2.1
    have hn2 := hb.2.2.2.1
    rw [totalShift, flushCount_step] at hrun ⊢
    rcases hbit : encodeBit P tick d b with r | b'
    · have hflush := hbit
      rw [encodeBit_eq hb] at hflush
      split at hflush
      · next hpos =>
        rw [if_pos hpos] at hrun
        obtain ⟨rfl, h1, -⟩ := flush_error (shifted_inBounds hb d) hflush
        refine .inr ⟨flushNeed b, by simp only [encodeBits, hbit]; rfl, h1, ?_⟩
        rw [if_pos hpos]
        unfold flushNeed
        omega
      · cases hflush
    · have hrun1 : 0 < b.nbits.toInt + shiftOf b.range.toNat d → b.run.toNat + 1 < 2 ^ 32 := by
        intro hpos
        rw [if_pos hpos] at hrun
        omega
      by_cases hpos : 0 < b.nbits.toInt + shiftOf b.range.toNat d
      · rw [if_pos hpos] at hrun ⊢
        have hc := encodeBit_coded hb hP (by omega) hbit
        have hr := hc.range
        have hbp := hc.bitpos
        have hc1 := hc.ok.2.2.1
        have hc2 := hc.ok.2.2.2.1
        have e : b'.nbits.toInt = b.nbits.toInt + shiftOf b.range.toNat d - 8 := by omega
        have hle : b'.run.toNat ≤ b.run.toNat + 1 := by
          have hm := shifted_inBounds hb d
          rw [encodeBit_eq hb, if_pos hpos, flush_eq P tick hm.nbits_ge hm.value_lt hm.value_lt_first] at hbit
          have hrr : (shifted d b).run = b.run := rfl
          split_ifs at hbit
          · cases hbit
            simp only [hrr, BitVec.toNat_add, show (1 : BitVec 32).toNat = 1 from rfl]
            omega
          · cases hbit
            exact Nat.zero_le _
        rcases ih hc.ok (by rw [hr, e]; omega) with ⟨b'', h1, h2, h3, h4, h5⟩ | ⟨info, h1, h2, h3⟩
        · refine .inl ⟨b'', by simp only [encodeBits, hbit, h1], h2, h3.trans hc.st, ?_, ?_⟩
          · rw [h4, hr]
            rfl
          · rw [h5, hr]
            push_cast
            omega
        · refine .inr ⟨info, by simp only [encodeBits, hbit, h1], h2, ?_⟩
          rw [hr, e] at h3
          omega
      · rw [if_neg hpos] at hrun ⊢
        have hbit' := hbit
        rw [encodeBit_eq hb, if_neg hpos] at hbit'
        cases hbit'
        have hok := encodeBit_ok hb hP hbit
        have hr := shifted_range hb d
        have e := shifted_nbits hb d
        have hrr : (shifted d b).run = b.run := rfl
        have hpp : (shifted d b).pos = b.pos := rfl
        rcases ih hok (by rw [hr, e, hrr]; omega) with ⟨b'', h1, h2, h3, h4, h5⟩ | ⟨info, h1, h2, h3⟩
        · refine .inl ⟨b'', by simp only [encodeBits, hbit, h1], h2, h3, ?_, ?_⟩
          · rw [h4, hr]
            rfl
          · rw [h5, hr, e, hrr, hpp]
            push_cast
            omega
        · refine .inr ⟨info, by simp only [encodeBits, hbit, h1], h2, ?_⟩
          rw [hr, e, hrr, hpp] at h3
          omega

/-- Decisions that fit into OUT succeed. -/
theorem encodeBits_of_room {P : Params} {tick : Nat} (hP : P.outCap ≤ 2 ^ 28) (ds : List CodedBit) {b : Bw}
    (hb : b.ok)
    (hroom : b.pos.toNat + b.run.toNat + flushCount b.nbits.toInt (totalShift b.range.toNat ds) ≤ P.outCap) :
    ∃ b', encodeBits P tick ds b = .ok b' ∧ b'.ok ∧ b'.st = b.st ∧
      b'.range.toNat = exactRange b.range.toNat ds ∧
      8 * ((b'.pos.toNat : Int) + b'.run.toNat) + b'.nbits.toInt =
        8 * ((b.pos.toNat : Int) + b.run.toNat) + b.nbits.toInt + totalShift b.range.toNat ds := by
  rcases encodeBits_spec hP ds hb (tick := tick) (by omega) with h | ⟨info, -, h2, h3⟩
  · exact h
  · omega

/-! ## The bit commands -/

/-- No bit primitive touches BW.STATE. -/
theorem flush_st {P : Params} {tick : Nat} {b b' : Bw} (h : flush P tick b = .ok b') : b'.st = b.st := by
  simp only [flush] at h
  split_ifs at h <;> cases h <;> rfl

theorem encodeBit_st {P : Params} {tick : Nat} {d : CodedBit} {b b' : Bw} (h : encodeBit P tick d b = .ok b') :
    b'.st = b.st := by
  have hn : (narrow d.1 d.2 b).st = b.st := by
    unfold narrow
    dsimp only
    split <;> rfl
  unfold encodeBit renormalize at h
  dsimp only at h
  split_ifs at h
  · exact (flush_st h).trans hn
  · cases h
    exact hn
  · cases h
    exact hn

theorem encodeBits_st {P : Params} {tick : Nat} {ds : List CodedBit} {b b' : Bw}
    (h : encodeBits P tick ds b = .ok b') : b'.st = b.st := by
  induction ds generalizing b with
  | nil => cases h; rfl
  | cons d ds ih =>
    unfold encodeBits at h
    split at h
    · next b₁ hb => exact (ih h).trans (encodeBit_st hb)
    · cases h

theorem encodeBits_append (P : Params) (tick : Nat) (ds es : List CodedBit) (b : Bw) :
    encodeBits P tick (ds ++ es) b =
      match encodeBits P tick ds b with
      | .ok b' => encodeBits P tick es b'
      | .error r => .error r := by
  induction ds generalizing b with
  | nil => rfl
  | cons d ds ih =>
    simp only [List.cons_append, encodeBits]
    split
    · next b' hb => exact ih b'
    · rfl

theorem encodeBits_singleton (P : Params) (tick : Nat) (d : CodedBit) (b : Bw) :
    encodeBits P tick [d] b = encodeBit P tick d b := by
  unfold encodeBits
  split
  · next b' hb => rw [hb]; rfl
  · next r hb => rw [hb]

/-- The body of a bit command in WRITING. -/
theorem putBits_of_writing {P : Params} {ds : List CodedBit} {s : State} (h : s.bw.st = .writing) :
    putBits P ds s =
      match encodeBits P s.tick ds s.bw with
      | .ok b => .ok (s.withBw b)
      | .error r => .error r := by
  simp only [putBits, checkWriting, h, if_true]
  rcases encodeBits P s.tick ds s.bw with r | b <;> rfl

theorem putBits_of_not_writing {P : Params} {ds : List CodedBit} {s : State} (h : s.bw.st ≠ .writing) :
    putBits P ds s = .error { code := .wrongState, info := s.bw.st.number } := by
  simp only [putBits, checkWriting, if_neg h]
  rfl

theorem execAll_append (is js : List Instr) (s : State) :
    execAll (is ++ js) s = (execAll is s).bind (execAll js) := by
  induction is generalizing s with
  | nil => rfl
  | cons i is ih =>
    obtain ⟨t, ht⟩ := exec_next i s
    simp only [List.cons_append, execAll, ht, ih]

/-- BW_PUTBIT commands, one for each decision, do what coding the list does. -/
theorem execAll_putbits {ds : List CodedBit} {s : State} {b : Bw} (hs : s.running) (hw : s.bw.st = .writing)
    (h : encodeBits Config.params s.tick ds s.bw = .ok b) :
    execAll (ds.map fun d => .bwPutbit d.1 d.2) s = some (s.withBw b) := by
  induction ds generalizing s with
  | nil => cases h; rfl
  | cons d ds ih =>
    unfold encodeBits at h
    split at h
    · next b₁ hb =>
      have e : exec (.bwPutbit d.1 d.2) s = .next (s.withBw b₁) := by
        refine exec_of_ok (by simp) hs ?_
        simp only [bodyOf, putBits_of_writing hw, encodeBits_singleton, Prod.mk.eta, hb]
      simp only [List.map_cons, execAll, e]
      exact ih (s := s.withBw b₁) hs ((encodeBit_st hb).trans hw) h
    · cases h

/-! ## Bit commands one after another, faults included -/

/-- While FAULTED = 1 commands other than SOFT_RESET do nothing (rule R703). -/
theorem execAll_of_faulted {is : List Instr} {s : State} (h : s.latch.faulted = true)
    (hi : ∀ i ∈ is, i ≠ .softReset) : execAll is s = some s := by
  induction is with
  | nil => rfl
  | cons i is ih =>
    have e : exec i s = .next s := by
      rw [exec_eq_runCommand (hi i (by simp)), runCommand_of_faulted _ _ _ _ h]
    simp only [execAll, e]
    exact ih fun j hj => hi j (by simp [hj])

/-- Commands that each code one decision do what coding the list does; where it faults, the latch holds its code
and information under the word of one of them. -/
theorem execAll_bitCommands {α : Type} (f : α → Instr) (g : α → CodedBit) (hf : ∀ a, f a ≠ .softReset)
    (hb : ∀ a, bodyOf Config.params (f a) = putBits Config.params [g a]) (ds : List α) (s : State)
    (hs : s.running) (hw : s.bw.st = .writing) :
    (∃ b, encodeBits Config.params s.tick (ds.map g) s.bw = .ok b ∧
      execAll (ds.map f) s = some (s.withBw b)) ∨
    (∃ r u w, encodeBits Config.params s.tick (ds.map g) s.bw = .error r ∧
      execAll (ds.map f) s = some u ∧ u.latch = ⟨true, r.code, w, BitVec.ofNat 32 r.info⟩) := by
  induction ds generalizing s with
  | nil => exact .inl ⟨s.bw, rfl, rfl⟩
  | cons d ds ih =>
    simp only [List.map_cons]
    unfold encodeBits
    split
    · next b₁ h1 =>
      have e : exec (f d) s = .next (s.withBw b₁) := by
        refine exec_of_ok (hf _) hs ?_
        simp only [hb, putBits_of_writing hw, encodeBits_singleton, h1]
      simp only [execAll, e]
      exact ih (s.withBw b₁) hs ((encodeBit_st h1).trans hw)
    · next r h1 =>
      have e : exec (f d) s = .next (takeFault Config.params (spoilOf (f d)) (encode (f d)) r s) := by
        rw [exec_eq_runCommand (hf _), runCommand_of_error hs]
        simp only [hb, putBits_of_writing hw, encodeBits_singleton, h1]
      refine .inr ⟨r, takeFault Config.params (spoilOf (f d)) (encode (f d)) r s, _, rfl, ?_, rfl⟩
      simp only [execAll, e]
      refine execAll_of_faulted rfl fun i hi => ?_
      obtain ⟨a, -, rfl⟩ := List.mem_map.mp hi
      exact hf a

theorem flush_lastBit {P : Params} {tick : Nat} {b b' : Bw} (h : flush P tick b = .ok b') :
    b'.lastBit = b.lastBit := by
  simp only [flush] at h
  split_ifs at h <;> cases h <;> rfl

/-- A coded decision is LASTBIT, whatever the writer held before (rule R400). -/
theorem encodeBit_lastBit {P : Params} {tick : Nat} {d : CodedBit} {b b' : Bw}
    (h : encodeBit P tick d b = .ok b') : b'.lastBit = d.1 := by
  have hn : (narrow d.1 d.2 b).lastBit = d.1 := by
    unfold narrow
    dsimp only
    split <;> simp_all
  unfold encodeBit renormalize at h
  dsimp only at h
  split_ifs at h
  · exact (flush_lastBit h).trans hn
  · cases h
    exact hn
  · cases h
    exact hn

end Sys2Proof.Machine
end

