-- ==== Sys2Proof/Laws/Commands.lean ====
section
/-! SUPPORT. What each command's body can do: its preconditions, its faults, and the state it leaves. -/
namespace Sys2Proof.Machine

/-! ## Sequencing -/

theorem Except.bind_ok {ε α β : Type} {x : Except ε α} {f : α → Except ε β} {b : β} :
    (x >>= f) = .ok b ↔ ∃ a, x = .ok a ∧ f a = .ok b := by
  cases x with
  | error e => exact ⟨fun h => (by cases h), fun ⟨_, h, _⟩ => (by cases h)⟩
  | ok a => exact ⟨fun h => ⟨a, rfl, h⟩, fun ⟨_, h, h'⟩ => by cases h; exact h'⟩

theorem Except.bind_error {ε α β : Type} {x : Except ε α} {f : α → Except ε β} {e : ε} :
    (x >>= f) = .error e ↔ x = .error e ∨ ∃ a, x = .ok a ∧ f a = .error e := by
  cases x with
  | error e' =>
    exact ⟨fun h => by cases h; exact .inl rfl, fun h => by
      rcases h with h | ⟨_, h, _⟩
      · cases h; rfl
      · cases h⟩
  | ok a =>
    exact ⟨fun h => .inr ⟨a, rfl, h⟩, fun h => by
      rcases h with h | ⟨_, h, h'⟩
      · cases h
      · cases h; exact h'⟩

theorem Except.pure_eq_ok {ε α : Type} (a : α) : (pure a : Except ε α) = .ok a := rfl

/-! ## Checks -/

theorem checkMb_ok_iff {s : State} : checkMb s = .ok () ↔ s.hasMacroblock := by
  unfold checkMb State.hasMacroblock
  split
  · next h =>
    refine ⟨fun h' => (by cases h'), fun ⟨h1, h2⟩ => ?_⟩
    rcases h with h | h
    · simp_all
    · exact absurd h h2
  · next h => simp_all

theorem checkMb_of_hasMacroblock {s : State} (h : s.hasMacroblock) : checkMb s = .ok () := checkMb_ok_iff.mpr h

theorem checkMb_of_not {s : State} (h : ¬ s.hasMacroblock) :
    checkMb s = .error { code := .noMacroblock, info := s.mi.countdown.toNat } := by
  unfold checkMb
  rw [if_pos]
  by_contra hn
  exact h (checkMb_ok_iff.mp (by unfold checkMb; rw [if_neg hn]))

theorem checkMb_error {s : State} {r : Raise} (h : checkMb s = .error r) :
    r = { code := .noMacroblock, info := s.mi.countdown.toNat } ∧ ¬ s.hasMacroblock := by
  by_cases hm : s.hasMacroblock
  · rw [checkMb_of_hasMacroblock hm] at h; cases h
  · rw [checkMb_of_not hm] at h; cases h; exact ⟨rfl, hm⟩

theorem checkWriting_ok_iff {s : State} : checkWriting s = .ok () ↔ s.bw.st = .writing := by
  unfold checkWriting
  split <;> simp_all

theorem checkWriting_error {s : State} {r : Raise} (h : checkWriting s = .error r) :
    r = { code := .wrongState, info := s.bw.st.number } ∧ s.bw.st ≠ .writing := by
  unfold checkWriting at h
  split at h
  · cases h
  · cases h; exact ⟨rfl, ‹_›⟩

theorem geometry_ok_iff {s : State} {g : Geometry} : geometry s = .ok g ↔
    g = geometryOf s ∧ mbCount s.cfg.width = s.mi.mbw.toNat ∧ mbCount s.cfg.height = s.mi.mbh.toNat := by
  unfold geometry
  split
  · next h => exact ⟨fun h' => (by cases h'), fun ⟨_, h1, h2⟩ => (by rcases h with h | h <;> contradiction)⟩
  · next h =>
    refine ⟨fun h' => ?_, fun h' => by rw [h'.1]⟩
    cases h'
    tauto

theorem geometry_error {s : State} {r : Raise} (h : geometry s = .error r) :
    r = { code := .invalidDimensions, info := dimensionsInfo s.cfg } := by
  unfold geometry at h
  split at h <;> cases h
  rfl

theorem srcCheck_ok_iff {P : Params} {l : List Word} :
    srcCheck P l = .ok () ↔ ∀ a ∈ l, P.srcAdmit a = true := by
  induction l with
  | nil => simp [srcCheck]
  | cons a l ih =>
    unfold srcCheck
    split
    · next h => simp [ih, h]
    · next h => simp [h]

/-- SrcCheck raises SRC_BUS_ERROR for the first address that may not be accessed (rule R504). -/
theorem srcCheck_error {P : Params} {l : List Word} {r : Raise} (h : srcCheck P l = .error r) :
    ∃ pre a post, l = pre ++ a :: post ∧ (∀ b ∈ pre, P.srcAdmit b = true) ∧ P.srcAdmit a = false ∧
      r = { code := .srcBusError, info := a.toNat } := by
  induction l with
  | nil => cases h
  | cons a l ih =>
    unfold srcCheck at h
    split at h
    · next ha =>
      obtain ⟨pre, b, post, rfl, h1, h2, h3⟩ := ih h
      exact ⟨a :: pre, b, post, rfl, by simpa [ha] using h1, h2, h3⟩
    · next ha =>
      cases h
      exact ⟨[], a, l, rfl, by simp, by simpa using ha, rfl⟩

theorem checkCoefs_ok_iff {slot t : Nat} {l : List Int} {n : Nat} :
    checkCoefs slot t l n = .ok () ↔
      (∀ c ∈ l, c.natAbs ≤ maxMagnitude) ∧ (t = 0 → n = 0 → ∀ c ∈ l.head?, c = 0) := by
  induction l generalizing n with
  | nil => simp [checkCoefs]
  | cons x l ih =>
    unfold checkCoefs
    split_ifs with h1 h2
    · simp only [false_iff]
      rintro ⟨-, h⟩
      exact h1.2.2 (h h1.1 h1.2.1 x rfl)
    · simp only [false_iff]
      rintro ⟨h, -⟩
      have := h x (by simp)
      omega
    · rw [ih]
      simp only [List.mem_cons, forall_eq_or_imp, List.head?_cons, Option.mem_def, Option.some.injEq, forall_eq']
      refine ⟨fun h => ⟨⟨by omega, h.1⟩, fun ht hn => by_contra fun hx => h1 ⟨ht, hn, hx⟩⟩,
        fun h => ⟨h.1.2, fun _ hn => absurd hn (by omega)⟩⟩

theorem checkCoefs_error {slot t : Nat} {l : List Int} {n : Nat} {r : Raise} (h : checkCoefs slot t l n = .error r) :
    r.code = .firstCoeffNonzero ∨ r.code = .coeffRange := by
  induction l generalizing n with
  | nil => cases h
  | cons x l ih =>
    unfold checkCoefs at h
    split_ifs at h
    · cases h; exact .inl rfl
    · cases h; exact .inr rfl
    · exact ih h

theorem blockCoefs_length (P : Params) (s : State) (slot : Nat) : (blockCoefs P s slot).length = 16 := by
  simp [blockCoefs]

/-- CheckBlock passes exactly the blocks that may be coded (rule R607). -/
theorem checkBlock_ok_iff {P : Params} {s : State} {slot t : Nat} :
    checkBlock P s slot t = .ok () ↔ blockLegal t (blockCoefs P s slot) := by
  have hl := blockCoefs_length P s slot
  unfold checkBlock blockLegal
  rw [checkCoefs_ok_iff]
  rcases hc : blockCoefs P s slot with _ | ⟨x, l⟩
  · rw [hc] at hl; cases hl
  · simp

theorem checkBlock_error {P : Params} {s : State} {slot t : Nat} {r : Raise} (h : checkBlock P s slot t = .error r) :
    r.code = .firstCoeffNonzero ∨ r.code = .coeffRange := checkCoefs_error h

theorem checkBlocks_ok_iff {P : Params} {s : State} {ks : List MbBlock} :
    checkBlocks P s ks = .ok () ↔ ∀ k ∈ ks, blockLegal k.ty (blockCoefs P s k.slot) := by
  induction ks with
  | nil => simp [checkBlocks]
  | cons k ks ih =>
    unfold checkBlocks
    split
    · next h =>
      have : checkBlock P s k.slot k.ty = .ok () := h
      simp [ih, checkBlock_ok_iff.mp this]
    · next h =>
      simp only [reduceCtorEq, false_iff, List.mem_cons, forall_eq_or_imp]
      rintro ⟨h', -⟩
      rw [checkBlock_ok_iff.mpr h'] at h
      cases h

theorem checkBlocks_error {P : Params} {s : State} {ks : List MbBlock} {r : Raise}
    (h : checkBlocks P s ks = .error r) : r.code = .firstCoeffNonzero ∨ r.code = .coeffRange := by
  induction ks with
  | nil => cases h
  | cons k ks ih =>
    unfold checkBlocks at h
    split at h
    · exact ih h
    · next h' => cases h; exact checkBlock_error h'

/-! ## Bodies that succeed -/

theorem importBody_ok {P : Params} {s t : State} (h : importBody P s = .ok t) :
    s.hasMacroblock ∧ t = s.withMi { s.mi with
      yuvIn := cellSetAll s.mi.yuvIn ((planes s (geometryOf s)).flatMap (importWrites P s)) } := by
  unfold importBody at h
  obtain ⟨_, h1, h⟩ := Except.bind_ok.mp h
  obtain ⟨_, h2, h⟩ := Except.bind_ok.mp h
  obtain ⟨_, _, h4⟩ := Except.bind_ok.mp h
  obtain rfl := (geometry_ok_iff.mp h2).1
  exact ⟨checkMb_ok_iff.mp h1, (Except.ok.inj h4).symm⟩

theorem exportBody_ok {P : Params} {s t : State} (h : exportBody P s = .ok t) :
    s.hasMacroblock ∧
      t = s.withSrc (srcWriteAll s.src ((planes s (geometryOf s)).flatMap (exportWrites P s))) := by
  unfold exportBody at h
  obtain ⟨_, h1, h⟩ := Except.bind_ok.mp h
  obtain ⟨_, h2, h⟩ := Except.bind_ok.mp h
  obtain ⟨_, _, h4⟩ := Except.bind_ok.mp h
  obtain rfl := (geometry_ok_iff.mp h2).1
  exact ⟨checkMb_ok_iff.mp h1, (Except.ok.inj h4).symm⟩

theorem savedLeft_frame (P : Params) (s : State) : savedLeft P s = { s.mi with
    yLeft := (savedLeft P s).yLeft, uLeft := (savedLeft P s).uLeft, vLeft := (savedLeft P s).vLeft } := by
  unfold savedLeft
  dsimp only
  split_ifs <;> rfl

theorem savedTop_frame (P : Params) (s : State) (m : Mi) : savedTop P s m = { m with
    yTop := (savedTop P s m).yTop, uvTop := (savedTop P s m).uvTop } := by
  unfold savedTop
  dsimp only
  split_ifs <;> rfl

theorem saveBoundaryBody_ok {P : Params} {s t : State} (h : saveBoundaryBody P s = .ok t) :
    s.hasMacroblock ∧ t = s.withMi (savedTop P s (savedLeft P s)) := by
  unfold saveBoundaryBody at h
  obtain ⟨_, h1, h2⟩ := Except.bind_ok.mp h
  exact ⟨checkMb_ok_iff.mp h1, (Except.ok.inj h2).symm⟩

theorem advanceBody_ok {s t : State} (h : advanceBody s = .ok t) :
    s.hasMacroblock ∧ t = s.withMi (advanceMi s.mi) := by
  simp only [advanceBody, Except.bind_ok, Except.pure_eq_ok] at h
  obtain ⟨_, h1, h2⟩ := h
  exact ⟨checkMb_ok_iff.mp h1, (Except.ok.inj h2).symm⟩

theorem nzToFlagsBody_ok {P : Params} {s t : State} (h : nzToFlagsBody P s = .ok t) :
    s.hasMacroblock ∧
      t = s.withMi { s.mi with topNz := (nzToFlags P s).top, leftNz := (nzToFlags P s).left } := by
  simp only [nzToFlagsBody, Except.bind_ok, Except.pure_eq_ok] at h
  obtain ⟨_, h1, h2⟩ := h
  exact ⟨checkMb_ok_iff.mp h1, (Except.ok.inj h2).symm⟩

theorem flagsToNzBody_ok {P : Params} {s t : State} (h : flagsToNzBody P s = .ok t) :
    s.hasMacroblock ∧ t = s.withMi (flagsToNz P s.tick (currentFlags s.mi) s.mi) := by
  simp only [flagsToNzBody, Except.bind_ok, Except.pure_eq_ok] at h
  obtain ⟨_, h1, h2⟩ := h
  exact ⟨checkMb_ok_iff.mp h1, (Except.ok.inj h2).symm⟩

theorem skipNzBody_ok {P : Params} {s t : State} (h : skipNzBody P s = .ok t) :
    s.hasMacroblock ∧ t = s.withMi { s.mi with nz := t.mi.nz, leftNz := t.mi.leftNz } := by
  simp only [skipNzBody, Except.bind_ok, Except.pure_eq_ok] at h
  obtain ⟨_, h1, h2⟩ := h
  refine ⟨checkMb_ok_iff.mp h1, ?_⟩
  split at h2 <;> (have h2 := Except.ok.inj h2; subst h2; rfl)

theorem putBits_ok {P : Params} {ds : List CodedBit} {s t : State} (h : putBits P ds s = .ok t) :
    s.bw.st = .writing ∧ ∃ b, encodeBits P s.tick ds s.bw = .ok b ∧ t = s.withBw b := by
  simp only [putBits, Except.bind_ok, Except.pure_eq_ok] at h
  obtain ⟨_, h1, b, h2, h3⟩ := h
  exact ⟨checkWriting_ok_iff.mp h1, b, h2, (Except.ok.inj h3).symm⟩

theorem finishBody_ok {P : Params} {s t : State} (h : finishBody P s = .ok t) :
    (s.bw.st = .finished ∧ t = s) ∨
      (s.bw.st = .writing ∧ ∃ b, finishBw P s.tick s.bw = .ok b ∧ t = s.withBw b) := by
  unfold finishBody at h
  split at h
  · next hst => cases h; exact .inl ⟨hst, rfl⟩
  · cases h
  · next hst =>
    simp only [Except.bind_ok, Except.pure_eq_ok] at h
    obtain ⟨b, h1, h2⟩ := h
    exact .inr ⟨hst, b, h1, (Except.ok.inj h2).symm⟩

theorem finishBw_ok {P : Params} {tick : Nat} {b b' : Bw} (h : finishBw P tick b = .ok b') :
    ∃ padded flushed,
      encodeBits P tick (List.replicate (9 - b.nbits.toInt).toNat (false, uniformProb)) b = .ok padded ∧
        flush P tick { padded with nbits := 0 } = .ok flushed ∧ b' = { flushed with st := .finished } := by
  simp only [finishBw, Except.bind_ok, Except.pure_eq_ok] at h
  obtain ⟨p, h1, f, h2, h3⟩ := h
  exact ⟨p, f, h1, h2, (Except.ok.inj h3).symm⟩

theorem codeBlockBody_ok {P : Params} {slot ty ctx : Nat} {s t : State} (h : codeBlockBody P slot ty ctx s = .ok t) :
    s.bw.st = .writing ∧ blockLegal ty (blockCoefs P s slot) ∧
      ∃ b, encodeBits P s.tick ((walk ty ctx (blockCoefs P s slot)).map (codedBit s.rc)) s.bw = .ok b ∧
        t = (s.withBw b).withRc { s.rc with nz := blockFlag (blockCoefs P s slot) } := by
  simp only [codeBlockBody, codeDecisions, Except.bind_ok, Except.pure_eq_ok] at h
  obtain ⟨_, h1, _, h2, b, h3, h4⟩ := h
  exact ⟨checkWriting_ok_iff.mp h1, checkBlock_ok_iff.mp h2, b, h3, (Except.ok.inj h4).symm⟩

theorem recordDecisions_frame (P : Params) (ds : List Decision) (r : Rc) :
    recordDecisions P ds r = { r with stats := (recordDecisions P ds r).stats } := by
  induction ds generalizing r with
  | nil => rfl
  | cons d ds ih =>
    cases d with
    | cell bit ix =>
      rw [recordDecisions, ih]
      rfl
    | fixed bit p => exact ih r
    | sign bit => exact ih r

theorem recordBlockBody_ok {P : Params} {slot ty ctx : Nat} {s t : State}
    (h : recordBlockBody P slot ty ctx s = .ok t) :
    blockLegal ty (blockCoefs P s slot) ∧
      t = s.withRc { s.rc with
        stats := (recordDecisions P (walk ty ctx (blockCoefs P s slot)) s.rc).stats
        nz := blockFlag (blockCoefs P s slot) } := by
  simp only [recordBlockBody, Except.bind_ok, Except.pure_eq_ok] at h
  obtain ⟨_, h2, h4⟩ := h
  refine ⟨checkBlock_ok_iff.mp h2, ?_⟩
  rw [← Except.ok.inj h4, recordDecisions_frame]

theorem codeMbBody_ok {P : Params} {s t : State} (h : codeMbBody P s = .ok t) :
    s.hasMacroblock ∧ s.bw.st = .writing ∧
      (∀ k ∈ lumaBlocks (isI16 s) ++ chromaBlocks, blockLegal k.ty (blockCoefs P s k.slot)) ∧
      ∃ b₁ b₂,
        encodeBits P s.tick ((walkBlocks P s (lumaBlocks (isI16 s)) (nzToFlags P s)).1.map (codedBit s.rc)) s.bw =
            .ok b₁ ∧
          encodeBits P s.tick
              ((walkBlocks P s chromaBlocks (walkBlocks P s (lumaBlocks (isI16 s)) (nzToFlags P s)).2).1.map
                (codedBit s.rc)) b₁ = .ok b₂ ∧
          t = (s.withBw b₂).withMi
            (flagsToNz P s.tick
              (walkBlocks P s chromaBlocks (walkBlocks P s (lumaBlocks (isI16 s)) (nzToFlags P s)).2).2
              (accountBits s.cfg.mbSegment.toNat (isI16 s) (bitpos b₁ - bitpos s.bw) (bitpos b₂ - bitpos b₁) s.mi)) := by
  simp only [codeMbBody, codeDecisions, Except.bind_ok, Except.pure_eq_ok] at h
  obtain ⟨_, h1, _, h2, _, h3, b₁, h4, b₂, h5, h6⟩ := h
  exact ⟨checkMb_ok_iff.mp h1, checkWriting_ok_iff.mp h2, checkBlocks_ok_iff.mp h3, b₁, b₂, h4, h5, (Except.ok.inj h6).symm⟩

theorem recordMbBody_ok {P : Params} {s t : State} (h : recordMbBody P s = .ok t) :
    s.hasMacroblock ∧
      (∀ k ∈ lumaBlocks (isI16 s) ++ chromaBlocks, blockLegal k.ty (blockCoefs P s k.slot)) ∧
      t = (s.withRc { s.rc with
          stats := (recordDecisions P
            (walkBlocks P s (lumaBlocks (isI16 s) ++ chromaBlocks) (nzToFlags P s)).1 s.rc).stats }).withMi
        (flagsToNz P s.tick (walkBlocks P s (lumaBlocks (isI16 s) ++ chromaBlocks) (nzToFlags P s)).2 s.mi) := by
  simp only [recordMbBody, Except.bind_ok, Except.pure_eq_ok] at h
  obtain ⟨_, h1, _, h3, h6⟩ := h
  refine ⟨checkMb_ok_iff.mp h1, checkBlocks_ok_iff.mp h3, ?_⟩
  rw [← Except.ok.inj h6, recordDecisions_frame]

theorem initTop_frame (m : Mi) : initTop m = { m with
    yTop := (initTop m).yTop, uvTop := (initTop m).uvTop, nz := (initTop m).nz } := rfl

theorem initLeft_frame (m : Mi) : initLeft m = { m with
    yLeft := (initLeft m).yLeft, uLeft := (initLeft m).uLeft, vLeft := (initLeft m).vLeft
    leftNz := (initLeft m).leftNz } := rfl

theorem resetBody_ok {P : Params} {s t : State} (h : resetBody P s = .ok t) :
    (s.cfg.width ≠ 0 ∧ s.cfg.height ≠ 0 ∧ mbCount s.cfg.width ≤ P.maxMbW ∧ mbCount s.cfg.height ≤ P.maxMbH) ∧
      t = s.withMi { initLeft (initTop { s.mi with
          mbw := BitVec.ofNat 16 (mbCount s.cfg.width), mbh := BitVec.ofNat 16 (mbCount s.cfg.height), x := 0, y := 0
          countdown := BitVec.ofNat 32 (mbCount s.cfg.width * mbCount s.cfg.height) }) with
        bitCount := List.replicate 12 0, valid := true } := by
  unfold resetBody at h
  simp only at h
  split at h
  · cases h
  · next hn =>
    cases h
    refine ⟨?_, rfl⟩
    simp only [not_or, not_lt] at hn
    exact hn

/-! ## What a body raises -/

/-- A Flush raises the imprecise faults only (rule R405, rule R406). -/
theorem flush_error_code {P : Params} {tick : Nat} {b : Bw} {r : Raise} (h : flush P tick b = .error r) :
    r.code = .allocFailure ∨ r.code = .carryInvariant := by
  simp only [flush] at h
  split_ifs at h <;> cases h <;> simp

theorem encodeBit_error_code {P : Params} {tick : Nat} {d : CodedBit} {b : Bw} {r : Raise}
    (h : encodeBit P tick d b = .error r) : r.code = .allocFailure ∨ r.code = .carryInvariant := by
  unfold encodeBit renormalize at h
  dsimp only at h
  split_ifs at h
  exact flush_error_code h

theorem encodeBits_error_code {P : Params} {tick : Nat} {ds : List CodedBit} {b : Bw} {r : Raise}
    (h : encodeBits P tick ds b = .error r) : r.code = .allocFailure ∨ r.code = .carryInvariant := by
  induction ds generalizing b with
  | nil => cases h
  | cons d ds ih =>
    unfold encodeBits at h
    split at h
    · exact ih h
    · next hb => cases h; exact encodeBit_error_code hb

theorem finishBw_error_code {P : Params} {tick : Nat} {b : Bw} {r : Raise} (h : finishBw P tick b = .error r) :
    r.code = .allocFailure ∨ r.code = .carryInvariant := by
  simp only [finishBw, Except.bind_error, Except.pure_eq_ok, reduceCtorEq, and_false, exists_false, or_false] at h
  rcases h with h | ⟨_, -, h⟩
  · exact encodeBits_error_code h
  · exact flush_error_code h

/-- What a command's body raises is among the faults listed for it (rule R700). -/
theorem body_error_code {P : Params} {i : Instr} {s : State} {r : Raise} (h : bodyOf P i s = .error r) :
    r.code ∈ faultsOf i := by
  cases i <;>
    simp only [bodyOf, reduceCtorEq, putBits, finishBody, resetBody, importBody, exportBody, saveBoundaryBody,
      advanceBody, nzToFlagsBody, flagsToNzBody, skipNzBody, codeBlockBody, recordBlockBody, codeMbBody,
      recordMbBody, codeDecisions, Except.bind_error, Except.pure_eq_ok, and_false, exists_false, or_false] at h <;>
    simp only [faultsOf, List.mem_cons, List.not_mem_nil, or_false]
  case bwPutbit | bwPutbitu | bwPutbits | bwPutsbits =>
    rcases h with h | ⟨_, -, h⟩
    · simp [(checkWriting_error h).1]
    · rcases encodeBits_error_code h with h | h <;> simp [h]
  case bwFinish =>
    split at h
    · cases h
    · cases h; simp
    · simp only [Except.bind_error, reduceCtorEq, and_false, exists_false, or_false] at h
      rcases finishBw_error_code h with h | h <;> simp [h]
  case miReset => split at h <;> cases h; rfl
  case miImport | miExport =>
    rcases h with h | ⟨_, -, h | ⟨_, -, h⟩⟩
    · simp [(checkMb_error h).1]
    · simp [geometry_error h]
    · obtain ⟨_, _, _, -, -, -, h⟩ := srcCheck_error h
      simp [h]
  case rcCodeBlock =>
    rcases h with h | ⟨_, -, h | ⟨_, -, h⟩⟩
    · simp [(checkWriting_error h).1]
    · rcases checkBlock_error h with h | h <;> simp [h]
    · rcases encodeBits_error_code h with h | h <;> simp [h]
  case rcRecordBlock =>
    rcases checkBlock_error h with h | h <;> simp [h]
  case rcCodeMb =>
    rcases h with h | ⟨_, -, h | ⟨_, -, h | ⟨_, -, h | ⟨_, -, h⟩⟩⟩⟩
    · simp [(checkMb_error h).1]
    · simp [(checkWriting_error h).1]
    · rcases checkBlocks_error h with h | h <;> simp [h]
    · rcases encodeBits_error_code h with h | h <;> simp [h]
    · rcases encodeBits_error_code h with h | h <;> simp [h]
  case rcRecordMb =>
    rcases h with h | ⟨_, -, h⟩
    · simp [(checkMb_error h).1]
    · rcases checkBlocks_error h with h | h <;> simp [h]
  case miSkipNz =>
    rcases h with h | ⟨_, -, h⟩
    · simp [(checkMb_error h).1]
    · split at h <;> cases h
  all_goals simp [(checkMb_error h).1]

/-- The check of rule R607 stops at the first position out of range. -/
theorem checkCoefs_of_large {slot t : Nat} (l : List Int) (k n : Nat) (hn : n < l.length)
    (h0 : t = 0 → k = 0 → l.getD 0 0 = 0) (hp : ∀ m < n, (l.getD m 0).natAbs ≤ 2114) (hl : 2114 < (l.getD n 0).natAbs) :
    checkCoefs slot t l k = .error ⟨.coeffRange, slot * 16 + (k + n)⟩ := by
  induction l generalizing k n with
  | nil => simp at hn
  | cons x l ih =>
    unfold checkCoefs
    rw [if_neg (by rintro ⟨a, b, c⟩; exact c (h0 a b))]
    cases n with
    | zero => rw [if_pos (by simpa [maxMagnitude] using hl)]; rfl
    | succ n =>
      rw [if_neg (by have := hp 0 (by omega); simp [maxMagnitude] at this ⊢; omega)]
      rw [ih (k + 1) n (by simpa using hn) (by omega) (fun m hm => hp (m + 1) (by omega)) hl]
      congr 2
      omega

/-- CheckBlock raises the fault of the first offending position (rule R607). -/
theorem checkBlock_of_blockFault {s : State} {slot ty : Nat} {code : ErrCode} {info : Nat}
    (h : s.blockFault slot ty code info) :
    checkBlock Config.params s slot ty = .error ⟨code, info⟩ := by
  have hlen := blockCoefs_length Config.params s slot
  unfold checkBlock
  rcases h with ⟨rfl, h, rfl, rfl⟩ | ⟨n, hn, h0, hp, hl, rfl, rfl⟩
  · cases hb : blockCoefs Config.params s slot with
    | nil => simp [hb] at hlen
    | cons x l =>
      simp only [hb, List.getD_cons_zero] at h
      unfold checkCoefs
      rw [if_pos ⟨rfl, rfl, h⟩, Nat.shiftLeft_eq]
  · rw [checkCoefs_of_large _ 0 n (by omega) (fun a _ => h0 a) hp hl]
    have : (slot <<< 4) ||| n = slot * 16 + n := by
      rw [← Nat.shiftLeft_add_eq_or_of_lt (by omega), Nat.shiftLeft_eq]
    rw [this]; simp

/-- The first block that fails its check decides the fault (rule R622). -/
theorem checkBlocks_of_first {P : Params} {s : State} {pre post : List MbBlock} {k : MbBlock} {r : Raise}
    (hp : ∀ b ∈ pre, blockLegal b.ty (blockCoefs P s b.slot)) (h : checkBlock P s k.slot k.ty = .error r) :
    checkBlocks P s (pre ++ k :: post) = .error r := by
  induction pre with
  | nil => rw [List.nil_append, checkBlocks, h]
  | cons b pre ih =>
    rw [List.cons_append, checkBlocks, checkBlock_ok_iff.mpr (hp b (by simp))]
    exact ih fun c hc => hp c (by simp [hc])

end Sys2Proof.Machine
end

