-- ==== Sys2Proof/Laws/HostPort.lean ====
section
/-! SUPPORT. What a host access can do. -/
namespace Sys2Proof.Machine

theorem commandOf_eq_some_iff {e : HostEvent} {w : Word} : commandOf e = some w ↔ e = .write 0 4 w := by
  cases e <;> simp [commandOf, and_assoc]

/-- An address lies in a window exactly at one of its elements. -/
theorem Window.at?_eq_some_iff {v : Window} {a : Nat} {e : HostElem} (hb : 0 < v.bytes) :
    v.at? a = some e ↔ ∃ i < v.count, a = v.base + v.bytes * i ∧ e = v.elem i := by
  unfold Window.at?
  split
  · next h =>
    obtain ⟨h1, h2, h3⟩ := h
    have hd : v.bytes * ((a - v.base) / v.bytes) = a - v.base := Nat.mul_div_cancel' (Nat.dvd_of_mod_eq_zero h3)
    constructor
    · intro h
      refine ⟨(a - v.base) / v.bytes, ?_, by omega, (Option.some.inj h).symm⟩
      rw [Nat.div_lt_iff_lt_mul hb]
      omega
    · rintro ⟨i, hi, ha, rfl⟩
      have : (a - v.base) / v.bytes = i := by
        rw [show a - v.base = v.bytes * i by omega, Nat.mul_div_cancel_left _ hb]
      rw [this]
  · next h =>
    refine ⟨fun h' => (by cases h'), ?_⟩
    rintro ⟨i, hi, ha, -⟩
    refine absurd ⟨by omega, ?_, ?_⟩ h
    · rw [ha, Nat.add_lt_add_iff_left, Nat.mul_comm v.count]
      exact Nat.mul_lt_mul_of_pos_left hi hb
    · rw [show a - v.base = v.bytes * i by omega, Nat.mul_mod_right]

theorem accessed_eq_some {P : Params} {a : Word} {n : Nat} {e : HostElem} (h : accessed P a n = some e) :
    locate P a = some e ∧ e.bytes = n := by
  unfold accessed at h
  split at h
  · split at h
    · cases h; exact ⟨‹_›, ‹_›⟩
    · cases h
  · cases h

/-- A host read changes the answer only (rule R209). -/
theorem hostRead_eq (P : Params) (a : Word) (n : Nat) (s : State) :
    hostRead P a n s = s.withResp
      (match accessed P a n with
      | some e => .data (readElem P s e)
      | none => .refused) := by
  unfold hostRead
  cases accessed P a n <;> rfl

/-- A host write of an element changes the configuration registers, YUV_OUT, PROB and COEF only. -/
theorem writeElem_frame {s t : State} {v : Word} {e : HostElem} (h : writeElem s v e = some t) :
    t = ((s.withCfg t.cfg).withMi { s.mi with yuvOut := t.mi.yuvOut }).withRc
      { s.rc with prob := t.rc.prob, coef := t.rc.coef } := by
  cases e <;> simp only [writeElem, Option.some.injEq, reduceCtorEq] at h <;> (subst h; rfl)

/-- A host write that is no command stores one element or answers with the error response. -/
theorem hostWrite_cases {P : Params} {a : Word} {n : Nat} {v : Word} {s : State} :
    hostWrite P a n v s = s.withResp .refused ∨
      ∃ e, accessed P a n = some e ∧ writeElem s v e = some (hostWrite P a n v s) := by
  unfold hostWrite
  split
  · next e he =>
    split
    · next t ht => exact .inr ⟨e, he, ht⟩
    · exact .inl rfl
  · exact .inl rfl

theorem hostWrite_frame (P : Params) (a : Word) (n : Nat) (v : Word) (s : State) :
    (hostWrite P a n v s).latch = s.latch ∧ (hostWrite P a n v s).bw = s.bw ∧
      (hostWrite P a n v s).src = s.src ∧ (hostWrite P a n v s).tick = s.tick := by
  rcases hostWrite_cases (P := P) (a := a) (n := n) (v := v) (s := s) with h | ⟨e, -, h⟩
  · rw [h]; exact ⟨rfl, rfl, rfl, rfl⟩
  · rw [writeElem_frame h]; exact ⟨rfl, rfl, rfl, rfl⟩

/-- No host access but hardware reset touches the fault latch or the bit writer. -/
theorem hostAccess_frame (P : Params) {e : HostEvent} (he : e ≠ .hardReset) (s : State) :
    (hostAccess P e s).latch = s.latch ∧ (hostAccess P e s).bw = s.bw := by
  cases e with
  | read a n => rw [hostAccess, hostRead_eq]; exact ⟨rfl, rfl⟩
  | write a n v => exact ⟨(hostWrite_frame P a n v s).1, (hostWrite_frame P a n v s).2.1⟩
  | srcRead a => exact ⟨rfl, rfl⟩
  | srcWrite a v => exact ⟨rfl, rfl⟩
  | hardReset => exact absurd rfl he

end Sys2Proof.Machine
end

