-- ==== Sys2Proof/Laws/PerInstr.lean ====
section
/-! SUPPORT. Families of one lemma per command. -/

/-- A command's word carries the opcode rule R307 gives the command in w[31:26], and its operand bits below. -/
def Sys2Proof.Laws.EncodingFields.Statement (i : Sys2Proof.Instr) : Prop :=
  Sys2Proof.opField (Sys2Proof.encode i) = i.opcode ∧ (Sys2Proof.encode i).extractLsb' 0 26 = i.operandBits

namespace Sys2Proof.Laws.EncodingFields

theorem fields (a : BitVec 6) (b : BitVec 26) :
    opField (a ++ b) = a ∧ (a ++ b : BitVec 32).extractLsb' 0 26 = b := by
  refine ⟨BitVec.eq_of_getLsbD_eq fun k hk => ?_, BitVec.eq_of_getLsbD_eq fun k hk => ?_⟩
  · simp only [opField, BitVec.getLsbD_extractLsb', BitVec.getLsbD_append, hk, decide_true, Bool.true_and]
    rw [if_neg (by omega)]
    congr 1
    omega
  · simp only [BitVec.getLsbD_extractLsb', BitVec.getLsbD_append, hk, decide_true, Bool.true_and, Nat.zero_add, if_pos]

theorem nop : Statement .nop := fields _ _

theorem softReset : Statement .softReset := fields _ _

theorem bwInit : Statement .bwInit := fields _ _

theorem bwPutbit (bit : Bool) (prob : Byte) : Statement (.bwPutbit bit prob) := fields _ _

theorem bwPutbitu (bit : Bool) : Statement (.bwPutbitu bit) := fields _ _

theorem bwPutbits (nb : BitVec 5) (val : BitVec 16) : Statement (.bwPutbits nb val) := fields _ _

theorem bwPutsbits (nb : BitVec 5) (val : BitVec 16) : Statement (.bwPutsbits nb val) := fields _ _

theorem bwFinish : Statement .bwFinish := fields _ _

theorem miReset : Statement .miReset := fields _ _

theorem miImport : Statement .miImport := fields _ _

theorem miExport : Statement .miExport := fields _ _

theorem miSaveBoundary : Statement .miSaveBoundary := fields _ _

theorem miAdvance : Statement .miAdvance := fields _ _

theorem miNzToFlags : Statement .miNzToFlags := fields _ _

theorem miFlagsToNz : Statement .miFlagsToNz := fields _ _

theorem miSkipNz : Statement .miSkipNz := fields _ _

theorem rcCodeBlock (slot : BitVec 5) (ty ctx : BitVec 2) : Statement (.rcCodeBlock slot ty ctx) := fields _ _

theorem rcRecordBlock (slot : BitVec 5) (ty ctx : BitVec 2) : Statement (.rcRecordBlock slot ty ctx) := fields _ _

theorem rcCodeMb : Statement .rcCodeMb := fields _ _

theorem rcRecordMb : Statement .rcRecordMb := fields _ _

theorem rcResetStats : Statement .rcResetStats := fields _ _

theorem rcLoadDefault : Statement .rcLoadDefault := fields _ _

theorem rcFinalize : Statement .rcFinalize := fields _ _

end Sys2Proof.Laws.EncodingFields
end

