-- ==== Sys2Proof/Tests/Slice0.lean ====
section
/-! SUPPORT. Tests of the model. Expected values come from the spec: the encodings of spec/30_encoding.md, and the
vectors V-… of spec/95_test_vectors.md, whose evaluation parameters `testParams` are. The last part shows, for
each statement with hypotheses, a state and operands that meet them. -/
namespace Sys2Proof.Tests

open Sys2Proof Sys2Proof.Machine

-- One theorem after the other: each waiting thread reserves a stack.
set_option Elab.async false

/-! ## Well-formed terms -/

theorem test_wellFormed_refuses_putbits_zero : (Instr.bwPutbits 0 5).wellFormed = false := by decide

theorem test_wellFormed_refuses_putbits_seventeen : (Instr.bwPutbits 17 5).wellFormed = false := by decide

theorem test_wellFormed_refuses_putsbits_sixteen : (Instr.bwPutsbits 16 5).wellFormed = false := by decide

theorem test_wellFormed_refuses_code_slot : (Instr.rcCodeBlock 25 0 0).wellFormed = false := by decide

theorem test_wellFormed_refuses_code_ctx : (Instr.rcCodeBlock 24 3 3).wellFormed = false := by decide

theorem test_wellFormed_refuses_record_slot : (Instr.rcRecordBlock 31 0 0).wellFormed = false := by decide

theorem test_wellFormed_refuses_record_ctx : (Instr.rcRecordBlock 0 0 3).wellFormed = false := by decide

/-! ## Decoding: words written out field by field from rule R300 to rule R307 -/

theorem test_decode_nop : decode 0b000001_00000000000000000000000000 = .ok .nop := by decide

theorem test_decode_softReset : decode 0b000010_00000000000000000000000000 = .ok .softReset := by decide

theorem test_decode_bwInit : decode 0b001000_00000000000000000000000000 = .ok .bwInit := by decide

theorem test_decode_bwPutbit :
    decode 0b001001_00000000000000000_1_11001000 = .ok (.bwPutbit true 200) := by decide

theorem test_decode_bwPutbitu : decode 0b001010_0000000000000000000000000_1 = .ok (.bwPutbitu true) := by decide

theorem test_decode_bwPutbits :
    decode 0b001011_00000_00011_0000000000000101 = .ok (.bwPutbits 3 5) := by decide

theorem test_decode_bwPutsbits :
    decode 0b001100_00000_00100_1111111111111101 = .ok (.bwPutsbits 4 (-3)) := by decide

theorem test_decode_bwFinish : decode 0b001101_00000000000000000000000000 = .ok .bwFinish := by decide

theorem test_decode_miReset : decode 0b010000_00000000000000000000000000 = .ok .miReset := by decide

theorem test_decode_miImport : decode 0b010001_00000000000000000000000000 = .ok .miImport := by decide

theorem test_decode_miExport : decode 0b010010_00000000000000000000000000 = .ok .miExport := by decide

theorem test_decode_miSaveBoundary : decode 0b010011_00000000000000000000000000 = .ok .miSaveBoundary := by decide

theorem test_decode_miAdvance : decode 0b010100_00000000000000000000000000 = .ok .miAdvance := by decide

theorem test_decode_miNzToFlags : decode 0b010101_00000000000000000000000000 = .ok .miNzToFlags := by decide

theorem test_decode_miFlagsToNz : decode 0b010110_00000000000000000000000000 = .ok .miFlagsToNz := by decide

theorem test_decode_miSkipNz : decode 0b010111_00000000000000000000000000 = .ok .miSkipNz := by decide

theorem test_decode_rcCodeBlock :
    decode 0b011000_0000000000000_10001_00_10_00_01 = .ok (.rcCodeBlock 17 2 1) := by decide

theorem test_decode_rcRecordBlock :
    decode 0b011001_0000000000000_11000_00_11_00_10 = .ok (.rcRecordBlock 24 3 2) := by decide

theorem test_decode_rcCodeMb : decode 0b011010_00000000000000000000000000 = .ok .rcCodeMb := by decide

theorem test_decode_rcRecordMb : decode 0b011011_00000000000000000000000000 = .ok .rcRecordMb := by decide

theorem test_decode_rcResetStats : decode 0b011100_00000000000000000000000000 = .ok .rcResetStats := by decide

theorem test_decode_rcLoadDefault : decode 0b011101_00000000000000000000000000 = .ok .rcLoadDefault := by decide

theorem test_decode_rcFinalize : decode 0b011110_00000000000000000000000000 = .ok .rcFinalize := by decide

/-- V-EN-1. -/
theorem test_decode_illegal :
    decode 0x00000000 = .error .reservedOpcode ∧ decode 0x38000000 = .error .reservedOpcode ∧
      decode 0x04000100 = .error .mustBeZero ∧ decode 0x20000001 = .error .mustBeZero ∧
      decode 0x24000201 = .error .mustBeZero ∧ decode 0x28000002 = .error .mustBeZero ∧
      decode 0x2C200001 = .error .mustBeZero ∧ decode 0x60001840 = .error .mustBeZero ∧
      decode 0x64000004 = .error .mustBeZero ∧ decode 0x2C000005 = .error .fieldRange ∧
      decode 0x2C110005 = .error .fieldRange ∧ decode 0x30100005 = .error .fieldRange ∧
      decode 0x60001900 = .error .fieldRange ∧ decode 0x60000103 = .error .fieldRange := by decide

/-! ## Commands, one step each -/

/-- The evaluation parameters of spec/95_test_vectors.md §0, with BIT_COST of its table BCT. -/
def testParams : Params :=
  { maxMbW := 1024, maxMbH := 1024, outCap := 1048576, defaultProb := fun _ => 128, updateProb := fun _ => 128
    bitCost := fun bit p => if bit then 2 * (p.toNat + 1) else 2 * (256 - p.toNat)
    srcAdmit := fun _ => true, halveThreshold := 0xFFFE0000, free := fun _ _ _ => 0 }

/-- State R of the vectors: after reset. -/
def stateR : State := State.resetWith testParams

/-- State I of the vectors: after reset and BW_INIT. -/
def stateI : State := stateR.withBw (initBw stateR.bw)

/-- A writer in WRITING with the listed registers and OUT. -/
def writer (range : BitVec 8) (value : BitVec 32) (nbits : BitVec 8) (run pos : BitVec 32) (out : Cells Byte) : Bw :=
  { st := .writing, range := range, value := value, nbits := nbits, run := run, pos := pos, lastBit := false, out := out }

/-- The state a body leaves has the property; false where the body faults. -/
def leaves (r : Except Raise State) (p : State → Bool) : Bool :=
  match r with
  | .ok t => p t
  | .error _ => false

/-- The columns of the vectors. -/
structure Row where
  range : Nat
  value : Nat
  nbits : Int
  run : Nat
  bitpos : Nat
  out : List Byte
deriving DecidableEq, Repr

/-- RANGE, VALUE, NBITS, RUN, BITPOS and OUT. -/
def row (s : State) : Row :=
  { range := s.bw.range.toNat, value := s.bw.value.toNat, nbits := s.bw.nbits.toInt, run := s.bw.run.toNat
    bitpos := (Machine.bitpos s.bw).toNat, out := s.bw.stream }

/-- V-EN-2. -/
theorem test_nop : exec .nop State.reset = .next State.reset := rfl

/-- V-BW-18: SOFT_RESET clears a latched fault. -/
theorem test_softReset :
    (resetVrce testParams (stateR.faultedBy 0 .illegalCommand 0)).latch = Latch.reset := by decide

/-- V-BW-16. -/
theorem test_bwInit :
    leaves (bodyOf testParams .bwInit (stateR.withBw { writer 223 0x31C (-6) 0 0 [] with lastBit := true })) (fun s =>
        decide (row s = ⟨254, 0, -8, 0, 0, []⟩) &&
          decide (statusWord s = 0x00010100)) = true := by decide +kernel

/-- V-BW-1. -/
theorem test_bwPutbit :
    leaves (bodyOf testParams (.bwPutbit true 200) stateI) (fun s =>
        decide (row s = ⟨223, 0x31C, -6, 0, 2, []⟩) &&
          decide (statusWord s = 0x00010100)) = true := by decide +kernel

/-- V-BW-14, step 13: a carry over a pending 0xFF. -/
theorem test_bwPutbit_carry :
    leaves (bodyOf testParams (.bwPutbit false 1)
      (stateR.withBw (writer 127 0x11F80 0 1 2 [(0, 0), (1, 0)]))) (fun s =>
        decide (row s = ⟨127, 0x4000, -1, 0, 39, [0x00, 0x01, 0x00, 0x1F]⟩)) = true := by decide +kernel

/-- V-BW-3. -/
theorem test_bwPutbitu :
    leaves (bodyOf testParams (.bwPutbitu true) stateI) (fun s =>
        decide (row s = ⟨253, 0x100, -7, 0, 1, []⟩)) = true := by decide +kernel

/-- V-BW-8. -/
theorem test_bwPutbits :
    leaves (bodyOf testParams (.bwPutbits 16 0xFFFF) stateI) (fun s =>
        decide (row s = ⟨253, 0xFF02, 0, 0, 16, [0xFE]⟩)) = true := by decide +kernel

/-- V-BW-12b: bit 8 of an 8-bit value is not coded. -/
theorem test_bwPutbits_high_bits :
    leaves (bodyOf testParams (.bwPutbits 8 0x1A5) stateI) (fun s =>
        decide (row s = ⟨253, 0xA4B6, 0, 0, 8, []⟩)) = true := by decide +kernel

/-- V-BW-6. -/
theorem test_bwPutsbits :
    leaves (bodyOf testParams (.bwPutsbits 4 (-3)) stateI) (fun s =>
        decide (row s = ⟨253, 0x26F2, -2, 0, 6, []⟩)) = true := by decide +kernel

/-- V-BW-7c: the largest width and magnitude. -/
theorem test_bwPutsbits_widest :
    leaves (bodyOf testParams (.bwPutsbits 15 0x8000) stateI) (fun s =>
        decide (row s = ⟨253, 0xFE, -7, 0, 17, [0x80, 0x00]⟩)) = true := by decide +kernel

/-- V-BW-9. -/
theorem test_bwFinish :
    leaves (bodyOf testParams .bwFinish stateI) (fun s =>
        decide (row s = ⟨127, 0, -8, 0, 16, [0x00, 0x00]⟩) &&
          decide (statusWord s = 0x00000200)) = true := by decide +kernel

/-- V-BW-10. -/
theorem test_bwFinish_after_bit :
    leaves (bodyOf testParams .bwFinish (stateR.withBw (writer 223 0x31C (-6) 0 0 []))) (fun s =>
        decide (row s = ⟨223, 0, -8, 0, 24, [0xC7, 0x00, 0x00]⟩)) = true := by decide +kernel

/-- The sizes of IMG17, with its source layout (spec/95_test_vectors.md §0). -/
def cfg17 : Cfg :=
  { Cfg.reset with width := 17, height := 17, yStride := 32, uvStride := 16, yBase := 0x1000, uBase := 0x2000
                   vBase := 0x3000 }

/-- A grid of `w` by `h` macroblocks at column `x` and row `y`. -/
def gridAt (x y w h : Nat) : Mi :=
  { Mi.reset with x := BitVec.ofNat 16 x, y := BitVec.ofNat 16 y, mbw := BitVec.ofNat 16 w
                  mbh := BitVec.ofNat 16 h, countdown := BitVec.ofNat 32 (w * h - y * w - x), valid := true }

/-- V-MI-1. -/
theorem test_miReset :
    leaves (bodyOf testParams .miReset (stateR.withCfg cfg17)) (fun s =>
        decide (s.mi.mbw = 2) &&
          decide (s.mi.mbh = 2) &&
          decide (s.mi.countdown = 4) &&
          decide (statusWord s = 0x00001000) &&
          decide (cellGet s.mi.yTop 31 = some 127) &&
          decide (cellGet s.mi.uvTop 32 = none)) = true := by decide +kernel

/-- V-MI-1: the left caches and their corners. -/
theorem test_miReset_left :
    leaves (bodyOf testParams .miReset (stateR.withCfg cfg17)) (fun s =>
        decide (cellGet s.mi.yLeft 0 = some 127) &&
          decide (cellGet s.mi.yLeft 16 = some 129) &&
          decide (cellGet s.mi.uLeft 0 = some 127) &&
          decide (cellGet s.mi.vLeft 8 = some 129)) = true := by decide +kernel

/-- V-MI-3 at (1,1): one sample of each plane, replicated into all of the plane's block and nothing else. -/
theorem test_miImport :
    let s := ((stateR.withCfg cfg17).withMi (gridAt 1 1 2 2)).withSrc
      [(0x1000 + 32 * 16 + 16, 48), (0x2000 + 16 * 8 + 8, 188), (0x3000 + 16 * 8 + 8, 112)]
    let writes := (planes s (geometryOf s)).flatMap (importWrites testParams s)
    [0, 15, 480, 495, 16, 247, 24, 255, 272].map (writes.lookup ·) =
      [some 48, some 48, some 48, some 48, some 188, some 188, some 112, some 112, none] := by decide +kernel

/-- V-MI-4, at (1,1): one sample of each plane is written. -/
theorem test_miExport :
    leaves (bodyOf testParams .miExport (((stateR.withCfg cfg17).withMi
      { gridAt 1 1 2 2 with yuvOut := [(0, 7), (1, 8), (16, 9), (24, 10)] }).withSrc [])) (fun s =>
        decide (s.src = [(0x1210, 7), (0x2088, 9), (0x3088, 10)])) = true := by decide +kernel

/-- V-MI-5, step 4: the corners are the old top samples. -/
theorem test_miSaveBoundary :
    leaves (bodyOf testParams .miSaveBoundary (stateR.withMi { gridAt 0 1 2 2 with
        yTop := [(15, 50)], uvTop := [(7, 51), (15, 52)], yuvOut := (List.range 16).map fun i => (32 * i + 15, 70) })) (fun s =>
        decide (cellGet s.mi.yLeft 0 = some 50) &&
          decide (cellGet s.mi.uLeft 0 = some 51) &&
          decide (cellGet s.mi.vLeft 0 = some 52) &&
          decide (cellGet s.mi.yLeft 16 = some 70) &&
          decide (s.mi.yTop.length = 1)) = true := by decide +kernel

/-- V-MI-6, advance 2: to the next row. -/
theorem test_miAdvance :
    leaves (bodyOf testParams .miAdvance (stateR.withMi (gridAt 1 0 2 2))) (fun s =>
        decide (s.mi.x = 0) &&
          decide (s.mi.y = 1) &&
          decide (s.mi.countdown = 2) &&
          decide (cellGet s.mi.yLeft 0 = some 129) &&
          decide (statusWord s = 0x00001000)) = true := by decide +kernel

/-- V-MI-6, advance 4: the grid is finished. -/
theorem test_miAdvance_last :
    leaves (bodyOf testParams .miAdvance (stateR.withMi (gridAt 1 1 2 2))) (fun s =>
        decide (s.mi.x = 0) &&
          decide (s.mi.y = 2) &&
          decide (s.mi.countdown = 0) &&
          decide (statusWord s = 0x00003000)) = true := by decide +kernel

/-- V-MI-7. -/
theorem test_miNzToFlags :
    leaves (bodyOf testParams .miNzToFlags (stateR.withMi { gridAt 0 1 1 2 with nz := [(0, 0x0100F000)] })) (fun s =>
        decide (s.mi.topNz.map Prod.snd = [1, 1, 1, 1, 0, 0, 0, 0, 1])) = true := by decide +kernel

/-- V-MI-7b. -/
theorem test_miNzToFlags_left :
    leaves (bodyOf testParams .miNzToFlags (stateR.withMi { gridAt 1 0 2 1 with nz := [(0, 0x00AA8888), (1, 0)] })) (fun s =>
        decide (s.mi.leftNz.map Prod.snd = [1, 1, 1, 1, 1, 1, 1, 1])) = true := by decide +kernel

/-- V-MI-8: all flags 1. -/
theorem test_miFlagsToNz :
    leaves (bodyOf testParams .miFlagsToNz (stateR.withMi { gridAt 0 0 1 1 with
        topNz := (List.range 9).map fun j => (j, 1), leftNz := (List.range 9).map fun j => (j, 1) })) (fun s =>
        decide (cellGet s.mi.nz 0 = some 0x01EEF888)) = true := by decide +kernel

/-- V-MI-9: bit 15 takes TOP_NZ[3], because LEFT_NZ[3] is not packed. -/
theorem test_miFlagsToNz_top_only :
    leaves (bodyOf testParams .miFlagsToNz (stateR.withMi { gridAt 0 0 1 1 with
        topNz := (List.range 9).map fun j => (j, 1), leftNz := (List.range 9).map fun j => (j, 0) })) (fun s =>
        decide (cellGet s.mi.nz 0 = some 0x01CCF000)) = true := by decide +kernel

/-- V-MI-9. -/
theorem test_miSkipNz :
    leaves (bodyOf testParams .miSkipNz (stateR.withMi { gridAt 0 0 1 1 with nz := [(0, 0x01EEF888)] })) (fun s =>
        decide (cellGet s.mi.nz 0 = some 0x01000000)) = true := by decide +kernel

/-- V-MI-9b. -/
theorem test_miSkipNz_intra16 :
    leaves (bodyOf testParams .miSkipNz ((stateR.withCfg { Cfg.reset with mbType := 1 }).withMi
        { gridAt 0 0 1 1 with nz := [(0, 0x01EEF888)], leftNz := [(8, 1)] })) (fun s =>
        decide (cellGet s.mi.nz 0 = some 0) &&
          decide (cellGet s.mi.leftNz 8 = some 0)) = true := by decide +kernel

/-- The listed elements of COEF, 16·slot + position; under `testParams` the others read 0. -/
def coefs (l : Cells (BitVec 16)) : Cells (BitVec 16) := l

/-- V-RC-2. -/
theorem test_rcCodeBlock :
    leaves (bodyOf testParams (.rcCodeBlock 1 3 0)
      (stateI.withRc { stateI.rc with coef := coefs [(16, 1)] })) (fun s =>
        decide (row s = ⟨253, 0x17F0, -3, 0, 5, []⟩) &&
          decide (statusWord s = 0x00020100)) = true := by decide +kernel

/-- V-RC-5b. -/
theorem test_rcCodeBlock_several :
    leaves (bodyOf testParams (.rcCodeBlock 5 3 1)
      (stateI.withRc { stateI.rc with coef := coefs [(80, -1), (83, 2), (85, 12)] })) (fun s =>
        decide (row s = ⟨179, 0xABE0, 0, 0, 24, [0xD8, 0xD8]⟩)) = true := by decide +kernel

/-- V-RC-7. -/
theorem test_rcRecordBlock :
    leaves (bodyOf testParams (.rcRecordBlock 1 3 0) (stateR.withRc { stateR.rc with coef := coefs [(16, 1)] })) (fun s =>
        decide ([792, 793, 794, 836, 0].map (statsAt s.rc) = [0x00010001, 0x00010001, 0x00010000, 0x00010000, 0]) &&
          decide (statusWord s = 0x00020000)) = true := by decide +kernel

/-- V-RC-8. -/
theorem test_record_halving :
    recordCount testParams 0xFFFE0000 true = 0x80000001 ∧ recordCount testParams 0xFFFFFFFF false = 0x00010000 ∧
      recordCount testParams 0xFFFDFFFD true = 0xFFFEFFFE ∧ recordCount testParams 0xFFFF0001 true = 0x80000002 := by
  decide

/-- V-RC-10. -/
theorem test_rcCodeMb :
    leaves (bodyOf testParams .rcCodeMb (((stateI.withRc { stateI.rc with coef := coefs [] }).withCfg
        { Cfg.reset with mbSegment := 2 }).withMi { gridAt 0 0 1 1 with nz := [(0, 0)] })) (fun s =>
        decide (row s = ⟨127, 0, -1, 0, 23, [0x00, 0x00]⟩) &&
          decide (s.mi.lumaBits = 15) &&
          decide (s.mi.uvBits = 8) &&
          decide (s.mi.bitCount = [0, 0, 0, 0, 0, 0, 15, 0, 8, 0, 0, 0]) &&
          decide (cellGet s.mi.nz 0 = some 0)) = true := by decide +kernel

/-- V-RC-12. -/
theorem test_rcCodeMb_contexts :
    leaves (bodyOf testParams .rcCodeMb ((stateI.withRc { stateI.rc with
        coef := coefs [(16, 1), (98, -2), (256, 1), (384, 1)] }).withMi { gridAt 0 0 1 1 with
        nz := [(0, 0)], leftNz := [(8, 0)] })) (fun s =>
        decide (row s = ⟨253, 0x7D0, -4, 0, 44, [0xBF, 0xCB, 0xE7, 0x17, 0xD1]⟩) &&
          decide (s.mi.lumaBits = 32) &&
          decide (s.mi.uvBits = 12) &&
          decide (s.mi.topNz.map Prod.snd = [0, 0, 0, 1, 0, 0, 0, 1, 0]) &&
          decide (cellGet s.mi.nz 0 = some 0x00808000)) = true := by decide +kernel

/-- V-RC-11. -/
theorem test_rcRecordMb :
    leaves (bodyOf testParams .rcRecordMb ((stateR.withRc { stateR.rc with coef := coefs [] }).withMi
        { gridAt 0 0 1 1 with nz := [(0, 0)] })) (fun s =>
        decide (statsAt s.rc 792 = 0x00100000) &&
          decide (statsAt s.rc 528 = 0x00080000) &&
          decide (statsAt s.rc 0 = 0) &&
          decide (s.mi.lumaBits = 0)) = true := by decide +kernel

/-- V-RC-18. -/
theorem test_rcResetStats :
    leaves (bodyOf testParams .rcResetStats
      (stateR.withRc { stateR.rc with stats := List.replicate 1056 5, dirty := true })) (fun s =>
        decide (statsAt s.rc 0 = 0) &&
          decide (s.rc.dirty = true) &&
          decide (s.rc.stats.length = 1056)) = true := by decide +kernel

/-- V-RC-18. -/
theorem test_rcLoadDefault :
    leaves (bodyOf testParams .rcLoadDefault
      (stateR.withRc { stateR.rc with prob := List.replicate 1056 9, dirty := true })) (fun s =>
        decide (probAt s.rc 7 = 128) &&
          decide (s.rc.dirty = true)) = true := by decide +kernel

/-- V-RC-17 and V-RC-14: a cell that is switched, and one that is not. -/
theorem test_rcFinalize :
    fitCell testParams { stateR.rc with stats := [0x03E803E8] } 0 = ⟨0, 258 + 2048, true⟩ ∧
      fitCell testParams { stateR.rc with stats := [0x03E801F4] } 0 = ⟨128, 256, false⟩ ∧
      fitCell testParams { stateR.rc with stats := [0] } 0 = ⟨128, 256, false⟩ := by decide +kernel

/-- V-RC-6: the first offending position, and the first-coefficient check first. -/
theorem test_checkBlock :
    checkBlock testParams (stateR.withRc { stateR.rc with coef := coefs [(80, 1)] }) 5 0 =
        .error ⟨.firstCoeffNonzero, 0x50⟩ ∧
      checkBlock testParams (stateR.withRc { stateR.rc with coef := coefs [(55, 2115)] }) 3 3 =
        .error ⟨.coeffRange, 0x37⟩ ∧
      checkBlock testParams (stateR.withRc { stateR.rc with coef := coefs [(48, 3000), (49, 3000)] }) 3 0 =
        .error ⟨.firstCoeffNonzero, 0x30⟩ := by decide +kernel

/-- V-RC-4: the cells of a block whose last coefficient is at position 15. -/
theorem test_walk_last_position :
    walk 3 2 (List.replicate 15 0 ++ [-1]) =
      .cell true 814 :: [815, 826, 859, 892, 991, 925, 958, 991, 991, 991, 991, 991, 991, 991, 991].map (.cell false) ++
        [.cell true 1024, .cell false 1025, .sign true] := by decide +kernel

/-- V-RC-1, v = 131 and v = 10. -/
theorem test_walk_categories :
    magnitudeDecisions (792 + ·) 131 =
        [.cell true 794, .cell true 795, .cell true 798, .cell true 800, .cell true 802, .fixed false 254,
          .fixed false 254, .fixed false 243, .fixed false 230, .fixed true 196, .fixed false 177, .fixed false 153,
          .fixed false 140, .fixed false 133, .fixed false 130, .fixed false 129] ∧
      magnitudeDecisions (792 + ·) 10 =
        [.cell true 794, .cell true 795, .cell false 798, .cell true 799, .fixed true 165, .fixed true 145] := by
  decide +kernel

/-- V-BW-15a and V-EN-3: a fault through `step`, and the next command without effect. -/
theorem test_step_fault_is_sticky :
    step { stateR with hostQueue := [.write 0 4 0x240001C8, .write 0 4 0x20000000] } =
        .next { stateR with
          hostQueue := [.write 0 4 0x20000000], hostResp := .done, tick := 1
          latch := { faulted := true, code := .wrongState, cmd := 0x240001C8, info := 0 } } ∧
      step { stateR.faultedBy 0x240001C8 .wrongState 0 with hostQueue := [.write 0 4 0x20000000] } =
        .next { stateR.faultedBy 0x240001C8 .wrongState 0 with hostQueue := [], hostResp := .done, tick := 1 } :=
  ⟨rfl, rfl⟩

/-- Rule R205: accesses of the wrong width or between two elements reach nothing. -/
theorem test_host_widths :
    accessed testParams 0x4002 2 = some (.coef 1) ∧ accessed testParams 0x4002 1 = none ∧
      accessed testParams 0x4003 2 = none ∧ accessed testParams 0x000C4 4 = some (.bitCountHalf 1) ∧
      accessed testParams 0x10000 4 = some (.nz 0) ∧ accessed testParams 0x034 4 = none ∧
      accessed testParams 0x6020 1 = some (.uLeft 0) ∧ accessed testParams 0x400FFFFF 1 = some (.out 1048575) ∧
      accessed testParams 0x40100000 1 = none := by decide +kernel

/-! ## The hypotheses of the statements can be met -/

theorem reset_stats_length : State.reset.rc.stats.length = 1056 := by
  simp only [State.reset, State.resetWith, Rc.reset, List.length_replicate, numCells]

theorem reset_prob_length : State.reset.rc.prob.length = 1056 := by
  simp only [State.reset, State.resetWith, Rc.reset, List.length_map, List.length_range, numCells]

theorem outCap_pos : 1 ≤ Config.params.outCap := Nat.le_add_left 1 _

theorem outCap_le : Config.params.outCap ≤ 2 ^ 28 := Config.outCapLessOne.isLt

theorem maxMbW_pos : 1 ≤ Config.params.maxMbW := Nat.le_add_left 1 _

theorem maxMbW_le : Config.params.maxMbW ≤ 2048 := Config.maxMbWLessOne.isLt

theorem maxMbH_pos : 1 ≤ Config.params.maxMbH := Nat.le_add_left 1 _

/-- The machine after reset with the given bit writer. -/
def withWriter (b : Bw) : State := State.reset.withBw b

/-- The machine after reset and BW_INIT. -/
def started : State := withWriter (writer 254 0 (-8) 0 0 [])

/-- The machine after reset with the given iterator. -/
def withGrid (m : Mi) : State := State.reset.withMi m

/-- The machine after reset with the listed host events to perform. -/
def hosting (q : List HostEvent) : State := { State.reset with hostQueue := q }

theorem coding_of {b : Bw} (h : b.st = .writing) (hok : b.ok) : (withWriter b).coding := ⟨rfl, h, hok⟩

theorem started_coding : started.coding := coding_of rfl (by unfold Bw.ok; decide)

/-- One coded bit that makes one Flush fits into any OUT. -/
theorem roomFor_of {s : State} {ds : List CodedBit}
    (h : s.bw.pos.toNat + s.bw.run.toNat + flushCount s.bw.nbits.toInt (totalShift s.bw.range.toNat ds) ≤ 1) :
    s.roomFor ds := Nat.le_trans h outCap_pos

theorem witness_DecodeInvertsEncode :
    ∀ i ∈ [Instr.bwPutbits 1 0, .bwPutbits 16 0xFFFF, .bwPutsbits 0 0x8000, .bwPutsbits 15 0x7FFF,
      .rcCodeBlock 0 0 0, .rcRecordBlock 24 3 2, .bwPutbit true 255], i.wellFormed = true := by decide

theorem witness_EncodeInvertsDecode :
    decode 0x2C10FFFF = .ok (.bwPutbits 16 0xFFFF) ∧ decode 0x64001832 = .ok (.rcRecordBlock 24 3 2) := by decide

theorem witness_StepRunsDecodedCommand :
    (hosting [.write 0 4 0x20000000]).hostQueue = .write 0 4 0x20000000 :: [] ∧
      decode 0x20000000 = .ok .bwInit := ⟨rfl, by decide⟩

theorem witness_IllegalWordRaisesFault :
    (hosting [.write 0 4 0]).hostQueue = .write 0 4 0 :: [] ∧ decode 0 = .error .reservedOpcode :=
  ⟨rfl, by decide⟩

/-- For a command, for a read of STATUS and of another register, for a write, and for hardware reset. -/
theorem witness_FaultedMachineIgnoresCommands :
    (∀ e ∈ [HostEvent.write 0 4 0x08000001, .read 0x004 4, .read 0x010 4, .write 0x010 4 7, .hardReset],
        ((hosting [e]).faultedBy 0 .illegalCommand 0).hostQueue = [e] ∧
          ((hosting [e]).faultedBy 0 .illegalCommand 0).latch.faulted = true) ∧
      commandOf (.write 0 4 0x08000001) = some 0x08000001 ∧ (0x08000001 : Word) ≠ 0x08000000 ∧
      ∀ e ∈ [HostEvent.read 0x004 4, .read 0x010 4, .write 0x010 4 7, .hardReset], commandOf e = none :=
  ⟨fun _ _ => ⟨rfl, rfl⟩, by decide, by decide, by decide⟩

theorem reset_miAdvance :
    exec .miAdvance State.reset = .next (State.reset.faultedBy (encode .miAdvance) .noMacroblock 0) := rfl

theorem witness_FaultsArePrecise :
    State.reset.running ∧
      exec .miAdvance State.reset = .next (State.reset.faultedBy (encode .miAdvance) .noMacroblock 0) ∧
      (State.reset.faultedBy (encode .miAdvance) .noMacroblock 0).latch.faulted = true :=
  ⟨rfl, reset_miAdvance, rfl⟩

theorem witness_StepKeepsLatchOk :
    State.reset.latchOk ∧ step State.reset = .next State.reset ∧
      (State.reset.faultedBy 0 .illegalCommand 0).latchOk ∧
      ∃ t, step (State.reset.faultedBy 0 .illegalCommand 0) = .next t :=
  ⟨⟨rfl, rfl, rfl⟩, rfl, (by decide : ErrCode.illegalCommand ≠ .none), _, rfl⟩

/-- A command that changes registers, and one that only takes a fault. -/
theorem witness_OnlyNamedCommandsWrite :
    (∃ t, exec .bwInit State.reset = .next t ∧ t.bw.range ≠ State.reset.bw.range) ∧ Instr.bwInit ≠ .softReset ∧
      (∃ t, exec .miAdvance State.reset = .next t ∧ t.latch ≠ State.reset.latch) ∧ Instr.miAdvance ≠ .softReset :=
  ⟨⟨_, rfl, by decide⟩, by decide, ⟨_, reset_miAdvance, by decide⟩, by decide⟩

/-- For MI_IMPORT, for MI_EXPORT and for another command. -/
theorem witness_SourceMemoryIsIsolated :
    (∃ t, exec .bwInit State.reset = .next t) ∧ Instr.bwInit ≠ .miImport ∧ Instr.bwInit ≠ .miExport ∧
      (∃ t, exec .miImport State.reset = .next t) ∧ ∃ t, exec .miExport State.reset = .next t :=
  ⟨⟨_, rfl⟩, by decide, by decide, ⟨_, rfl⟩, ⟨_, rfl⟩⟩

theorem witness_BwInitStartsWriter : State.reset.running ∧ started.running := ⟨rfl, rfl⟩

/-- Without a shift, and with a shift that just reaches NBITS = 0. -/
theorem witness_PutBitNarrowsInterval :
    started.coding ∧ started.bw.nbits.toInt + shiftOf started.bw.range.toNat (false, 200) ≤ 0 ∧
      (withWriter (writer 254 0 (-2) 0 0 [])).coding ∧
      (-2 : BitVec 8).toInt + shiftOf 254 (true, 200) = 0 :=
  ⟨started_coding, by decide +kernel, coding_of rfl (by unfold Bw.ok; decide), by decide +kernel⟩

/-- A byte that is written, and a byte 0xFF. -/
theorem witness_PutBitFlushesByte :
    (withWriter (writer 254 0 0 0 0 [])).coding ∧
      (0 : BitVec 8).toInt + shiftOf 254 (true, 200) = 2 ∧ (0 + 199) * 2 ^ 2 / 2 ^ 10 % 256 ≠ 255 ∧
      0 + 0 + 1 ≤ Config.params.outCap ∧
      (withWriter (writer 127 0xFF00 0 0 0 [])).coding ∧
      (0 : BitVec 8).toInt + shiftOf 127 (false, 128) = 1 ∧ 0xFF00 * 2 ^ 1 / 2 ^ 9 % 256 = 255 :=
  ⟨coding_of rfl (by unfold Bw.ok; decide), by decide +kernel, by decide, outCap_pos,
    coding_of rfl (by unfold Bw.ok; decide), by decide +kernel, by decide⟩

theorem witness_PutBitWithoutRoomFaults :
    (withWriter (writer 254 0 0 0x10000000 0 [])).coding ∧
      0 < (0 : BitVec 8).toInt + shiftOf 254 (true, 200) ∧ (0 + 199) * 2 ^ 2 / 2 ^ 10 % 256 ≠ 255 ∧
      Config.params.outCap < 0 + (0x10000000 : BitVec 32).toNat + 1 :=
  ⟨coding_of rfl (by unfold Bw.ok; decide), by decide +kernel, by decide,
    Nat.lt_of_le_of_lt outCap_le (by decide)⟩

/-- Without a Flush, and with one. -/
theorem witness_UniformBitIsHalf :
    started.coding ∧ started.roomFor [(true, 128)] ∧ (withWriter (writer 127 0 0 0 0 [])).coding ∧
      (withWriter (writer 127 0 0 0 0 [])).roomFor [(false, 128)] :=
  ⟨started_coding, roomFor_of (by decide +kernel), coding_of rfl (by unfold Bw.ok; decide),
    roomFor_of (by decide +kernel)⟩

/-- The least and the greatest NB. -/
theorem witness_PutBitsIsUniformBits :
    started.coding ∧ putbitsCountOk 1 = true ∧ putbitsCountOk 16 = true ∧
      (started.roomFor ((List.range 1).reverse.map fun k => ((1 : BitVec 16).getLsbD k, 128))) ∧
      started.roomFor ((List.range 16).reverse.map fun k => ((0xFFFF : BitVec 16).getLsbD k, 128)) :=
  ⟨started_coding, by decide, by decide, roomFor_of (by decide +kernel), roomFor_of (by decide +kernel)⟩

/-- A negative value, a positive one with NB = 0, and 0 with the greatest NB. -/
theorem witness_PutSignedBitsIsUniformBits :
    started.coding ∧ putsbitsCountOk 14 = true ∧ putsbitsCountOk 0 = true ∧ putsbitsCountOk 15 = true ∧
      (started.roomFor ((true :: (List.range 15).reverse.map fun k => (7 : Nat).testBit k).map fun b => (b, 128))) ∧
      (-3 : BitVec 16).toInt = -3 ∧
      (started.roomFor ((true :: (List.range 1).reverse.map fun k => (10 : Nat).testBit k).map fun b => (b, 128))) ∧
      started.roomFor [(false, 128)] :=
  ⟨started_coding, by decide, by decide, by decide, roomFor_of (by decide +kernel), by decide,
    roomFor_of (by decide +kernel), roomFor_of (by decide +kernel)⟩

theorem witness_BwFinishClosesStream :
    (withWriter (writer 253 0x100 (-7) 0 0 [])).coding ∧ (253 : BitVec 8).toNat ≤ 253 ∧
      (withWriter (writer 127 0 0 0xFFFFFFFC 0 [])).coding ∧ (0xFFFFFFFC : BitVec 32).toNat + 3 < 2 ^ 32 :=
  ⟨coding_of rfl (by unfold Bw.ok; decide), by decide, coding_of rfl (by unfold Bw.ok; decide), by decide⟩

theorem witness_BwFinishWithNothingCoded :
    State.reset.running ∧ State.reset.bw.st = .empty ∧
      (withWriter { Bw.reset with st := .finished }).running ∧
      (withWriter { Bw.reset with st := .finished }).bw.st = .finished := ⟨rfl, rfl, rfl, rfl⟩

theorem hasMacroblock_of {m : Mi} (h : m.valid = true) (h' : m.countdown ≠ 0) : (withGrid m).hasMacroblock := ⟨h, h'⟩

/-- Each command, in EMPTY and in FINISHED. -/
theorem witness_BitCommandsNeedWriting :
    State.reset.running ∧ State.reset.bw.st ≠ .writing ∧
      (withWriter { Bw.reset with st := .finished }).running ∧
      (withWriter { Bw.reset with st := .finished }).bw.st ≠ .writing ∧
      (withGrid (gridAt 0 0 1 1)).running ∧ (withGrid (gridAt 0 0 1 1)).bw.st ≠ .writing ∧
      (withGrid (gridAt 0 0 1 1)).hasMacroblock :=
  ⟨rfl, by decide, rfl, by decide, rfl, by decide, hasMacroblock_of rfl (by decide)⟩

theorem outOk_of_pos {b : Bw} (h : b.pos = 0) : b.outOk :=
  ⟨fun i hi => by simp [h] at hi, fun _ hp => by simp [h] at hp⟩

theorem witness_WriterComputesExactCode :
    started.coding ∧ started.bw.outOk ∧ started.roomFor [(true, 200), (false, 3), (true, 255)] :=
  ⟨started_coding, outOk_of_pos rfl, roomFor_of (by decide +kernel)⟩

theorem witness_DecoderReadsBackWhatWasCoded :
    testParams.outCap ≤ 2 ^ 28 ∧ [(true, (200 : Byte))].length < 2 ^ 31 ∧
      encodeBits testParams 0 [(true, 200)] (initBw Bw.reset) =
        .ok { writer 223 0x31C (-6) 0 0 [] with lastBit := true } ∧
      finishBw testParams 0 { writer 223 0x31C (-6) 0 0 [] with lastBit := true } =
        .ok { writer 223 0 (-8) 0 3 [(0, 0xC7), (1, 0), (2, 0)] with st := .finished } := by
  refine ⟨by decide, by decide, by decide +kernel, by decide +kernel⟩

theorem reset_writerOk : State.reset.writerOk :=
  ⟨by decide, fun _ => ⟨outOk_of_pos rfl, Nat.zero_le _, fun h => by cases h⟩⟩

/-- In EMPTY and in WRITING. -/
theorem witness_StepKeepsWriterOk :
    State.reset.writerOk ∧ step State.reset = .next State.reset ∧ started.writerOk ∧ step started = .next started :=
  ⟨reset_writerOk, rfl,
    ⟨by decide, fun _ => ⟨outOk_of_pos rfl, Nat.zero_le _, fun _ => started_coding.2.2⟩⟩, rfl⟩

/-- In WRITING and in another state of the writer. -/
theorem witness_WrittenBytesSettle :
    (∃ t, exec (.bwPutbit false 200) started = .next t ∧ t.running) ∧ started.running ∧
      exec .nop State.reset = .next State.reset ∧ State.reset.running ∧ State.reset.bw.st ≠ .writing ∧
      Instr.nop ≠ .bwInit ∧ Instr.nop ≠ .softReset :=
  ⟨⟨_, rfl, rfl⟩, rfl, rfl, rfl, by decide, by decide, by decide⟩

/-- Before MI_RESET, and at the end of the grid. -/
theorem witness_NoMacroblockFaults :
    State.reset.running ∧ ¬ State.reset.hasMacroblock ∧ ¬ (withGrid (gridAt 0 1 1 1)).hasMacroblock :=
  ⟨rfl, fun h => (by cases h.1), fun h => h.2 rfl⟩

/-- The configuration registers of an image, and the rest after reset. -/
def image (w h : Nat) (m : Mi) : State :=
  (withGrid m).withCfg { Cfg.reset with width := BitVec.ofNat 16 w, height := BitVec.ofNat 16 h }

/-- The smallest image, and the largest of one macroblock. -/
theorem witness_MiResetStartsGrid :
    ∀ n ∈ [1, 16], (image n n Mi.reset).running ∧ (image n n Mi.reset).cfg.width ≠ 0 ∧
      (image n n Mi.reset).cfg.height ≠ 0 ∧
      ((image n n Mi.reset).cfg.width.toNat + 15) / 16 ≤ Config.params.maxMbW ∧
      ((image n n Mi.reset).cfg.height.toNat + 15) / 16 ≤ Config.params.maxMbH := by
  simp only [List.mem_cons, List.not_mem_nil, or_false, forall_eq_or_imp, forall_eq]
  exact ⟨⟨rfl, by decide, by decide, maxMbW_pos, maxMbH_pos⟩, rfl, by decide, by decide, maxMbW_pos, maxMbH_pos⟩

/-- No width, no height, a width above every MAX_MB_W, and a size that left the grid. -/
theorem witness_BadDimensionsFault :
    (image 0 1 Mi.reset).running ∧ (image 0 1 Mi.reset).cfg.width = 0 ∧ (image 1 0 Mi.reset).cfg.height = 0 ∧
      Config.params.maxMbW < ((image 65535 1 Mi.reset).cfg.width.toNat + 15) / 16 ∧
      (image 17 16 (gridAt 0 0 1 1)).hasMacroblock ∧
      ((image 17 16 (gridAt 0 0 1 1)).cfg.width.toNat + 15) / 16 ≠ (gridAt 0 0 1 1).mbw.toNat ∧
      ((image 16 17 (gridAt 0 0 1 1)).cfg.height.toNat + 15) / 16 ≠ (gridAt 0 0 1 1).mbh.toNat :=
  ⟨rfl, rfl, rfl, Nat.lt_of_le_of_lt maxMbW_le (by decide), ⟨rfl, by decide⟩, by decide, by decide⟩

/-- At a macroblock with one row and column inside the image, and at a whole one. -/
theorem witness_MiImportFillsBuffer :
    ∀ s ∈ [image 17 17 (gridAt 1 1 2 2), image 16 16 (gridAt 0 0 1 1)], s.running ∧ s.hasMacroblock ∧
      (s.cfg.width.toNat + 15) / 16 = s.mi.mbw.toNat ∧ (s.cfg.height.toNat + 15) / 16 = s.mi.mbh.toNat ∧
      16 * s.mi.x.toNat < s.cfg.width.toNat ∧ 16 * s.mi.y.toNat < s.cfg.height.toNat := by
  simp only [List.mem_cons, List.not_mem_nil, or_false, forall_eq_or_imp, forall_eq]
  exact ⟨⟨rfl, ⟨rfl, by decide⟩, by decide, by decide, by decide, by decide⟩,
    rfl, ⟨rfl, by decide⟩, by decide, by decide, by decide, by decide⟩

theorem witness_MiExportWritesPlanes :
    ∀ s ∈ [image 17 17 (gridAt 1 1 2 2), image 16 16 (gridAt 0 0 1 1)], s.running ∧ s.hasMacroblock ∧
      (s.cfg.width.toNat + 15) / 16 = s.mi.mbw.toNat ∧ (s.cfg.height.toNat + 15) / 16 = s.mi.mbh.toNat :=
  fun s hs => ⟨(witness_MiImportFillsBuffer s hs).1, (witness_MiImportFillsBuffer s hs).2.1,
    (witness_MiImportFillsBuffer s hs).2.2.1, (witness_MiImportFillsBuffer s hs).2.2.2.1⟩

/-- With and without a macroblock to the right and a row below. -/
theorem witness_MiSaveBoundaryFillsCaches :
    ∀ m ∈ [gridAt 0 0 2 2, gridAt 1 1 2 2], (withGrid m).running ∧ (withGrid m).hasMacroblock := by
  simp only [List.mem_cons, List.not_mem_nil, or_false, forall_eq_or_imp, forall_eq]
  exact ⟨⟨rfl, rfl, by decide⟩, rfl, rfl, by decide⟩

/-- To the next column, and to the next row. -/
theorem witness_MiAdvanceMovesOn :
    ((withGrid (gridAt 0 0 2 2)).running ∧ (withGrid (gridAt 0 0 2 2)).hasMacroblock ∧
        (gridAt 0 0 2 2).x + 1 ≠ (gridAt 0 0 2 2).mbw) ∧
      (withGrid (gridAt 1 1 2 2)).running ∧ (withGrid (gridAt 1 1 2 2)).hasMacroblock ∧
        (gridAt 1 1 2 2).x + 1 = (gridAt 1 1 2 2).mbw ∧ (gridAt 1 1 2 2).countdown = 1 :=
  ⟨⟨rfl, ⟨rfl, by decide⟩, by decide⟩, rfl, ⟨rfl, by decide⟩, by decide, by decide⟩

/-- In column 0, and beside another macroblock. -/
theorem witness_MiNzToFlagsUnpacks :
    ∀ m ∈ [gridAt 0 0 2 2, gridAt 1 1 2 2], (withGrid m).running ∧ (withGrid m).hasMacroblock :=
  witness_MiSaveBoundaryFillsCaches

theorem witness_MiFlagsToNzPacks :
    (withGrid (gridAt 1 1 2 2)).running ∧ (withGrid (gridAt 1 1 2 2)).hasMacroblock := ⟨rfl, rfl, by decide⟩

/-- For intra-4 and intra-16. -/
theorem witness_MiSkipNzUpdatesSummary :
    (withGrid (gridAt 0 0 1 1)).running ∧ (withGrid (gridAt 0 0 1 1)).hasMacroblock ∧
      (withGrid (gridAt 0 0 1 1)).cfg.mbType = 0 ∧
      ((withGrid (gridAt 0 0 1 1)).withCfg { Cfg.reset with mbType := 1 }).running ∧
      ((withGrid (gridAt 0 0 1 1)).withCfg { Cfg.reset with mbType := 1 }).hasMacroblock :=
  ⟨rfl, ⟨rfl, by decide⟩, rfl, rfl, rfl, by decide⟩

theorem witness_AdvanceVisitsRasterOrder :
    (image 16 16 Mi.reset).running ∧
      ∃ t, exec .miReset (image 16 16 Mi.reset) = .next t ∧ t.running ∧ 1 ≤ t.mi.mbw.toNat * t.mi.mbh.toNat := by
  have hb : ∃ t, resetBody Config.params (image 16 16 Mi.reset) = .ok t ∧ t.running ∧
      1 ≤ t.mi.mbw.toNat * t.mi.mbh.toNat := by
    unfold resetBody
    simp only
    rw [if_neg]
    · exact ⟨_, rfl, rfl, by decide⟩
    · rintro (h | h | h | h)
      · exact absurd h (by decide)
      · exact absurd h (by decide)
      · exact absurd maxMbW_pos (Nat.not_le.mpr h)
      · exact absurd maxMbH_pos (Nat.not_le.mpr h)
  obtain ⟨t, h1, h2, h3⟩ := hb
  exact ⟨rfl, t, exec_of_ok (by decide) rfl h1, h2, h3⟩

theorem iteratorOk_one : (withGrid (gridAt 0 0 1 1)).iteratorOk := fun _ =>
  ⟨by decide, maxMbW_pos, by decide, maxMbH_pos, by decide, by decide, by decide⟩

/-- Before MI_RESET, at a macroblock, and at the end of the grid. -/
theorem witness_StepKeepsIteratorOk :
    State.reset.iteratorOk ∧ step State.reset = .next State.reset ∧
      (withGrid (gridAt 0 0 1 1)).iteratorOk ∧
      step (withGrid (gridAt 0 0 1 1)) = .next (withGrid (gridAt 0 0 1 1)) ∧
      (withGrid (gridAt 0 1 1 1)).iteratorOk :=
  ⟨fun h => (by cases h), rfl, iteratorOk_one, rfl, fun _ =>
    ⟨by decide, maxMbW_pos, by decide, maxMbH_pos, by decide, by decide, by decide⟩⟩

/-- The largest magnitude, and type 0 with nothing at position 0. -/
theorem witness_WalkFollowsTokenTable :
    (3 : Nat) < 4 ∧ (2114 :: List.replicate 15 (-2114 : Int)).length = 16 ∧
      blockLegal 3 (2114 :: List.replicate 15 (-2114)) ∧ (0 :: List.replicate 15 (-2114 : Int)).length = 16 ∧
      blockLegal 0 (0 :: List.replicate 15 (-2114)) := by
  unfold blockLegal
  decide +kernel

theorem witness_WalkDeterminesBlock :
    (0 :: List.replicate 15 (-2114 : Int)).length = 16 ∧ blockLegal 0 (0 :: List.replicate 15 (-2114)) ∧
      walk 0 2 (0 :: List.replicate 15 (-2114)) = walk 0 2 (0 :: List.replicate 15 (-2114)) :=
  ⟨rfl, witness_WalkFollowsTokenTable.2.2.2.2, rfl⟩

theorem witness_ExtraBitCounts : ∀ v ∈ [1, 4, 5, 6, 7, 10, 11, 18, 19, 34, 35, 66, 67, 2114], 1 ≤ v ∧ v ≤ 2114 := by
  decide

/-- The machine after reset with a writer in WRITING, the listed coefficients in slot 1, 0 in its other positions,
every probability 128, and one macroblock. -/
def blockState (l : List (Nat × BitVec 16)) : State :=
  started.withRc { started.rc with
    coef := cellSetAll ((List.range 16).map fun n => (16 + n, 0)) (l.map fun c => (16 + c.1, c.2))
    prob := List.replicate 1056 128 }

theorem blockState_coding (l : List (Nat × BitVec 16)) : (blockState l).coding :=
  ⟨rfl, rfl, (by unfold Bw.ok; decide : (writer 254 0 (-8) 0 0 []).ok)⟩

/-- A block with a coefficient, and a zero block. -/
theorem witness_RcCodeBlockCodesWalk :
    (∀ l ∈ [[(0, 1)], []], (blockState l).coding ∧ blockLegal 3 (blockCoefs Config.params (blockState l) 1)) ∧
      (blockState [(0, 1)]).roomFor
        ((walk 3 0 (blockCoefs Config.params (blockState [(0, 1)]) 1)).map (codedBit (blockState [(0, 1)]).rc)) ∧
      (blockState []).roomFor
        ((walk 3 0 (blockCoefs Config.params (blockState []) 1)).map (codedBit (blockState []).rc)) := by
  refine ⟨fun l hl => ⟨blockState_coding l, ?_⟩, roomFor_of (by decide +kernel), roomFor_of (by decide +kernel)⟩
  revert l
  unfold blockLegal
  decide +kernel

theorem witness_RcRecordBlockCountsWalk :
    (blockState [(0, 1)]).running ∧ blockLegal 3 (blockCoefs Config.params (blockState [(0, 1)]) 1) ∧
      (blockState [(0, 1)]).rc.stats.length = 1056 :=
  ⟨rfl, (witness_RcCodeBlockCodesWalk.1 _ (by simp)).2, by
    simp only [blockState, started, withWriter, State.withRc_rc, State.withBw_rc, reset_stats_length]⟩

/-- Below the threshold, at it, and the full pair. -/
theorem witness_RecordHalvesFullCounters :
    ([0, 0xFFFDFFFD, 0xFFFE0000, 0xFFFEFFFE, 0xFFFFFFFF] : List (BitVec 32)).all
      (fun p => decide (p.toNat % 65536 ≤ p.toNat / 65536)) = true := by decide

/-- A macroblock with every coefficient 0 and probabilities that shift nothing, of the given type. -/
def mbState (ty : BitVec 1) : State :=
  ((started.withRc { started.rc with coef := cellFill [] 0 0 400, prob := List.replicate 1056 254 }).withMi
    { gridAt 0 0 1 1 with nz := [(0, 0)], leftNz := [(8, 0)] }).withCfg { Cfg.reset with mbType := ty }

theorem mbState_coding (ty : BitVec 1) : (mbState ty).coding :=
  ⟨rfl, rfl, (by unfold Bw.ok; decide : (writer 254 0 (-8) 0 0 []).ok)⟩

theorem mbState_hasMacroblock (ty : BitVec 1) : (mbState ty).hasMacroblock :=
  ⟨rfl, (by decide : (gridAt 0 0 1 1).countdown ≠ 0)⟩

theorem mbState_coefs (ty : BitVec 1) {slot : Nat} (h : slot < 25) :
    blockCoefs Config.params (mbState ty) slot = List.replicate 16 0 := by
  rw [List.eq_replicate_iff]
  refine ⟨blockCoefs_length _ _ _, fun x hx => ?_⟩
  obtain ⟨n, hn, rfl⟩ := List.mem_map.mp hx
  have hn := List.mem_range.mp hn
  have : cellGet (mbState ty).rc.coef (16 * slot + n) = some 0 := by
    simp only [mbState, State.withCfg_rc, State.withMi_rc, State.withRc_rc]
    rw [cellGet_cellFill, if_pos (by omega)]
  rw [readCell, this]
  rfl

theorem planeUses_bounds (s : State) (base n flag ty : Nat) :
    ∀ u ∈ s.planeUses base n flag ty, u.slot < base + n * n ∧ u.ty = ty ∧ u.ctx ≤ 2 := by
  intro u hu
  obtain ⟨yx, hyx, rfl⟩ := List.mem_map.mp hu
  obtain ⟨y, hy, h⟩ := List.mem_flatMap.mp hyx
  obtain ⟨x, hx, rfl⟩ := List.mem_map.mp h
  have hy := List.mem_range.mp hy
  have hx := List.mem_range.mp hx
  refine ⟨?_, rfl, Nat.add_le_add (Bool.toNat_le _) (Bool.toNat_le _)⟩
  have : n * y + n ≤ n * n := by
    rw [← Nat.mul_succ]
    exact Nat.mul_le_mul_left n hy
  show base + x + n * y < base + n * n
  omega

theorem uses_bounds (s : State) : ∀ u ∈ s.lumaUses ++ s.chromaUses, u.slot < 25 ∧ u.ty < 4 ∧ u.ctx ≤ 2 := by
  intro u hu
  have key : ∀ base n flag ty, base + n * n ≤ 25 → ty < 4 → u ∈ s.planeUses base n flag ty →
      u.slot < 25 ∧ u.ty < 4 ∧ u.ctx ≤ 2 := fun base n flag ty h1 h2 h => by
    obtain ⟨h3, h4, h5⟩ := planeUses_bounds s base n flag ty u h
    omega
  rcases List.mem_append.mp hu with h | h
  · unfold State.lumaUses at h
    split at h
    · rcases List.mem_cons.mp h with rfl | h
      · exact ⟨by simp, by simp, Nat.add_le_add (Bool.toNat_le _) (Bool.toNat_le _)⟩
      · exact key _ _ _ _ (by decide) (by decide) h
    · exact key _ _ _ _ (by decide) (by decide) h
  · rcases List.mem_append.mp h with h | h
    · exact key _ _ _ _ (by decide) (by decide) h
    · exact key _ _ _ _ (by decide) (by decide) h

/-- A zero block is one decision, here with probability 254. -/
theorem mbState_bits (ty : BitVec 1) (us : List BlockUse) (h : ∀ u ∈ us, u.slot < 25 ∧ u.ty < 4 ∧ u.ctx ≤ 2) :
    (mbState ty).usesBits us = List.replicate us.length (false, 254) := by
  induction us with
  | nil => rfl
  | cons u us ih =>
    obtain ⟨h1, h2, h3⟩ := h u (by simp)
    have hw : ∀ t < 4, ∀ c ≤ 2, walk t c (List.replicate 16 0) = [.cell false (cellIx t (firstPos t) c 0)] ∧
        cellIx t (firstPos t) c 0 < 1056 := by decide +kernel
    have hp : probAt (mbState ty).rc (cellIx u.ty (firstPos u.ty) u.ctx 0) = 254 := by
      show (List.replicate 1056 (254 : Byte)).getD _ 0 = 254
      rw [List.getD_eq_getElem?_getD, List.getElem?_replicate, if_pos (hw _ h2 _ h3).2]
      rfl
    have ih := ih fun v hv => h v (by simp [hv])
    unfold State.usesBits at ih ⊢
    rw [List.flatMap_cons, ih, mbState_coefs ty h1, (hw _ h2 _ h3).1, List.map_singleton, codedBit, hp]
    rfl

theorem witness_RcCodeMbCodesItsBlocks :
    ∀ ty : BitVec 1, (mbState ty).coding ∧ (mbState ty).hasMacroblock ∧ (mbState ty).mbLegal ∧
      (mbState ty).roomFor ((mbState ty).usesBits ((mbState ty).lumaUses ++ (mbState ty).chromaUses)) ∧
      (mbState ty).mi.bitCount.length = 12 := by
  intro ty
  refine ⟨mbState_coding ty, mbState_hasMacroblock ty, fun u hu => ?_, ?_, rfl⟩
  · rw [mbState_coefs ty (uses_bounds _ u hu).1]
    exact ⟨by decide, fun _ => rfl⟩
  · rw [mbState_bits ty _ (uses_bounds _)]
    have : ((mbState ty).lumaUses ++ (mbState ty).chromaUses).length ≤ 25 := by
      rw [List.length_append]
      unfold State.lumaUses State.chromaUses
      split <;> (simp only [List.length_cons, List.length_append, State.planeUses, List.length_map]; decide)
    have key : ∀ n ≤ 25, flushCount (-8 : BitVec 8).toInt (totalShift 254 (List.replicate n (false, 254))) ≤ 1 := by
      decide +kernel
    refine roomFor_of ?_
    show 0 + 0 + flushCount (-8 : BitVec 8).toInt (totalShift 254 _) ≤ 1
    rw [Nat.zero_add]
    exact key _ this

theorem witness_RcRecordMbCountsItsBlocks :
    ∀ ty : BitVec 1, (mbState ty).running ∧ (mbState ty).hasMacroblock ∧ (mbState ty).mbLegal :=
  fun ty => ⟨rfl, (witness_RcCodeMbCodesItsBlocks ty).2.1, (witness_RcCodeMbCodesItsBlocks ty).2.2.1⟩

/-- The macroblock with other coefficients, listed as (index in COEF, value). -/
def badMbState (ty : BitVec 1) (l : List (Nat × BitVec 16)) : State :=
  (mbState ty).withRc { (mbState ty).rc with coef := cellSetAll (mbState ty).rc.coef l }

theorem badMbState_ready (ty : BitVec 1) (l : List (Nat × BitVec 16)) :
    (badMbState ty l).running ∧ (badMbState ty l).bw.st = .writing ∧ (badMbState ty l).hasMacroblock ∧
      (badMbState ty l).cfg = { Cfg.reset with mbType := ty } := by
  unfold badMbState State.running State.hasMacroblock
  simp only [State.withRc_latch, State.withRc_bw, State.withRc_mi, State.withRc_cfg]
  exact ⟨(mbState_coding ty).1, (mbState_coding ty).2.1, mbState_hasMacroblock ty, rfl⟩

theorem blockFault_of_large {s : State} {slot ty n : Nat} (hn : n < 16) (ht : ty ≠ 0)
    (hp : ∀ m < n, ((blockCoefs Config.params s slot).getD m 0).natAbs ≤ 2114)
    (hl : 2114 < ((blockCoefs Config.params s slot).getD n 0).natAbs) :
    s.blockFault slot ty .coeffRange ((slot <<< 4) ||| n) :=
  .inr ⟨n, hn, fun h => absurd h ht, hp, hl, rfl, rfl⟩

/-- The first position, and the last one; both block commands. -/
theorem witness_IllegalBlocksFault :
    (blockState [(0, 1)]).running ∧ (blockState [(0, 1)]).bw.st = .writing ∧
      (blockState [(0, 1)]).blockFault 1 0 .firstCoeffNonzero (1 <<< 4) ∧
      (blockState [(15, 2115)]).blockFault 1 3 .coeffRange ((1 <<< 4) ||| 15) ∧
      (blockState [(0, 0xF7BD)]).blockFault 1 3 .coeffRange ((1 <<< 4) ||| 0) :=
  ⟨rfl, rfl, .inl ⟨rfl, by decide +kernel, rfl, rfl⟩,
    blockFault_of_large (by decide) (by decide) (by decide +kernel) (by decide +kernel),
    blockFault_of_large (by decide) (by decide) (by decide +kernel) (by decide +kernel)⟩

/-- For a macroblock, in cases of V-RC-13 (`badMbState_ready`): slot 5 of an intra-16 macroblock after a legal DC value,
and slot 2 of an intra-4 one, before slot 3. -/
theorem witness_IllegalBlocksFault_macroblock :
    ((∀ k < 5, blockLegal (if k = 0 then 1 else 0) (blockCoefs Config.params (badMbState 1 [(0, 2114), (80, 1)]) k)) ∧
      (badMbState 1 [(0, 2114), (80, 1)]).blockFault 5 0 .firstCoeffNonzero (5 <<< 4)) ∧
      blockLegal 3 (blockCoefs Config.params (badMbState 0 [(53, 3000), (41, 0xF7BD)]) 1) ∧
        (badMbState 0 [(53, 3000), (41, 0xF7BD)]).blockFault 2 3 .coeffRange ((2 <<< 4) ||| 9) := by
  refine ⟨⟨?_, .inl ⟨rfl, by decide +kernel, rfl, rfl⟩⟩, ?_,
    blockFault_of_large (by decide) (by decide) (by decide +kernel) (by decide +kernel)⟩
  · unfold blockLegal
    decide +kernel
  · unfold blockLegal
    decide +kernel

theorem witness_StatsResetAndDefaultLoad : State.reset.running ∧ started.running := ⟨rfl, rfl⟩

theorem statsOk_of_replicate {s : State} {n : Nat} (h : s.rc.stats = List.replicate n 0) : s.statsOk := by
  intro w hw
  rw [h] at hw
  rw [List.eq_of_mem_replicate hw]
  decide

theorem reset_statsOk : State.reset.statsOk := statsOk_of_replicate (n := numCells) rfl

/-- With nothing recorded, and with a full cell. -/
theorem witness_RcFinalizeFitsCells :
    State.reset.running ∧ State.reset.statsOk ∧
      (State.reset.withRc { State.reset.rc with stats := [0xFFFFFFFF, 0x00010000] }).running ∧
      (State.reset.withRc { State.reset.rc with stats := [0xFFFFFFFF, 0x00010000] }).statsOk :=
  ⟨rfl, reset_statsOk, rfl, fun w hw => by
    rcases List.mem_cons.mp hw with rfl | hw
    · decide
    · rw [List.mem_singleton.mp hw]
      decide⟩

theorem witness_StepKeepsStatsOk : State.reset.statsOk ∧ step State.reset = .next State.reset := ⟨reset_statsOk, rfl⟩

theorem reset_storageOk : State.reset.storageOk :=
  ⟨⟨rfl, rfl⟩, ⟨rfl, rfl⟩, ⟨rfl, rfl⟩, ⟨rfl, rfl⟩, ⟨rfl, rfl⟩, ⟨rfl, rfl⟩, ⟨rfl, rfl⟩, ⟨rfl, rfl⟩, ⟨rfl, rfl⟩,
    ⟨rfl, rfl⟩, ⟨rfl, rfl⟩, ⟨rfl, rfl⟩, reset_prob_length, reset_stats_length, rfl, rfl⟩

theorem witness_StepKeepsStorageOk :
    State.reset.iteratorOk ∧ State.reset.storageOk ∧ step State.reset = .next State.reset :=
  ⟨fun h => (by cases h), reset_storageOk, rfl⟩

/-- A register, the high word of a counter, a mapped element, and the wrong width. -/
theorem witness_HostReadHasNoSideEffect :
    (hosting [.read 0x048 4]).hostQueue = .read 0x048 4 :: [] ∧
      (0x048, (hosting []).bw.nbits.toInt) ∈ (hosting []).registerValues ∧
      (∃ v ∈ (hosting []).arrayValues, v.bytes = 4 ∧ 23 < v.count ∧ (0x11C : Word).toNat = v.base + v.bytes * 23) ∧
      (hosting [.read 0x4002 2]).hostQueue = .read 0x4002 2 :: [] ∧ hostMaps (0x4002 : Word).toNat 2 (.coef 1) ∧
      (hosting [.read 4 2]).hostQueue = .read 4 2 :: [] :=
  ⟨rfl, by simp [State.registerValues], ⟨_, List.mem_cons_self, rfl, by decide, by decide⟩, rfl,
    .inr ⟨(0x4000, 400, 2, .coef), by simp [hostArrays], rfl, 1, by decide, by decide, rfl⟩, rfl⟩

/-- A register, the last element of each writable array, and a read-only element. -/
theorem witness_HostWriteStoresItsElement :
    (hosting [.write 0x10 4 0xFFFFFFFF]).hostQueue = .write 0x10 4 0xFFFFFFFF :: [] ∧
      ((0x10 : Word) = 0 → (4 : Nat) ≠ 4) ∧ (hosting []).rc.prob.length = 1056 ∧
      hostMaps (0x10 : Word).toNat 4 .cfgWidth ∧ HostElem.cfgWidth.writable = some 0xFFFF ∧
      hostMaps (0x141F : Word).toNat 1 (.prob 1055) ∧ hostMaps (0x431E : Word).toNat 2 (.coef 399) ∧
      hostMaps (0x53FF : Word).toNat 1 (.yuvOut 511) ∧ hostMaps (0x4 : Word).toNat 4 .status ∧
      HostElem.status.writable = none :=
  ⟨rfl, by decide, reset_prob_length,
    .inl ⟨rfl, by simp [hostRegisters]⟩, rfl,
    .inr ⟨(0x1000, 1056, 1, .prob), by simp [hostArrays], rfl, 1055, by decide, by decide, rfl⟩,
    .inr ⟨(0x4000, 400, 2, .coef), by simp [hostArrays], rfl, 399, by decide, by decide, rfl⟩,
    .inr ⟨(0x5200, 512, 1, .yuvOut), by simp [hostArrays], rfl, 511, by decide, by decide, rfl⟩,
    .inl ⟨rfl, by simp [hostRegisters]⟩, rfl⟩

theorem witness_SourceByteReadsBack :
    (hosting [.srcWrite 0xFFFFFFFF 7, .srcRead 0xFFFFFFFF]).hostQueue =
      .srcWrite 0xFFFFFFFF 7 :: .srcRead 0xFFFFFFFF :: [] := rfl

end Sys2Proof.Tests
end

section
/-! PROOF. Every step keeps the storage invariant (O54). Each part of the state has a predicate "canonical and
inside its size"; the operations on sparse arrays keep it, so the writer's Flush, the iterator's caches, the residual
coder's tables and the host's writes keep it, and so does every step. The iterator's invariant supplies the one bound
the arrays' indices need from the state: a current macroblock stands in a column below MAX_MB_W (rule R125). -/
namespace Sys2Proof.Machine

/-! ## Arrays inside their size -/

section
variable {α : Type} {n : Nat} {m : Cells α}

/-- The array is in canonical form and every index is below its size `n`. -/
structure CellsOk (n : Nat) (m : Cells α) : Prop where
  wf : cellsWf m = true
  below : cellsBelow n m = true

theorem cellsOk_iff : CellsOk n m ↔ cellsWf m = true ∧ cellsBelow n m = true :=
  ⟨fun h => ⟨h.wf, h.below⟩, fun h => ⟨h.1, h.2⟩⟩

theorem CellsOk.nil : CellsOk n ([] : Cells α) := ⟨rfl, rfl⟩

theorem CellsOk.cellSet (h : CellsOk n m) {k : Nat} (hk : k < n) (v : α) : CellsOk n (cellSet m k v) :=
  ⟨cellsWf_cellSet k v h.wf, cellsBelow_cellSet v hk h.below⟩

theorem CellsOk.cellSetAll (h : CellsOk n m) {l : List (Nat × α)} (hl : ∀ c ∈ l, c.1 < n) :
    CellsOk n (cellSetAll m l) :=
  ⟨cellsWf_cellSetAll l h.wf, cellsBelow_cellSetAll l hl h.below⟩

theorem CellsOk.cellFill (h : CellsOk n m) {k j : Nat} (hk : k + j ≤ n) (v : α) : CellsOk n (cellFill m k v j) :=
  ⟨cellsWf_cellFill k v j h.wf, cellsBelow_cellFill k v j hk h.below⟩

theorem CellsOk.cellErase (h : CellsOk n m) (k : Nat) : CellsOk n (cellErase m k) :=
  ⟨cellsWf_cellErase k h.wf, cellsBelow_cellErase k h.below⟩

end

/-! ## The parts of the invariant -/

/-- The iterator's arrays are canonical and inside their sizes, and all 12 bit counters are there (rule R113,
rule R127 to rule R132). -/
structure Mi.StorageOk (m : Mi) : Prop where
  yuvIn : CellsOk 512 m.yuvIn
  yuvOut : CellsOk 512 m.yuvOut
  yTop : CellsOk (16 * Config.params.maxMbW) m.yTop
  uvTop : CellsOk (16 * Config.params.maxMbW) m.uvTop
  yLeft : CellsOk 17 m.yLeft
  uLeft : CellsOk 9 m.uLeft
  vLeft : CellsOk 9 m.vLeft
  nz : CellsOk Config.params.maxMbW m.nz
  topNz : CellsOk 9 m.topNz
  leftNz : CellsOk 9 m.leftNz
  bitCount : m.bitCount.length = 12

/-- PROB and STATS have all their cells, and COEF is canonical and inside its size (rule R133 to rule R135). -/
structure Rc.StorageOk (r : Rc) : Prop where
  coef : CellsOk 400 r.coef
  prob : r.prob.length = numCells
  stats : r.stats.length = numCells

/-- The storage invariant, unit by unit. -/
theorem State.storageOk_iff {s : State} :
    s.storageOk ↔
      CellsOk Config.params.outCap s.bw.out ∧ s.mi.StorageOk ∧ s.rc.StorageOk ∧ Memory.wf s.src = true := by
  simp only [State.storageOk, ← cellsOk_iff]
  constructor
  · rintro ⟨hout, hyi, hyo, hyt, hut, hyl, hul, hvl, hnz, htn, hln, hco, hpr, hst, hbc, hsrc⟩
    exact ⟨hout, ⟨hyi, hyo, hyt, hut, hyl, hul, hvl, hnz, htn, hln, hbc⟩, ⟨hco, hpr, hst⟩, hsrc⟩
  · rintro ⟨hout, ⟨hyi, hyo, hyt, hut, hyl, hul, hvl, hnz, htn, hln, hbc⟩, ⟨hco, hpr, hst⟩, hsrc⟩
    exact ⟨hout, hyi, hyo, hyt, hut, hyl, hul, hvl, hnz, htn, hln, hco, hpr, hst, hbc, hsrc⟩

section
variable {s : State} (h : s.storageOk)
include h

theorem State.storageOk.out : CellsOk Config.params.outCap s.bw.out := (State.storageOk_iff.mp h).1

theorem State.storageOk.mi : s.mi.StorageOk := (State.storageOk_iff.mp h).2.1

theorem State.storageOk.rc : s.rc.StorageOk := (State.storageOk_iff.mp h).2.2.1

theorem State.storageOk.src : Memory.wf s.src = true := (State.storageOk_iff.mp h).2.2.2

theorem State.storageOk.withBw {b : Bw} (hb : CellsOk Config.params.outCap b.out) : (s.withBw b).storageOk :=
  State.storageOk_iff.mpr ⟨hb, h.mi, h.rc, h.src⟩

theorem State.storageOk.withMi {m : Mi} (hm : m.StorageOk) : (s.withMi m).storageOk :=
  State.storageOk_iff.mpr ⟨h.out, hm, h.rc, h.src⟩

theorem State.storageOk.withRc {r : Rc} (hr : r.StorageOk) : (s.withRc r).storageOk :=
  State.storageOk_iff.mpr ⟨h.out, h.mi, hr, h.src⟩

theorem State.storageOk.withSrc {m : List Host.Cell} (hm : Memory.wf m = true) : (s.withSrc m).storageOk :=
  State.storageOk_iff.mpr ⟨h.out, h.mi, h.rc, hm⟩

end

/-! ## The iterator's invariant -/

/-- The registers the iterator's invariant speaks of (rule R124 to rule R126). -/
def Mi.gridRegs (m : Mi) : Bool × BitVec 16 × BitVec 16 × BitVec 16 × BitVec 16 × BitVec 32 :=
  (m.valid, m.mbw, m.mbh, m.x, m.y, m.countdown)

theorem State.iteratorOk_congr {s t : State} (h : t.mi.gridRegs = s.mi.gridRegs) : t.iteratorOk ↔ s.iteratorOk := by
  simp only [Mi.gridRegs, Prod.mk.injEq] at h
  obtain ⟨hvalid, hmbw, hmbh, hx, hy, hcountdown⟩ := h
  unfold State.iteratorOk
  rw [hvalid, hmbw, hmbh, hx, hy, hcountdown]

/-- A current macroblock stands in a column of the caches. -/
theorem State.iteratorOk.x_lt_maxMbW {s : State} (h : s.iteratorOk) (hm : s.hasMacroblock) :
    s.mi.x.toNat < Config.params.maxMbW := by
  obtain ⟨-, hw, -, -, -, hx, -⟩ := h hm.1
  omega

theorem mbCount_bounds {n : BitVec 16} (h : n ≠ 0) : 1 ≤ mbCount n ∧ mbCount n ≤ 4096 := by
  have : n.toNat ≠ 0 := fun h0 => h (BitVec.eq_of_toNat_eq h0)
  unfold mbCount
  omega

/-- MI_RESET starts the grid at its first macroblock (rule R520). -/
theorem resetBody_keeps_iteratorOk {s t : State} (h : resetBody Config.params s = .ok t) : t.iteratorOk := by
  obtain ⟨⟨hw, hh, hmw, hmh⟩, rfl⟩ := resetBody_ok h
  have hw' := mbCount_bounds hw
  have hh' := mbCount_bounds hh
  have hcells : mbCount s.cfg.width * mbCount s.cfg.height ≤ 4096 * 4096 := Nat.mul_le_mul hw'.2 hh'.2
  have hmbw : (BitVec.ofNat 16 (mbCount s.cfg.width)).toNat = mbCount s.cfg.width := Nat.mod_eq_of_lt (by omega)
  have hmbh : (BitVec.ofNat 16 (mbCount s.cfg.height)).toNat = mbCount s.cfg.height := Nat.mod_eq_of_lt (by omega)
  have hcountdown : (BitVec.ofNat 32 (mbCount s.cfg.width * mbCount s.cfg.height)).toNat =
      mbCount s.cfg.width * mbCount s.cfg.height := Nat.mod_eq_of_lt (by omega)
  have hzero : (0 : BitVec 16).toNat = 0 := rfl
  intro _
  simp only [State.withMi_mi, initLeft, initTop, hmbw, hmbh, hcountdown, hzero]
  exact ⟨hw'.1, hmw, hh'.1, hmh, hh'.2, hw'.1, by omega⟩

/-- Raster order keeps the countdown: one column to the right, or to the start of the next row (rule R550). -/
theorem advanceBody_keeps_iteratorOk {s t : State} (hs : s.iteratorOk) (h : advanceBody s = .ok t) :
    t.iteratorOk := by
  obtain ⟨⟨hv, hc⟩, rfl⟩ := advanceBody_ok h
  obtain ⟨hw, hmw, hh, hmh, hh', hx, hsum⟩ := hs hv
  have hcount : (s.mi.countdown - 1).toNat + 1 = s.mi.countdown.toNat := by bv_omega
  have hx1 : (s.mi.x + 1).toNat = s.mi.x.toNat + 1 := by bv_omega
  have hy : s.mi.y.toNat < s.mi.mbh.toNat := by
    rw [Nat.mul_comm s.mi.mbw.toNat] at hsum
    exact Nat.lt_of_mul_lt_mul_right (a := s.mi.mbw.toNat) (by omega)
  have hy1 : (s.mi.y + 1).toNat = s.mi.y.toNat + 1 := by bv_omega
  intro _
  simp only [State.withMi_mi, advanceMi]
  split_ifs with hlast
  · have hlast := congrArg BitVec.toNat hlast
    refine ⟨hw, hmw, hh, hmh, hh', hw, ?_⟩
    simp only [initLeft, hy1, Nat.add_one_mul, show (0 : BitVec 16).toNat = 0 from rfl]
    omega
  · have hlast : s.mi.x.toNat + 1 ≠ s.mi.mbw.toNat := fun he => hlast (BitVec.eq_of_toNat_eq (hx1.trans he))
    refine ⟨hw, hmw, hh, hmh, hh', by simp only [hx1]; omega, ?_⟩
    simp only [hx1]
    omega

/-! ## The bit writer -/

section
variable {P : Params} {tick : Nat} {b b' : Bw}

/-- The carry, the pending run and the byte of a Flush all go below OUT[BW.POS + BW.RUN + 1] (rule R404). -/
theorem CellsOk.flushOut {n : Nat} (hb : CellsOk n b.out) (hroom : b.pos.toNat + b.run.toNat + 1 ≤ n) (P : Params)
    (tick bits : Nat) : CellsOk n (flushOut P tick b bits) := by
  unfold Machine.flushOut
  dsimp only
  refine .cellSet (.cellFill ?_ (by omega) _) (by omega) _
  split_ifs
  · exact hb.cellSet (by omega) _
  · exact hb

/-- A Flush that writes has checked the room in OUT first (rule R406). -/
theorem flush_keeps_out (hb : CellsOk P.outCap b.out) (h : flush P tick b = .ok b') : CellsOk P.outCap b'.out := by
  simp only [flush] at h
  split_ifs at h with _ _ hfull
  · cases h
    exact hb.flushOut (not_lt.mp hfull) P tick _
  · cases h
    exact hb

theorem encodeBit_keeps_out {d : CodedBit} (hb : CellsOk P.outCap b.out) (h : encodeBit P tick d b = .ok b') :
    CellsOk P.outCap b'.out := by
  have hn : (narrow d.1 d.2 b).out = b.out := by
    unfold narrow
    dsimp only
    split <;> rfl
  rw [← hn] at hb
  unfold encodeBit renormalize at h
  dsimp only at h
  split_ifs at h
  · refine flush_keeps_out ?_ h
    exact hb
  · cases h
    exact hb
  · cases h
    exact hb

theorem encodeBits_keeps_out {ds : List CodedBit} (hb : CellsOk P.outCap b.out)
    (h : encodeBits P tick ds b = .ok b') : CellsOk P.outCap b'.out := by
  induction ds generalizing b with
  | nil => cases h; exact hb
  | cons d ds ih =>
    unfold encodeBits at h
    split at h
    · next b₁ hd => exact ih (encodeBit_keeps_out hb hd) h
    · cases h

theorem finishBw_keeps_out (hb : CellsOk P.outCap b.out) (h : finishBw P tick b = .ok b') :
    CellsOk P.outCap b'.out := by
  obtain ⟨padded, flushed, hpad, hflush, rfl⟩ := finishBw_ok h
  have hp : CellsOk P.outCap padded.out := encodeBits_keeps_out hb hpad
  exact flush_keeps_out (b := { padded with nbits := 0 }) (b' := flushed) hp hflush

end

/-! ## The iterator's arrays -/

theorem mem_grid {h w : Nat} {c : Nat × Nat} (hc : c ∈ grid h w) : c.1 < h ∧ c.2 < w := by
  simp only [grid, List.mem_flatMap, List.mem_map, List.mem_range] at hc
  obtain ⟨i, hi, j, hj, rfl⟩ := hc
  exact ⟨hi, hj⟩

/-- MI_IMPORT fills rows 0..15 and columns 0..31 of YUV_IN at most (rule R127, rule R531). -/
theorem importWrites_below (P : Params) (s : State) (g : Geometry) :
    ∀ c ∈ (planes s g).flatMap (importWrites P s), c.1 < 512 := by
  intro c hc
  obtain ⟨p, hp, hc⟩ := List.mem_flatMap.mp hc
  obtain ⟨ij, hij, rfl⟩ := List.mem_map.mp hc
  obtain ⟨hi, hj⟩ := mem_grid hij
  have hsize : p.size ≤ 16 ∧ p.col + p.size ≤ 32 := by
    simp only [planes, List.mem_cons, List.not_mem_nil, or_false] at hp
    rcases hp with rfl | rfl | rfl <;> exact ⟨by norm_num, by norm_num⟩
  simp only [yuvIx]
  omega

/-- A left cache as InitLeft fills it: the corner, then `n` samples (rule R522). -/
theorem CellsOk.leftInit {n : Nat} {m : Cells Byte} (h : CellsOk (n + 1) m) (corner v : Byte) :
    CellsOk (n + 1) (Machine.cellFill (Machine.cellSet m 0 corner) 1 v n) :=
  (h.cellSet n.succ_pos corner).cellFill (by omega) v

section
variable {m : Mi} (h : m.StorageOk)
include h

theorem Mi.StorageOk.withYuvIn {yuvIn : Cells Byte} (hy : CellsOk 512 yuvIn) : ({ m with yuvIn } : Mi).StorageOk :=
  { h with yuvIn := hy }

theorem Mi.StorageOk.withYuvOut {yuvOut : Cells Byte} (hy : CellsOk 512 yuvOut) :
    ({ m with yuvOut } : Mi).StorageOk :=
  { h with yuvOut := hy }

theorem Mi.StorageOk.withTop {yTop uvTop : Cells Byte} {nz : Cells (BitVec 32)}
    (hy : CellsOk (16 * Config.params.maxMbW) yTop) (huv : CellsOk (16 * Config.params.maxMbW) uvTop)
    (hnz : CellsOk Config.params.maxMbW nz) : ({ m with yTop, uvTop, nz } : Mi).StorageOk :=
  { h with yTop := hy, uvTop := huv, nz := hnz }

theorem Mi.StorageOk.withLeft {yLeft uLeft vLeft : Cells Byte} {leftNz : Cells (BitVec 1)}
    (hy : CellsOk 17 yLeft) (hu : CellsOk 9 uLeft) (hv : CellsOk 9 vLeft) (hnz : CellsOk 9 leftNz) :
    ({ m with yLeft, uLeft, vLeft, leftNz } : Mi).StorageOk :=
  { h with yLeft := hy, uLeft := hu, vLeft := hv, leftNz := hnz }

theorem Mi.StorageOk.initTop (hw : m.mbw.toNat ≤ Config.params.maxMbW) : (initTop m).StorageOk :=
  h.withTop (h.yTop.cellFill (by omega) _) (h.uvTop.cellFill (by omega) _) (h.nz.cellFill (by omega) _)

theorem Mi.StorageOk.initLeft : (initLeft m).StorageOk :=
  h.withLeft (h.yLeft.leftInit _ _) (h.uLeft.leftInit _ _) (h.vLeft.leftInit _ _) (h.leftNz.cellSet (by omega) _)

theorem Mi.StorageOk.advanceMi : (advanceMi m).StorageOk := by
  unfold Machine.advanceMi
  dsimp only
  split_ifs
  · exact { Mi.StorageOk.initLeft (m := { m with x := 0, y := m.y + 1 }) { h with } with }
  · exact { h with }

/-- RC_CODE_MB's bit accounting keeps the 12 counters (rule R113, rule R622). -/
theorem Mi.StorageOk.accountBits (seg : Nat) (i16 : Bool) (luma uv : BitVec 32) :
    (accountBits seg i16 luma uv m).StorageOk :=
  { h with bitCount := by simpa [Machine.accountBits, addBits] using h.bitCount }

theorem Mi.StorageOk.spoilMi (P : Params) (tick : Nat) : (spoilMi P tick m).StorageOk :=
  { h with topNz := .nil, leftNz := .nil, nz := h.nz.cellErase _, bitCount := by simp [Machine.spoilMi] }

end

theorem Mi.StorageOk.reset : Mi.reset.StorageOk :=
  ⟨.nil, .nil, .nil, .nil, .nil, .nil, .nil, .nil, .nil, .nil, List.length_replicate⟩

theorem CellsOk.leftFrom {m : Cells Byte} {n : Nat} (h : CellsOk (n + 1) m) (P : Params) (s : State) (c : Nat)
    (corner : Byte) : CellsOk (n + 1) (leftFrom P s m n c corner) :=
  h.cellSetAll (by simp)

theorem CellsOk.topFrom {m : Cells Byte} {size k n : Nat} (h : CellsOk size m) (hk : k + n ≤ size) (P : Params)
    (s : State) (r c : Nat) : CellsOk size (topFrom P s m k n r c) :=
  h.cellSetAll (by
    simp only [List.forall_mem_map, List.mem_range]
    omega)

theorem savedLeft_storageOk (P : Params) {s : State} (h : s.mi.StorageOk) : (savedLeft P s).StorageOk := by
  unfold savedLeft
  dsimp only
  split_ifs
  · exact h.withLeft (h.yLeft.leftFrom P s _ _) (h.uLeft.leftFrom P s _ _) (h.vLeft.leftFrom P s _ _) h.leftNz
  · exact h

theorem savedTop_storageOk (P : Params) {s : State} {m : Mi} (hx : s.mi.x.toNat < Config.params.maxMbW)
    (h : m.StorageOk) : (savedTop P s m).StorageOk := by
  unfold savedTop
  dsimp only
  split_ifs
  · exact h.withTop (h.yTop.topFrom (by omega) P s _ _)
      ((h.uvTop.topFrom (by omega) P s _ _).topFrom (by omega) P s _ _) h.nz
  · exact h

/-! ## The non-zero flags -/

/-- TOP_NZ and LEFT_NZ are canonical and inside their sizes (rule R132). -/
def NzFlags.StorageOk (f : NzFlags) : Prop := CellsOk 9 f.top ∧ CellsOk 9 f.left

/-- Both flag indices of a block name flags (rule R620, rule R621). -/
def MbBlock.flagsInRange (k : MbBlock) : Prop := k.top < 9 ∧ k.left < 9

theorem nzToFlags_storageOk (P : Params) {s : State} (h : s.mi.StorageOk) : (nzToFlags P s).StorageOk := by
  refine ⟨h.topNz.cellSetAll ?_, h.leftNz.cellSetAll ?_⟩ <;>
    simp [topNzBits, leftNzBits]

theorem NzFlags.StorageOk.setFlags {f : NzFlags} (h : f.StorageOk) {k : MbBlock} (hk : k.flagsInRange) (bit : Bool) :
    (setFlags f k bit).StorageOk :=
  ⟨h.1.cellSet hk.1 _, h.2.cellSet hk.2 _⟩

theorem walkBlocks_flags_storageOk (P : Params) (s : State) {ks : List MbBlock} {f : NzFlags} (h : f.StorageOk)
    (hks : ∀ k ∈ ks, k.flagsInRange) : (walkBlocks P s ks f).2.StorageOk := by
  induction ks generalizing f with
  | nil => exact h
  | cons k ks ih =>
    obtain ⟨hk, hks⟩ := List.forall_mem_cons.mp hks
    exact ih (h.setFlags hk _) hks

theorem lumaBlocks_flagsInRange (i16 : Bool) : ∀ k ∈ lumaBlocks i16, k.flagsInRange := by
  unfold MbBlock.flagsInRange
  cases i16 <;> decide

theorem chromaBlocks_flagsInRange : ∀ k ∈ chromaBlocks, k.flagsInRange := by
  unfold MbBlock.flagsInRange
  decide

theorem Mi.StorageOk.flagsToNz {m : Mi} (h : m.StorageOk) {f : NzFlags} (hf : f.StorageOk)
    (hx : m.x.toNat < Config.params.maxMbW) (P : Params) (tick : Nat) : (flagsToNz P tick f m).StorageOk :=
  { h with topNz := hf.1, leftNz := hf.2, nz := h.nz.cellSet hx _ }

/-! ## The residual coder -/

theorem recordDecisions_stats_length (P : Params) (ds : List Decision) (r : Rc) :
    (recordDecisions P ds r).stats.length = r.stats.length := by
  induction ds generalizing r with
  | nil => rfl
  | cons d ds ih =>
    cases d with
    | cell bit ix => simp [recordDecisions, ih, record]
    | fixed bit p => exact ih r
    | sign bit => exact ih r

section
variable {r : Rc} (h : r.StorageOk)
include h

theorem Rc.StorageOk.recorded (P : Params) (ds : List Decision) (nz : Bool) :
    ({ r with stats := (recordDecisions P ds r).stats, nz := nz } : Rc).StorageOk :=
  { h with stats := (recordDecisions_stats_length P ds r).trans h.stats }

theorem Rc.StorageOk.of_lengths {r' : Rc} (hcoef : r'.coef = r.coef) (hprob : r'.prob.length = numCells)
    (hstats : r'.stats.length = numCells) : r'.StorageOk :=
  ⟨hcoef ▸ h.coef, hprob, hstats⟩

theorem Rc.StorageOk.clearStats : (clearStats r).StorageOk :=
  h.of_lengths rfl h.prob List.length_replicate

theorem Rc.StorageOk.loadDefault (P : Params) : (loadDefault P r).StorageOk :=
  h.of_lengths (by rw [Machine.loadDefault]) (by simp [Machine.loadDefault])
    (by rw [Machine.loadDefault]; exact h.stats)

theorem Rc.StorageOk.finalize (P : Params) : (finalize P r).StorageOk :=
  h.of_lengths (by rw [Machine.finalize]) (by simp [Machine.finalize]) (by rw [Machine.finalize]; exact h.stats)

end

theorem Rc.StorageOk.reset (P : Params) : (Rc.reset P).StorageOk :=
  { coef := .nil, prob := by simp [Machine.Rc.reset], stats := by simp [Machine.Rc.reset] }

/-! ## The commands -/

theorem resetBody_keeps_storageOk {s t : State} (hs : s.storageOk) (h : resetBody Config.params s = .ok t) :
    t.storageOk := by
  obtain ⟨⟨-, -, hmw, -⟩, rfl⟩ := resetBody_ok h
  have hplaced : Mi.StorageOk { s.mi with
      mbw := BitVec.ofNat 16 (mbCount s.cfg.width), mbh := BitVec.ofNat 16 (mbCount s.cfg.height), x := 0, y := 0
      countdown := BitVec.ofNat 32 (mbCount s.cfg.width * mbCount s.cfg.height) } := { hs.mi with }
  have hcached := (hplaced.initTop ((Nat.mod_le _ _).trans hmw)).initLeft
  exact hs.withMi { hcached with bitCount := List.length_replicate }

theorem skipNzBody_keeps_storageOk {s t : State} (hi : s.iteratorOk) (hs : s.storageOk)
    (h : skipNzBody Config.params s = .ok t) : t.storageOk := by
  have hx := hi.x_lt_maxMbW (skipNzBody_ok h).1
  simp only [skipNzBody, Except.bind_ok, Except.pure_eq_ok] at h
  obtain ⟨_, -, h⟩ := h
  split at h
  · cases h
    exact hs.withMi { hs.mi with nz := hs.mi.nz.cellSet hx _, leftNz := hs.mi.leftNz.cellSet (by omega) _ }
  · cases h
    exact hs.withMi { hs.mi with nz := hs.mi.nz.cellSet hx _ }

theorem putBits_keeps_storageOk {ds : List CodedBit} {s t : State} (hs : s.storageOk)
    (h : putBits Config.params ds s = .ok t) : t.storageOk := by
  obtain ⟨-, b, hb, rfl⟩ := putBits_ok h
  exact hs.withBw (encodeBits_keeps_out hs.out hb)

theorem saveBoundaryBody_keeps_storageOk {s t : State} (hi : s.iteratorOk) (hs : s.storageOk)
    (h : saveBoundaryBody Config.params s = .ok t) : t.storageOk := by
  obtain ⟨hm, rfl⟩ := saveBoundaryBody_ok h
  exact hs.withMi (savedTop_storageOk _ (hi.x_lt_maxMbW hm) (savedLeft_storageOk _ hs.mi))

theorem finishBody_keeps_storageOk {s t : State} (hs : s.storageOk) (h : finishBody Config.params s = .ok t) :
    t.storageOk := by
  rcases finishBody_ok h with ⟨-, rfl⟩ | ⟨-, b, hb, rfl⟩
  · exact hs
  · exact hs.withBw (finishBw_keeps_out hs.out hb)

theorem codeBlockBody_keeps_storageOk {slot ty ctx : Nat} {s t : State} (hs : s.storageOk)
    (h : codeBlockBody Config.params slot ty ctx s = .ok t) : t.storageOk := by
  obtain ⟨-, -, b, hb, rfl⟩ := codeBlockBody_ok h
  exact (hs.withBw (encodeBits_keeps_out hs.out hb)).withRc { hs.rc with }

theorem codeMbBody_keeps_storageOk {s t : State} (hi : s.iteratorOk) (hs : s.storageOk)
    (h : codeMbBody Config.params s = .ok t) : t.storageOk := by
  obtain ⟨hm, -, -, b₁, b₂, hb₁, hb₂, rfl⟩ := codeMbBody_ok h
  have hluma := walkBlocks_flags_storageOk Config.params s (nzToFlags_storageOk Config.params hs.mi)
    (lumaBlocks_flagsInRange (isI16 s))
  have hflags := walkBlocks_flags_storageOk Config.params s hluma chromaBlocks_flagsInRange
  have hout := encodeBits_keeps_out (encodeBits_keeps_out hs.out hb₁) hb₂
  exact (hs.withBw hout).withMi ((hs.mi.accountBits _ _ _ _).flagsToNz hflags (hi.x_lt_maxMbW hm) _ _)

theorem recordMbBody_keeps_storageOk {s t : State} (hi : s.iteratorOk) (hs : s.storageOk)
    (h : recordMbBody Config.params s = .ok t) : t.storageOk := by
  obtain ⟨hm, -, rfl⟩ := recordMbBody_ok h
  have hflags := walkBlocks_flags_storageOk Config.params s (nzToFlags_storageOk Config.params hs.mi)
    (List.forall_mem_append.mpr ⟨lumaBlocks_flagsInRange (isI16 s), chromaBlocks_flagsInRange⟩)
  exact (hs.withRc (hs.rc.recorded _ _ _)).withMi (hs.mi.flagsToNz hflags (hi.x_lt_maxMbW hm) _ _)

theorem resetVrce_storageOk {s : State} (hs : s.storageOk) : (resetVrce Config.params s).storageOk :=
  State.storageOk_iff.mpr ⟨.nil, .reset, .reset _, hs.src⟩

/-- Every command's body keeps the arrays inside their sizes. -/
theorem body_keeps_storageOk {i : Instr} {s t : State} (hi : s.iteratorOk) (hs : s.storageOk)
    (h : bodyOf Config.params i s = .ok t) : t.storageOk := by
  cases i with
  | nop => cases h; exact hs
  | softReset => cases h; exact resetVrce_storageOk hs
  | bwInit => cases h; exact hs.withBw hs.out
  | bwPutbit bit prob => exact putBits_keeps_storageOk hs h
  | bwPutbitu bit => exact putBits_keeps_storageOk hs h
  | bwPutbits nb val => exact putBits_keeps_storageOk hs h
  | bwPutsbits nb val => exact putBits_keeps_storageOk hs h
  | bwFinish => exact finishBody_keeps_storageOk hs h
  | miReset => exact resetBody_keeps_storageOk hs h
  | miImport =>
    obtain ⟨-, rfl⟩ := importBody_ok h
    exact hs.withMi (hs.mi.withYuvIn (hs.mi.yuvIn.cellSetAll (importWrites_below _ s _)))
  | miExport =>
    obtain ⟨-, rfl⟩ := exportBody_ok h
    exact hs.withSrc (Memory.wf_srcWriteAll _ hs.src)
  | miSaveBoundary => exact saveBoundaryBody_keeps_storageOk hi hs h
  | miAdvance =>
    obtain ⟨-, rfl⟩ := advanceBody_ok h
    exact hs.withMi hs.mi.advanceMi
  | miNzToFlags =>
    obtain ⟨-, rfl⟩ := nzToFlagsBody_ok h
    obtain ⟨htop, hleft⟩ := nzToFlags_storageOk Config.params hs.mi
    exact hs.withMi { hs.mi with topNz := htop, leftNz := hleft }
  | miFlagsToNz =>
    obtain ⟨hm, rfl⟩ := flagsToNzBody_ok h
    exact hs.withMi (hs.mi.flagsToNz ⟨hs.mi.topNz, hs.mi.leftNz⟩ (hi.x_lt_maxMbW hm) _ _)
  | miSkipNz => exact skipNzBody_keeps_storageOk hi hs h
  | rcCodeBlock slot ty ctx => exact codeBlockBody_keeps_storageOk hs h
  | rcRecordBlock slot ty ctx =>
    obtain ⟨-, rfl⟩ := recordBlockBody_ok h
    exact hs.withRc (hs.rc.recorded _ _ _)
  | rcCodeMb => exact codeMbBody_keeps_storageOk hi hs h
  | rcRecordMb => exact recordMbBody_keeps_storageOk hi hs h
  | rcResetStats => cases h; exact hs.withRc hs.rc.clearStats
  | rcLoadDefault => cases h; exact hs.withRc (hs.rc.loadDefault _)
  | rcFinalize => cases h; exact hs.withRc (hs.rc.finalize _)

/-- No command but MI_RESET, MI_ADVANCE and SOFT_RESET moves on the grid. -/
theorem body_gridRegs {i : Instr} {s t : State} (hsoft : i ≠ .softReset) (hreset : i ≠ .miReset)
    (hadvance : i ≠ .miAdvance) (h : bodyOf Config.params i s = .ok t) : t.mi.gridRegs = s.mi.gridRegs := by
  cases i with
  | softReset => exact absurd rfl hsoft
  | miReset => exact absurd rfl hreset
  | miAdvance => exact absurd rfl hadvance
  | nop => cases h; rfl
  | bwInit => cases h; rfl
  | bwPutbit bit prob => obtain ⟨-, b, -, rfl⟩ := putBits_ok h; rfl
  | bwPutbitu bit => obtain ⟨-, b, -, rfl⟩ := putBits_ok h; rfl
  | bwPutbits nb val => obtain ⟨-, b, -, rfl⟩ := putBits_ok h; rfl
  | bwPutsbits nb val => obtain ⟨-, b, -, rfl⟩ := putBits_ok h; rfl
  | bwFinish => rcases finishBody_ok h with ⟨-, rfl⟩ | ⟨-, b, -, rfl⟩ <;> rfl
  | miImport => obtain ⟨-, rfl⟩ := importBody_ok h; simp only [State.withMi_mi, Mi.gridRegs]
  | miExport => obtain ⟨-, rfl⟩ := exportBody_ok h; rfl
  | miSaveBoundary =>
    obtain ⟨-, rfl⟩ := saveBoundaryBody_ok h
    rw [savedTop_frame, savedLeft_frame]
    rfl
  | miNzToFlags => obtain ⟨-, rfl⟩ := nzToFlagsBody_ok h; rfl
  | miFlagsToNz => obtain ⟨-, rfl⟩ := flagsToNzBody_ok h; rfl
  | miSkipNz => rw [(skipNzBody_ok h).2]; rfl
  | rcCodeBlock slot ty ctx => obtain ⟨-, -, b, -, rfl⟩ := codeBlockBody_ok h; rfl
  | rcRecordBlock slot ty ctx => obtain ⟨-, rfl⟩ := recordBlockBody_ok h; rfl
  | rcCodeMb => obtain ⟨-, -, -, b₁, b₂, -, -, rfl⟩ := codeMbBody_ok h; rfl
  | rcRecordMb => obtain ⟨-, -, rfl⟩ := recordMbBody_ok h; rfl
  | rcResetStats => cases h; rfl
  | rcLoadDefault => cases h; rw [State.withRc_mi]
  | rcFinalize => cases h; rw [State.withRc_mi]

theorem resetVrce_iteratorOk (s : State) : (resetVrce Config.params s).iteratorOk := fun hv => by cases hv

theorem body_keeps_iteratorOk {i : Instr} {s t : State} (hi : s.iteratorOk) (hsoft : i ≠ .softReset)
    (h : bodyOf Config.params i s = .ok t) : t.iteratorOk := by
  by_cases hreset : i = .miReset
  · subst hreset
    exact resetBody_keeps_iteratorOk h
  by_cases hadvance : i = .miAdvance
  · subst hadvance
    exact advanceBody_keeps_iteratorOk hi h
  exact (State.iteratorOk_congr (body_gridRegs hsoft hreset hadvance h)).mpr hi

/-! ## Faults -/

theorem takeFault_gridRegs (P : Params) (sp : Spoil) (w : Word) (r : Raise) (s : State) :
    (takeFault P sp w r s).mi.gridRegs = s.mi.gridRegs := by
  rw [takeFault_mi]
  split_ifs <;> rfl

/-- What an imprecise fault leaves at any value stays inside the arrays (rule R704). -/
theorem takeFault_keeps_storageOk {s : State} (hs : s.storageOk) (sp : Spoil) (w : Word) (r : Raise) :
    (takeFault Config.params sp w r s).storageOk := by
  refine State.storageOk_iff.mpr ⟨?_, ?_, ?_, ?_⟩
  · rw [takeFault_bw]
    split_ifs
    · exact .nil
    · exact hs.out
  · rw [takeFault_mi]
    split_ifs
    · exact hs.mi.spoilMi _ _
    · exact hs.mi
  · rw [takeFault_rc]
    exact hs.rc
  · rw [takeFault_src]
    exact hs.src

/-! ## The host port -/

/-- Where the element is one of a sparse array the host may write, its index is inside the array (rule R206). -/
def HostElem.InRange : HostElem → Prop
  | .coef i => i < 400
  | .yuvOut i => i < 512
  | _ => True

theorem registerMap_inRange : ∀ p ∈ registerMap, p.2.InRange := by
  simp [registerMap, HostElem.InRange]

theorem windows_inRange (P : Params) : ∀ v ∈ windows P, 0 < v.bytes ∧ ∀ i < v.count, (v.elem i).InRange := by
  simp [windows, HostElem.InRange]

/-- A mapped element is in range: it is a register or an element of a window (rule R201, rule R206). -/
theorem locate_inRange {P : Params} {a : Word} {e : HostElem} (h : locate P a = some e) : e.InRange := by
  unfold locate at h
  split at h
  · next hreg =>
    cases h
    obtain ⟨l₁, l₂, hmap, -⟩ := List.lookup_eq_some_iff.mp hreg
    exact registerMap_inRange (a.toNat, e) (by simp [hmap])
  · obtain ⟨v, hv, hat⟩ := List.exists_of_findSome?_eq_some h
    obtain ⟨hbytes, hrange⟩ := windows_inRange P v hv
    obtain ⟨i, hi, -, rfl⟩ := (Window.at?_eq_some_iff hbytes).mp hat
    exact hrange i hi

/-- What a host write stores: a configuration register, or one element of PROB, COEF or YUV_OUT (rule R206). -/
theorem writeElem_cases {s t : State} {v : Word} {e : HostElem} (h : writeElem s v e = some t) :
    (∃ c, t = s.withCfg c) ∨
      (∃ i, t = s.withRc { s.rc with prob := s.rc.prob.set i (v.setWidth 8) }) ∨
      (∃ i, e = .coef i ∧ t = s.withRc { s.rc with coef := cellSet s.rc.coef i (v.setWidth 16) }) ∨
      (∃ i, e = .yuvOut i ∧ t = s.withMi { s.mi with yuvOut := cellSet s.mi.yuvOut i (v.setWidth 8) }) := by
  cases e <;> simp only [writeElem, Option.some.injEq, reduceCtorEq] at h
  case prob i => exact .inr (.inl ⟨i, h.symm⟩)
  case coef i => exact .inr (.inr (.inl ⟨i, rfl, h.symm⟩))
  case yuvOut i => exact .inr (.inr (.inr ⟨i, rfl, h.symm⟩))
  all_goals exact .inl ⟨_, h.symm⟩

theorem writeElem_keeps_storageOk {s t : State} {v : Word} {e : HostElem} (hs : s.storageOk) (he : e.InRange)
    (h : writeElem s v e = some t) : t.storageOk := by
  rcases writeElem_cases h with ⟨c, rfl⟩ | ⟨i, rfl⟩ | ⟨i, rfl, rfl⟩ | ⟨i, rfl, rfl⟩
  · exact hs
  · exact hs.withRc { hs.rc with prob := List.length_set.trans hs.rc.prob }
  · exact hs.withRc { hs.rc with coef := hs.rc.coef.cellSet he _ }
  · exact hs.withMi (hs.mi.withYuvOut (hs.mi.yuvOut.cellSet he _))

theorem hostAccess_keeps_storageOk {s : State} (hs : s.storageOk) (e : HostEvent) :
    (hostAccess Config.params e s).storageOk := by
  cases e with
  | read a n => rw [hostAccess, hostRead_eq]; exact hs
  | write a n v =>
    rw [hostAccess]
    rcases hostWrite_cases (P := Config.params) (a := a) (n := n) (v := v) (s := s) with h | ⟨e, he, h⟩
    · rw [h]; exact hs
    · exact writeElem_keeps_storageOk hs (locate_inRange (accessed_eq_some he).1) h
  | srcRead a => exact hs
  | srcWrite a v => exact hs.withSrc (Memory.wf_srcWriteAll _ hs.src)
  | hardReset => exact resetVrce_storageOk hs

theorem hostAccess_keeps_iteratorOk {s : State} (hi : s.iteratorOk) (e : HostEvent) :
    (hostAccess Config.params e s).iteratorOk := by
  cases e with
  | read a n => rw [hostAccess, hostRead_eq]; exact hi
  | write a n v =>
    rw [hostAccess]
    rcases hostWrite_cases (P := Config.params) (a := a) (n := n) (v := v) (s := s) with h | ⟨e, -, h⟩
    · rw [h]; exact hi
    · rw [writeElem_frame h]; exact hi
  | srcRead a => exact hi
  | srcWrite a v => exact hi
  | hardReset => exact resetVrce_iteratorOk s

/-! ## One step -/

/-- An invariant that accepting an event, a command's body, a fault and a host access keep is kept by every step. -/
theorem step_keeps {I : State → Prop} (haccept : ∀ s q, I s → I (s.accept q))
    (hbody : ∀ i s t, i ≠ .softReset → I s → bodyOf Config.params i s = .ok t → I t)
    (hfault : ∀ sp w r s, I s → I (takeFault Config.params sp w r s))
    (haccess : ∀ e s, I s → I (hostAccess Config.params e s)) {s t : State} (hs : I s) (h : step s = .next t) :
    I t := by
  rcases step_cases h with ⟨-, rfl⟩ | ⟨e, q, w, i, -, -, -, hexec⟩ | ⟨e, q, w, -, -, rfl⟩ | ⟨e, q, -, -, rfl⟩
  · exact hs
  · rcases exec_cases hexec with ⟨-, rfl⟩ | ⟨-, rfl⟩ | ⟨-, hi, hok⟩ | ⟨-, -, r, -, rfl⟩
    · exact haccess .hardReset _ (haccept s q hs)
    · exact haccept s q hs
    · exact hbody i _ _ hi (haccept s q hs) hok
    · exact hfault _ _ r _ (haccept s q hs)
  · unfold illegalCommand
    rcases runCommand_cases Config.params .bitWriter w
      (fun _ => .error { code := .illegalCommand, info := 0 }) (s.accept q) with
      ⟨-, e⟩ | ⟨-, t, hok, -⟩ | ⟨-, r, -, e⟩
    · rw [e]; exact haccept s q hs
    · cases hok
    · rw [e]; exact hfault _ _ r _ (haccept s q hs)
  · exact haccess e _ (haccept s q hs)

/-- Settles O54. The two invariants are kept together: MI_SAVE_BOUNDARY and the writes to NZ[MI.X] stay inside the
arrays because a current macroblock stands on the grid. -/
theorem stepKeepsStorageOk : Obligations.StepKeepsStorageOk := by
  intro s t hi hs h
  refine step_keeps (I := fun s => s.iteratorOk ∧ s.storageOk) (fun _ _ hI => hI) ?_ ?_ ?_ ⟨hi, hs⟩ h
  · rintro i s t hsoft ⟨hi, hs⟩ hok
    exact ⟨body_keeps_iteratorOk hi hsoft hok, body_keeps_storageOk hi hs hok⟩
  · rintro sp w r s ⟨hi, hs⟩
    exact ⟨(State.iteratorOk_congr (takeFault_gridRegs _ sp w r s)).mpr hi, takeFault_keeps_storageOk hs sp w r⟩
  · rintro e s ⟨hi, hs⟩
    exact ⟨hostAccess_keeps_iteratorOk hi e, hostAccess_keeps_storageOk hs e⟩

end Sys2Proof.Machine
end

section
/-! PROOF. What each command may write, the consistency of the fault latch, and the position on the grid (O13, O9,
O38). `State.withWritesOf` is the table of the parts each command may write; whether a command completes, faults or
is ignored, the state it leaves is its entry of the table with some latch (`exec_eq_withWritesOf`). -/
namespace Sys2Proof.Machine

/-! ## What each command may write -/

/-- The bit writer of `b'`, but in the BW.STATE of `b`: what coding bits writes (rule R115 to rule R123). -/
def Bw.withCodingOf (b b' : Bw) : Bw := { b' with st := b.st }

/-- `m` with the non-zero flags and summaries of `m'` (rule R131, rule R132). -/
def Mi.withFlagsOf (m m' : Mi) : Mi := { m with nz := m'.nz, topNz := m'.topNz, leftNz := m'.leftNz }

/-- `s` with each part of the state that the command `i` may write taken from `t` (rule R106, rule R113 to
rule R136, rule R214), the fault latch left out. SOFT_RESET, which resets every part, stands for itself. -/
def State.withWritesOf (s : State) (i : Instr) (t : State) : State :=
  match i with
  | .nop => s
  | .softReset => resetVrce Config.params s
  | .bwInit => s.withBw { t.bw with lastBit := s.bw.lastBit, out := s.bw.out }
  | .bwPutbit _ _ => s.withBw (s.bw.withCodingOf t.bw)
  | .bwPutbitu _ => s.withBw (s.bw.withCodingOf t.bw)
  | .bwPutbits _ _ => s.withBw (s.bw.withCodingOf t.bw)
  | .bwPutsbits _ _ => s.withBw (s.bw.withCodingOf t.bw)
  | .bwFinish => s.withBw t.bw
  | .miReset =>
    s.withMi { t.mi with
      lumaBits := s.mi.lumaBits, uvBits := s.mi.uvBits, yuvIn := s.mi.yuvIn, yuvOut := s.mi.yuvOut
      topNz := s.mi.topNz }
  | .miImport => s.withMi { s.mi with yuvIn := t.mi.yuvIn }
  | .miExport => s.withSrc t.src
  | .miSaveBoundary =>
    s.withMi { s.mi with
      yTop := t.mi.yTop, uvTop := t.mi.uvTop, yLeft := t.mi.yLeft, uLeft := t.mi.uLeft, vLeft := t.mi.vLeft }
  | .miAdvance =>
    s.withMi { s.mi with
      x := t.mi.x, y := t.mi.y, countdown := t.mi.countdown, yLeft := t.mi.yLeft, uLeft := t.mi.uLeft
      vLeft := t.mi.vLeft, leftNz := t.mi.leftNz }
  | .miNzToFlags => s.withMi { s.mi with topNz := t.mi.topNz, leftNz := t.mi.leftNz }
  | .miFlagsToNz => s.withMi { s.mi with nz := t.mi.nz }
  | .miSkipNz => s.withMi { s.mi with nz := t.mi.nz, leftNz := t.mi.leftNz }
  | .rcCodeBlock _ _ _ => (s.withBw (s.bw.withCodingOf t.bw)).withRc { s.rc with nz := t.rc.nz }
  | .rcRecordBlock _ _ _ => s.withRc { s.rc with stats := t.rc.stats, nz := t.rc.nz }
  | .rcCodeMb =>
    (s.withBw (s.bw.withCodingOf t.bw)).withMi
      { s.mi.withFlagsOf t.mi with
        lumaBits := t.mi.lumaBits, uvBits := t.mi.uvBits, bitCount := t.mi.bitCount }
  | .rcRecordMb => (s.withRc { s.rc with stats := t.rc.stats }).withMi (s.mi.withFlagsOf t.mi)
  | .rcResetStats => s.withRc { s.rc with stats := t.rc.stats }
  | .rcLoadDefault => s.withRc { s.rc with prob := t.rc.prob }
  | .rcFinalize => s.withRc { s.rc with prob := t.rc.prob, dirty := t.rc.dirty, size := t.rc.size }

/-! ## Each command writes its own parts -/

theorem withCodingOf_of_encodeBits {P : Params} {tick : Nat} {ds : List CodedBit} {b b' : Bw}
    (h : encodeBits P tick ds b = .ok b') : b.withCodingOf b' = b' := by
  rw [Bw.withCodingOf, ← encodeBits_st h]

theorem putBits_eq_withCodingOf {P : Params} {ds : List CodedBit} {s t : State} (h : putBits P ds s = .ok t) :
    t = s.withBw (s.bw.withCodingOf t.bw) := by
  obtain ⟨-, b, hb, rfl⟩ := putBits_ok h
  rw [State.withBw_bw, withCodingOf_of_encodeBits hb]

theorem advanceMi_frame (m : Mi) : advanceMi m = { m with
    x := (advanceMi m).x, y := (advanceMi m).y, countdown := (advanceMi m).countdown
    yLeft := (advanceMi m).yLeft, uLeft := (advanceMi m).uLeft, vLeft := (advanceMi m).vLeft
    leftNz := (advanceMi m).leftNz } := by
  unfold advanceMi
  dsimp only
  split_ifs <;> rfl

theorem savedTop_savedLeft_frame (P : Params) (s : State) : savedTop P s (savedLeft P s) = { s.mi with
    yTop := (savedTop P s (savedLeft P s)).yTop, uvTop := (savedTop P s (savedLeft P s)).uvTop
    yLeft := (savedTop P s (savedLeft P s)).yLeft, uLeft := (savedTop P s (savedLeft P s)).uLeft
    vLeft := (savedTop P s (savedLeft P s)).vLeft } := by
  have htop := savedTop_frame P s (savedLeft P s)
  have hleft := savedLeft_frame P s
  generalize savedTop P s (savedLeft P s) = m' at htop ⊢
  generalize savedLeft P s = m at htop hleft
  rw [htop, hleft]

/-- A command that completes writes no part but its own. -/
theorem body_eq_withWritesOf {i : Instr} {s t : State} (h : bodyOf Config.params i s = .ok t) :
    t = s.withWritesOf i t := by
  cases i with
  | nop => cases h; rfl
  | softReset => cases h; rfl
  | bwInit => cases h; rfl
  | bwPutbit bit prob => exact putBits_eq_withCodingOf h
  | bwPutbitu bit => exact putBits_eq_withCodingOf h
  | bwPutbits nb val => exact putBits_eq_withCodingOf h
  | bwPutsbits nb val => exact putBits_eq_withCodingOf h
  | bwFinish => rcases finishBody_ok h with ⟨-, rfl⟩ | ⟨-, b, -, rfl⟩ <;> rfl
  | miReset =>
    obtain ⟨-, rfl⟩ := resetBody_ok h
    rw [State.withWritesOf, State.withMi_mi, initLeft_frame, initTop_frame]
  | miImport => obtain ⟨-, rfl⟩ := importBody_ok h; rw [State.withWritesOf, State.withMi_mi]
  | miExport => obtain ⟨-, rfl⟩ := exportBody_ok h; rfl
  | miSaveBoundary =>
    obtain ⟨-, rfl⟩ := saveBoundaryBody_ok h
    exact congrArg s.withMi (savedTop_savedLeft_frame _ s)
  | miAdvance =>
    obtain ⟨-, rfl⟩ := advanceBody_ok h
    exact congrArg s.withMi (advanceMi_frame s.mi)
  | miNzToFlags => obtain ⟨-, rfl⟩ := nzToFlagsBody_ok h; rfl
  | miFlagsToNz => obtain ⟨-, rfl⟩ := flagsToNzBody_ok h; rfl
  | miSkipNz => exact (skipNzBody_ok h).2
  | rcCodeBlock slot ty ctx =>
    obtain ⟨-, -, b, hb, rfl⟩ := codeBlockBody_ok h
    simp only [State.withWritesOf, State.withRc_bw, State.withBw_bw, State.withRc_rc, withCodingOf_of_encodeBits hb]
  | rcRecordBlock slot ty ctx => obtain ⟨-, rfl⟩ := recordBlockBody_ok h; rfl
  | rcCodeMb =>
    obtain ⟨-, -, -, b₁, b₂, hb₁, hb₂, rfl⟩ := codeMbBody_ok h
    have hst : b₂.st = s.bw.st := (encodeBits_st hb₂).trans (encodeBits_st hb₁)
    simp only [State.withWritesOf, State.withMi_bw, State.withBw_bw, Bw.withCodingOf, ← hst]
    rfl
  | rcRecordMb => obtain ⟨-, -, rfl⟩ := recordMbBody_ok h; rfl
  | rcResetStats => cases h; rfl
  | rcLoadDefault => cases h; rw [State.withWritesOf, State.withRc_rc, loadDefault]
  | rcFinalize => cases h; rw [State.withWritesOf, State.withRc_rc, finalize]

/-- A precise fault of a command writes the latch only. -/
theorem withWritesOf_withLatch {i : Instr} (hsoft : i ≠ .softReset) (s : State) (l : Latch) :
    s.withWritesOf i (s.withLatch l) = s := by
  cases i with
  | softReset => exact absurd rfl hsoft
  | _ => rfl

/-- A command that cannot run out of OUT, because it codes no bits, raises precise faults only (rule R704). -/
theorem precise_of_no_allocFailure {i : Instr} (hi : .allocFailure ∉ faultsOf i) :
    ∀ c ∈ faultsOf i, c.imprecise = false := by
  cases i <;> simp [faultsOf, ErrCode.imprecise] at hi ⊢

/-- What an imprecise fault leaves at any value are parts its command may write (rule R704). -/
theorem spoil_eq_withWritesOf {i : Instr} (hi : .allocFailure ∈ faultsOf i) (P : Params) (s : State) :
    spoil P (spoilOf i) s = s.withWritesOf i (spoil P (spoilOf i) s) := by
  cases i <;> simp [faultsOf] at hi <;> rfl

/-- A command that faults writes the latch, and no part but its own (rule R702, rule R704). -/
theorem takeFault_eq_withWritesOf {i : Instr} {r : Raise} (hsoft : i ≠ .softReset) (hr : r.code ∈ faultsOf i)
    (P : Params) (w : Word) (s : State) :
    ∃ u l, takeFault P (spoilOf i) w r s = (s.withWritesOf i u).withLatch l := by
  unfold takeFault raiseFault
  split_ifs with himp
  · have hcodes : .allocFailure ∈ faultsOf i := by
      by_contra hi
      rw [precise_of_no_allocFailure hi _ hr] at himp
      cases himp
    exact ⟨_, _, congrArg (State.withLatch · _) (spoil_eq_withWritesOf hcodes P s)⟩
  · exact ⟨s.withLatch s.latch, _, by rw [withWritesOf_withLatch hsoft]⟩

/-- The parts no command writes but SOFT_RESET: the configuration, YUV_OUT, COEF and the host's side of the port;
and the latch, which only a fault writes. -/
theorem withWritesOf_frame {i : Instr} (hsoft : i ≠ .softReset) (s u : State) :
    (s.withWritesOf i u).latch = s.latch ∧ (s.withWritesOf i u).cfg = s.cfg ∧
      (s.withWritesOf i u).mi.yuvOut = s.mi.yuvOut ∧ (s.withWritesOf i u).rc.coef = s.rc.coef ∧
      (s.withWritesOf i u).hostQueue = s.hostQueue ∧ (s.withWritesOf i u).hostResp = s.hostResp ∧
      (s.withWritesOf i u).tick = s.tick := by
  cases i with
  | softReset => exact absurd rfl hsoft
  | _ => exact ⟨rfl, rfl, rfl, rfl, rfl, rfl, rfl⟩

theorem body_latch {i : Instr} {s t : State} (hsoft : i ≠ .softReset) (h : bodyOf Config.params i s = .ok t) :
    t.latch = s.latch := by
  rw [body_eq_withWritesOf h, (withWritesOf_frame hsoft s t).1]

/-- Whether it completes, faults or is ignored, a command writes the latch and its own parts only. -/
theorem exec_eq_withWritesOf {i : Instr} {s t : State} (hsoft : i ≠ .softReset) (h : exec i s = .next t) :
    ∃ u l, t = (s.withWritesOf i u).withLatch l := by
  rcases exec_cases h with ⟨hi, -⟩ | ⟨-, rfl⟩ | ⟨-, -, hok⟩ | ⟨-, -, r, herr, rfl⟩
  · exact absurd hi hsoft
  · exact ⟨t.withLatch t.latch, t.latch, by rw [withWritesOf_withLatch hsoft]; rfl⟩
  · exact ⟨t, t.latch, by rw [← body_eq_withWritesOf hok]; rfl⟩
  · exact takeFault_eq_withWritesOf hsoft (body_error_code herr) _ _ s

/-- A command writes the latch by taking a fault listed for it, when none is latched (rule R700, rule R702,
rule R703). -/
theorem exec_latch {i : Instr} {s t : State} (hsoft : i ≠ .softReset) (h : exec i s = .next t)
    (hl : t.latch ≠ s.latch) : s.running ∧ t.latch.faulted = true ∧ t.latch.code ∈ faultsOf i := by
  rcases exec_cases h with ⟨hi, -⟩ | ⟨-, rfl⟩ | ⟨-, -, hok⟩ | ⟨hs, -, r, herr, rfl⟩
  · exact absurd hi hsoft
  · exact absurd rfl hl
  · exact absurd (body_latch hsoft hok) hl
  · exact ⟨hs, rfl, body_error_code herr⟩

/-- Settles O13: after `exec_eq_withWritesOf` each clause reads off one line of the table `State.withWritesOf`, whose
entry for the command either has the part or is the command the clause names. -/
theorem onlyNamedCommandsWrite : Obligations.OnlyNamedCommandsWrite := by
  intro i s t h hsoft codes
  have hlatch := exec_latch hsoft h
  obtain ⟨u, l, rfl⟩ := exec_eq_withWritesOf hsoft h
  obtain ⟨-, hcfg, hyuvOut, hcoef, hqueue, hresp, htick⟩ := withWritesOf_frame hsoft s u
  refine ⟨hcfg, hyuvOut, hcoef, ⟨hqueue, hresp, htick⟩, hlatch, ?_⟩
  clear h hlatch hcfg hyuvOut hcoef hqueue hresp htick
  cases i <;> simp [State.withWritesOf, codes, Bw.withCodingOf, Mi.withFlagsOf] at hsoft ⊢

/-! ## The fault latch -/

theorem latchOk_of_reset {s : State} (h : s.latch = Latch.reset) : s.latchOk := by
  simp [State.latchOk, h, Latch.reset]

theorem latchOk_of_faulted {s : State} (hf : s.latch.faulted = true) (hc : s.latch.code ≠ .none) : s.latchOk := by
  rw [State.latchOk, if_pos hf]
  exact hc

theorem latchOk_congr {s t : State} (h : t.latch = s.latch) : t.latchOk ↔ s.latchOk := by
  rw [State.latchOk, h, State.latchOk]

theorem none_notMem_faultsOf (i : Instr) : ErrCode.none ∉ faultsOf i := by
  cases i <;> simp [faultsOf]

/-- A command keeps the latch consistent: what it latches is a fault listed for it. -/
theorem exec_keeps_latchOk {i : Instr} {s t : State} (hs : s.latchOk) (h : exec i s = .next t) : t.latchOk := by
  by_cases hsoft : i = .softReset
  · subst hsoft
    cases h
    exact latchOk_of_reset rfl
  by_cases hl : t.latch = s.latch
  · exact (latchOk_congr hl).mpr hs
  obtain ⟨-, hf, hc⟩ := exec_latch hsoft h hl
  exact latchOk_of_faulted hf fun hnone => none_notMem_faultsOf i (hnone ▸ hc)

theorem hostAccess_keeps_latchOk {s : State} (hs : s.latchOk) (e : HostEvent) :
    (hostAccess Config.params e s).latchOk := by
  by_cases he : e = .hardReset
  · subst he
    exact latchOk_of_reset rfl
  · exact (latchOk_congr (hostAccess_frame _ he s).1).mpr hs

/-- Settles O9: the latch is written by a fault, which names itself, and by the resets, which clear it. -/
theorem stepKeepsLatchOk : Obligations.StepKeepsLatchOk := by
  intro s t hs h
  rcases step_cases h with ⟨-, rfl⟩ | ⟨e, q, w, i, -, -, -, hexec⟩ | ⟨e, q, w, -, -, rfl⟩ | ⟨e, q, -, -, rfl⟩
  · exact hs
  · exact exec_keeps_latchOk (s := s.accept q) hs hexec
  · rw [illegalCommand_eq]
    split_ifs
    · exact hs
    · exact latchOk_of_faulted rfl nofun
  · exact hostAccess_keeps_latchOk (s := s.accept q) hs e

/-! ## The position on the grid -/

/-- Settles O38: MI_RESET starts the invariant, MI_ADVANCE keeps it, the resets clear MI.VALID, and no other command,
no fault and no host access touches the registers it speaks of. -/
theorem stepKeepsIteratorOk : Obligations.StepKeepsIteratorOk := by
  intro s t hs h
  refine step_keeps (I := State.iteratorOk) (fun _ _ hI => hI) ?_ ?_ ?_ hs h
  · exact fun i s t hsoft hI hok => body_keeps_iteratorOk hI hsoft hok
  · exact fun sp w r s hI => (State.iteratorOk_congr (takeFault_gridRegs _ sp w r s)).mpr hI
  · exact fun e s hI => hostAccess_keeps_iteratorOk hI e

end Sys2Proof.Machine
end

section
/-! PROOF. A step that runs a command, the reset state, and STATUS (O5, O10, O55, O56). -/
namespace Sys2Proof.Machine

/-! ## One event -/

/-- Settles O5: the event is a command (`commandOf_write`), and its word decodes. -/
theorem stepRunsDecodedCommand : Obligations.StepRunsDecodedCommand := by
  intro s w q i hq hw
  unfold step
  simp only [hq, commandOf_write, hw]

theorem step_of_access {s : State} {e : HostEvent} {q : List HostEvent} (hq : s.hostQueue = e :: q)
    (he : commandOf e = none) : step s = .next (hostAccess Config.params e (s.accept q)) := by
  unfold step
  simp only [hq, he]

/-! ## The reset state -/

/-- The three situations of rule R142 are resets of some state. -/
theorem eq_resetVrce {s : State} (h : s = State.reset ∨ (∃ u, exec .softReset u = .next s) ∨
    ∃ u q, u.hostQueue = .hardReset :: q ∧ step u = .next s) : ∃ u, s = resetVrce Config.params u := by
  rcases h with rfl | ⟨u, h⟩ | ⟨u, q, hq, h⟩
  · exact ⟨State.reset, rfl⟩
  · rw [exec_softReset] at h
    cases h
    exact ⟨u, rfl⟩
  · rw [step_of_access hq rfl] at h
    cases h
    exact ⟨u.accept q, rfl⟩

theorem statusWord_reset (P : Params) (u : State) : statusWord (resetVrce P u) = 0 := by
  simp only [statusWord, miDone, resetVrce_latch, resetVrce_bw, resetVrce_mi, resetVrce_rc, Latch.reset, Bw.reset,
    Mi.reset, Rc.reset]
  decide

theorem statsAt_reset (P : Params) (i : Nat) : statsAt (Rc.reset P) i = 0 := by
  simp only [statsAt, Rc.reset, List.getD_eq_getElem?_getD, List.getElem?_replicate]
  split_ifs <;> rfl

theorem probAt_reset (P : Params) {i : Nat} (hi : i < 1056) : probAt (Rc.reset P) i = P.defaultProb i := by
  have hi : i < numCells := hi
  simp [probAt, Rc.reset, hi, -List.reduceReplicate]

/-- Every register reads 0 but BW_BITPOS, which counts the 8 bits of an empty writer (rule R121, rule R142). -/
theorem readElem_reset (P : Params) (u : State) :
    ∀ p ∈ hostRegisters, readElem P (resetVrce P u) p.2 = if p.2 = .bwBitpos then 8 else 0 := by
  simp [hostRegisters, readElem, statusWord_reset, Latch.reset, Cfg.reset, Bw.reset, Mi.reset, Rc.reset, bitpos,
    -List.reduceReplicate]

/-- Settles O10: all three situations leave `resetVrce` of some state. -/
theorem resetValues : Obligations.ResetValues := by
  intro s h
  obtain ⟨u, rfl⟩ := eq_resetVrce h
  refine ⟨rfl, rfl, rfl, rfl, rfl, rfl, rfl, rfl, rfl, rfl, rfl, rfl, rfl, rfl, rfl, rfl, rfl, rfl, ?_, rfl, rfl, rfl,
    ?_, fun i hi => probAt_reset _ hi, ?_, fun i _ => statsAt_reset _ i, rfl, readElem_reset _ u⟩
  · exact fun c hc => List.eq_of_mem_replicate hc
  · exact (Rc.StorageOk.reset _).prob
  · exact (Rc.StorageOk.reset _).stats

/-- Settles O55: nothing is latched, no stream is being written, MI.VALID is 0, every counter is 0, and no array has
an element. -/
theorem resetMeetsInvariants : Obligations.ResetMeetsInvariants := by
  refine ⟨latchOk_of_reset rfl, ⟨nofun, fun _ => ⟨⟨nofun, nofun⟩, Nat.zero_le _, nofun⟩⟩, nofun, ?_, ?_⟩
  · intro w hw
    rw [List.eq_of_mem_replicate hw]
    decide
  · exact State.storageOk_iff.mpr ⟨.nil, .reset, .reset _, Memory.wf_reset⟩

/-! ## STATUS -/

/-- A field of a word lies where the fields below it end. -/
theorem extractLsb'_field {m n k : Nat} (a : BitVec m) (f : BitVec n) (b : BitVec k) :
    (a ++ f ++ b).extractLsb' k n = f := by
  rw [BitVec.extractLsb'_append_eq_of_le le_rfl, Nat.sub_self]
  exact BitVec.eq_of_getLsbD_eq fun i hi => by simp [BitVec.getLsbD_append, hi]

theorem statusWord_code (s : State) : (statusWord s).extractLsb' 4 4 = s.latch.code.bits := by
  rw [statusWord, BitVec.extractLsb'_append_eq_of_le (by decide)]
  exact extractLsb'_field _ _ _

theorem statusWord_bwState (s : State) : (statusWord s).extractLsb' 8 2 = BitVec.ofNat 2 s.bw.st.number := by
  rw [statusWord, BitVec.extractLsb'_append_eq_of_le (by decide), BitVec.extractLsb'_append_eq_of_le (by decide)]
  exact extractLsb'_field _ _ _

theorem statusWord_flags (s : State) :
    (statusWord s).getLsbD 0 = s.latch.faulted ∧ (statusWord s).getLsbD 12 = s.mi.valid ∧
      (statusWord s).getLsbD 13 = miDone s.mi ∧ (statusWord s).getLsbD 16 = s.bw.lastBit ∧
      (statusWord s).getLsbD 17 = s.rc.nz ∧ (statusWord s).getLsbD 18 = s.rc.dirty := by
  simp only [statusWord, BitVec.getLsbD_append]
  simp

/-- The mask of the bits between the fields of STATUS, cut as STATUS is (rule R106). -/
theorem and_unlistedBits (dirty nz lastBit done valid faulted : BitVec 1) (st : BitVec 2) (code : BitVec 4) :
    (0#13 ++ dirty ++ nz ++ lastBit ++ 0#2 ++ done ++ valid ++ 0#2 ++ st ++ code ++ 0#3 ++ faulted) &&&
      (0x1FFF#13 ++ 0#1 ++ 0#1 ++ 0#1 ++ 3#2 ++ 0#1 ++ 0#1 ++ 3#2 ++ 0#2 ++ 0#4 ++ 7#3 ++ 0#1) = 0 := by
  simp only [BitVec.and_append, BitVec.and_zero, BitVec.zero_and]
  rfl

/-- Settles O56: STATUS is the concatenation of its fields. -/
theorem statusFields : Obligations.StatusFields := by
  intro s w
  obtain ⟨hfaulted, hvalid, hdone, hlastBit, hnz, hdirty⟩ := statusWord_flags s
  refine ⟨hfaulted, ?_, ?_, hvalid, hdone, hlastBit, hnz, hdirty, and_unlistedBits _ _ _ _ _ _ _ _⟩
  · rw [show w.extractLsb' 4 4 = _ from statusWord_code s]
    cases s.latch.code <;> rfl
  · rw [show w.extractLsb' 8 2 = _ from statusWord_bwState s]
    cases s.bw.st <;> rfl

end Sys2Proof.Machine
end

section
/-! PROOF. The host port: the map of registers and array windows, reads, and writes (O57, O58, O59). -/
namespace Sys2Proof.Machine

/-! ## The host map -/

theorem registerMap_lookup_iff {a : Nat} {e : HostElem} :
    registerMap.lookup a = some e ↔ (a, e) ∈ registerMap := by
  constructor
  · intro h
    obtain ⟨l₁, l₂, hmap, -⟩ := List.lookup_eq_some_iff.mp h
    simp [hmap]
  · have hall : ∀ p ∈ registerMap, registerMap.lookup p.1 = some p.2 := by decide
    exact hall (a, e)

theorem registerMap_below : ∀ p ∈ registerMap, p.1 < 0xC0 ∧ p.2.bytes = 4 := by decide

/-- The windows lie one after the other, above the registers (rule R206). -/
theorem windows_ascend {P : Params} (hw : P.maxMbW ≤ 2048) :
    (windows P).Pairwise fun v w => v.base + v.count * v.bytes ≤ w.base := by
  simp [windows]
  omega

theorem windows_above (P : Params) : ∀ v ∈ windows P, 0xC0 ≤ v.base := by
  simp [windows]

theorem windows_elem_bytes (P : Params) : ∀ v ∈ windows P, ∀ i, (v.elem i).bytes = v.bytes := by
  simp [windows, HostElem.bytes]

theorem Window.at?_range {v : Window} {a : Nat} {e : HostElem} (h : v.at? a = some e) :
    v.base ≤ a ∧ a < v.base + v.count * v.bytes := by
  unfold Window.at? at h
  split at h
  · next hin => exact ⟨hin.1, hin.2.1⟩
  · cases h

/-- Where at most one entry of a list answers, the first answer is the only one. -/
theorem findSome?_eq_some_iff_of_pairwise {α β : Type} {f : α → Option β} {l : List α} {b : β}
    (h : l.Pairwise fun v w => (f v).isSome → f w = none) :
    l.findSome? f = some b ↔ ∃ v ∈ l, f v = some b := by
  induction l with
  | nil => simp
  | cons v l ih =>
    obtain ⟨hv, hl⟩ := List.pairwise_cons.mp h
    rw [List.findSome?_cons]
    cases hf : f v with
    | none => simp [hf, ih hl]
    | some c =>
      have hnone : ∀ w ∈ l, f w = none := fun w hw => hv w hw (by simp [hf])
      simp +contextual [hf, hnone]

theorem windows_findSome?_iff {P : Params} (hw : P.maxMbW ≤ 2048) {a : Nat} {e : HostElem} :
    (windows P).findSome? (·.at? a) = some e ↔ ∃ v ∈ windows P, v.at? a = some e := by
  refine findSome?_eq_some_iff_of_pairwise ((windows_ascend hw).imp fun {v w} hvw hv => ?_)
  obtain ⟨e', he'⟩ := Option.isSome_iff_exists.mp hv
  refine Option.eq_none_iff_forall_ne_some.mpr fun c hc => ?_
  have hv := Window.at?_range he'
  have hw := Window.at?_range hc
  omega

theorem locate_eq_some_iff {P : Params} (hw : P.maxMbW ≤ 2048) {a : Word} {e : HostElem} :
    locate P a = some e ↔ (a.toNat, e) ∈ registerMap ∨ ∃ v ∈ windows P, v.at? a.toNat = some e := by
  unfold locate
  split
  · next e' he' =>
    have hbelow := (registerMap_below _ (registerMap_lookup_iff.mp he')).1
    rw [← registerMap_lookup_iff, he']
    refine ⟨.inl, Or.rec id ?_⟩
    rintro ⟨v, hv, hat⟩
    have := windows_above P v hv
    have := (Window.at?_range hat).1
    omega
  · next hnone => rw [windows_findSome?_iff hw, ← registerMap_lookup_iff, hnone]; simp

theorem accessed_eq_some_iff {P : Params} {a : Word} {n : Nat} {e : HostElem} :
    accessed P a n = some e ↔ locate P a = some e ∧ e.bytes = n := by
  refine ⟨accessed_eq_some, ?_⟩
  rintro ⟨hl, hn⟩
  simp only [accessed, hl, if_pos hn]

theorem hostArrays_eq : hostArrays = (windows Config.params).map fun v => (v.base, v.count, v.bytes, v.elem) := rfl

theorem params_maxMbW_le : Config.params.maxMbW ≤ 2048 := Config.maxMbWLessOne.isLt

/-- Settles O57: the windows are disjoint and lie above the registers, so the first entry that maps an address is the
only one. -/
theorem hostMapIsTheTable : Obligations.HostMapIsTheTable := by
  intro a bytes e
  rw [accessed_eq_some_iff, locate_eq_some_iff params_maxMbW_le, hostMaps, hostArrays_eq, or_and_right]
  refine or_congr ⟨?_, ?_⟩ ⟨?_, ?_⟩
  · rintro ⟨hmem, hbytes⟩
    exact ⟨hbytes.symm.trans (registerMap_below _ hmem).2, hmem⟩
  · rintro ⟨rfl, hmem⟩
    exact ⟨hmem, (registerMap_below _ hmem).2⟩
  · rintro ⟨⟨v, hv, hat⟩, hbytes⟩
    obtain ⟨i, hi, ha, rfl⟩ := (Window.at?_eq_some_iff (windows_inRange _ v hv).1).mp hat
    exact ⟨_, List.mem_map_of_mem hv, hbytes.symm.trans (windows_elem_bytes _ v hv i), i, hi, ha, rfl⟩
  · rintro ⟨_, hmem, rfl, i, hi, ha, rfl⟩
    obtain ⟨v, hv, rfl⟩ := List.mem_map.mp hmem
    exact ⟨⟨v, hv, (Window.at?_eq_some_iff (windows_inRange _ v hv).1).mpr ⟨i, hi, ha, rfl⟩⟩,
      windows_elem_bytes _ v hv i⟩

/-! ## Host reads -/

/-- The value a register reads as is the state's, register by register (rule R104). -/
theorem registerValues_eq (s : State) :
    (s.registerValues.map fun r => (r.1, BitVec.ofInt 32 r.2)) =
      (hostRegisters.eraseIdx 1).map fun p => (p.1, readElem Config.params s p.2) := by
  simp [State.registerValues, hostRegisters, readElem, bitpos, BitVec.signExtend]

theorem bitCountHalfAt_eq (s : State) (k : Nat) : bitCountHalfAt s k =
    BitVec.ofNat 32 ((s.mi.bitCount.getD (k / 2) 0).toNat / 2 ^ (32 * (k % 2)) % 2 ^ 32) := by
  refine BitVec.eq_of_toNat_eq ?_
  simp [bitCountHalfAt, BitVec.extractLsb'_toNat, Nat.shiftRight_eq_div_pow]

theorem outAt_eq (s : State) (k : Nat) :
    (if k < s.bw.pos.toNat then (readCell Config.params s.tick .out s.bw.out k).toNat
      else (Config.freeValue .out s.tick k).toNat % 256) = (outAt Config.params s k).toNat := by
  unfold outAt freeBits
  split_ifs
  · rfl
  · rw [BitVec.toNat_setWidth]; rfl

theorem arrayValues_eq (s : State) :
    (s.arrayValues.map fun v => (v.base, v.count, v.bytes, fun k => BitVec.ofNat 32 (v.value k))) =
      hostArrays.map fun w => (w.1, w.2.1, w.2.2.1, fun k => readElem Config.params s (w.2.2.2 k)) := by
  simp [State.arrayValues, hostArrays, readElem, bitCountHalfAt_eq, outAt_eq, probAt, statsAt, nzAt, apply_ite]

/-- The answer of a host read, by the element the access reaches (rule R202, rule R209). -/
theorem hostRead_resp_of_maps {a : Word} {bytes : Nat} {e : HostElem} (h : hostMaps a.toNat bytes e) (s : State) :
    (hostRead Config.params a bytes s).hostResp = .data (readElem Config.params s e) := by
  rw [hostRead_eq, (hostMapIsTheTable a bytes e).mpr h, State.withResp_hostResp]

theorem accessed_eq_none {a : Word} {bytes : Nat} (h : ∀ e, ¬ hostMaps a.toNat bytes e) :
    accessed Config.params a bytes = none :=
  Option.eq_none_iff_forall_ne_some.mpr fun e he => h e ((hostMapIsTheTable a bytes e).mp he)

/-- A register of rule R104 is mapped at its offset and holds its listed value. -/
theorem registerValues_mapped {s : State} {r : Nat × Int} (hr : r ∈ s.registerValues) :
    ∃ e, hostMaps r.1 4 e ∧ readElem Config.params s e = BitVec.ofInt 32 r.2 := by
  have hmem := List.mem_map_of_mem (f := fun r => (r.1, BitVec.ofInt 32 r.2)) hr
  rw [registerValues_eq] at hmem
  obtain ⟨p, hp, heq⟩ := List.mem_map.mp hmem
  obtain ⟨haddr, hvalue⟩ := Prod.mk.inj heq
  exact ⟨p.2, .inl ⟨rfl, haddr ▸ List.mem_of_mem_eraseIdx hp⟩, hvalue⟩

/-- An element of an array of rule R206 is mapped at its address and holds its listed value. -/
theorem arrayValues_mapped {s : State} {v : ArrayValues} (hv : v ∈ s.arrayValues) {k : Nat} (hk : k < v.count) :
    ∃ e, hostMaps (v.base + v.bytes * k) v.bytes e ∧
      readElem Config.params s e = BitVec.ofNat 32 (v.value k) := by
  have hmem := List.mem_map_of_mem
    (f := fun v : ArrayValues => (v.base, v.count, v.bytes, fun k => BitVec.ofNat 32 (v.value k))) hv
  rw [arrayValues_eq] at hmem
  obtain ⟨w, hw, heq⟩ := List.mem_map.mp hmem
  simp only [Prod.mk.injEq] at heq
  obtain ⟨hbase, hcount, hbytes, hvalue⟩ := heq
  exact ⟨w.2.2.2 k, .inr ⟨w, hw, hbytes.symm, k, hcount ▸ hk, by rw [hbase, hbytes], rfl⟩, congrFun hvalue k⟩

/-- Settles O58: the listed registers and arrays are mapped elements, so the host map gives the answer. -/
theorem hostReadHasNoSideEffect : Obligations.HostReadHasNoSideEffect := by
  intro s q a bytes hq
  refine ⟨hostRead Config.params a bytes (s.accept q), step_of_access hq rfl, ?_, ?_, ?_, ?_, ?_⟩
  · rw [hostRead_eq, State.withResp_hostResp]
  · intro r hr ha hbytes
    obtain ⟨e, hmaps, hvalue⟩ := registerValues_mapped (s := s.accept q) hr
    rw [← ha, ← hbytes] at hmaps
    rw [hostRead_resp_of_maps hmaps, hvalue]
  · intro v hv hbytes k hk ha
    obtain ⟨e, hmaps, hvalue⟩ := arrayValues_mapped hv hk
    rw [← ha, ← hbytes] at hmaps
    rw [hostRead_resp_of_maps hmaps, hvalue]
  · exact fun e hmaps => hostRead_resp_of_maps hmaps _
  · intro hnone
    rw [hostRead_eq, accessed_eq_none hnone, State.withResp_hostResp]

/-! ## Host writes -/

/-- Stored in its low `n` bits and read back, a value keeps those bits. -/
theorem setWidth_setWidth_eq_and (v : Word) (n : Nat) :
    (v.setWidth n).setWidth 32 = v &&& BitVec.ofNat 32 (2 ^ n - 1) := by
  refine BitVec.eq_of_getLsbD_eq fun i hi => ?_
  simp only [BitVec.getLsbD_setWidth, BitVec.getLsbD_and, BitVec.getLsbD_ofNat, hi, decide_true, Bool.true_and,
    Nat.testBit_two_pow_sub_one]
  exact Bool.and_comm _ _

theorem readCell_cellSet {w : Nat} (P : Params) (tick : Nat) (site : FreeSite) (m : Cells (BitVec w)) (k j : Nat)
    (v : BitVec w) :
    readCell P tick site (cellSet m k v) j = if j = k then v else readCell P tick site m j := by
  rw [readCell, cellGet_cellSet]
  split_ifs <;> rfl

/-- PROB after a write of one cell. -/
theorem probAt_set_same {r : Rc} {i : Nat} (h : i < r.prob.length) (v : Byte) :
    probAt { r with prob := r.prob.set i v } i = v := by
  simp only [probAt, List.getD_eq_getElem?_getD, List.getElem?_set_self h, Option.getD_some]

theorem probAt_set_of_ne (r : Rc) {i j : Nat} (h : j ≠ i) (v : Byte) :
    probAt { r with prob := r.prob.set i v } j = probAt r j := by
  simp only [probAt, List.getD_eq_getElem?_getD, List.getElem?_set_ne h.symm]

/-- Exactly the elements rule R104 and rule R206 let the host write are stored. -/
theorem writeElem_isSome (s : State) (v : Word) (e : HostElem) : (writeElem s v e).isSome = e.writable.isSome := by
  cases e <;> rfl

/-- What was written reads back, cut to the element's field. -/
theorem readElem_writeElem_same {P : Params} {s t : State} {v m : Word} {e : HostElem}
    (hprob : ∀ i, e = .prob i → i < s.rc.prob.length) (hm : e.writable = some m)
    (h : writeElem s v e = some t) : readElem P t e = v &&& m := by
  cases e <;> simp only [HostElem.writable, Option.some.injEq, reduceCtorEq] at hm <;> subst hm <;>
    simp only [writeElem, Option.some.injEq] at h <;> subst h
  case prob i =>
    rw [readElem, State.withRc_rc, probAt_set_same (hprob i rfl)]
    exact setWidth_setWidth_eq_and v 8
  case coef i =>
    rw [readElem, State.withRc_rc, readCell_cellSet, if_pos rfl]
    exact setWidth_setWidth_eq_and v 16
  case yuvOut i =>
    rw [readElem, State.withMi_mi, readCell_cellSet, if_pos rfl]
    exact setWidth_setWidth_eq_and v 8
  case cfgWidth | cfgHeight => exact setWidth_setWidth_eq_and v 16
  case mbType => exact setWidth_setWidth_eq_and v 1
  case mbSegment => exact setWidth_setWidth_eq_and v 2
  case cfgYStride | cfgUvStride | cfgYBase | cfgUBase | cfgVBase => exact (BitVec.and_allOnes).symm

/-- Every other element reads as before. -/
theorem readElem_writeElem_other {P : Params} {s t : State} {v : Word} {e e' : HostElem} (hne : e' ≠ e)
    (h : writeElem s v e = some t) : readElem P t e' = readElem P s e' := by
  cases e <;> simp only [writeElem, Option.some.injEq, reduceCtorEq] at h <;> subst h
  case prob i =>
    cases e' with
    | prob j =>
      have hji : j ≠ i := fun h => hne (h ▸ rfl)
      rw [readElem, State.withRc_rc, probAt_set_of_ne _ hji]
      rfl
    | _ => rfl
  case coef i =>
    cases e' with
    | coef j =>
      have hji : j ≠ i := fun h => hne (h ▸ rfl)
      rw [readElem, State.withRc_rc, readCell_cellSet, if_neg hji]
      rfl
    | _ => rfl
  case yuvOut i =>
    cases e' with
    | yuvOut j =>
      have hji : j ≠ i := fun h => hne (h ▸ rfl)
      rw [readElem, State.withMi_mi, readCell_cellSet, if_neg hji]
      rfl
    | _ => rfl
  all_goals cases e' <;> first | exact absurd rfl hne | rfl

theorem windows_prob_lt (P : Params) : ∀ v ∈ windows P, ∀ k < v.count, ∀ i, v.elem k = .prob i → i < 1056 := by
  simp +contextual [windows]

theorem prob_lt_of_hostMaps {a n i : Nat} (h : hostMaps a n (.prob i)) : i < 1056 := by
  rw [hostMaps, hostArrays_eq] at h
  rcases h with ⟨-, hmem⟩ | ⟨_, hmem, -, k, hk, -, he⟩
  · simp [hostRegisters] at hmem
  · obtain ⟨v, hv, rfl⟩ := List.mem_map.mp hmem
    exact windows_prob_lt _ v hv k hk i he.symm

/-- Settles O59: the host map gives the element, and the element's write decides what reads back. -/
theorem hostWriteStoresItsElement : Obligations.HostWriteStoresItsElement := by
  intro s q a bytes v hq hcmd hlen
  have hnocmd : commandOf (.write a bytes v) = none := if_neg fun h => hcmd h.1 h.2
  refine ⟨hostWrite Config.params a bytes v (s.accept q), step_of_access hq hnocmd, ?_, ?_⟩
  · intro e m hmaps hm
    obtain ⟨t, ht⟩ : ∃ t, writeElem (s.accept q) v e = some t := by
      rw [← Option.isSome_iff_exists, writeElem_isSome, hm]
      rfl
    have hwrite : hostWrite Config.params a bytes v (s.accept q) = t := by
      simp only [hostWrite, (hostMapIsTheTable a bytes e).mpr hmaps, ht]
    have hframe := writeElem_frame ht
    have hprob : ∀ i, e = .prob i → i < (s.accept q).rc.prob.length := by
      rintro i rfl
      exact (prob_lt_of_hostMaps hmaps).trans_eq hlen.symm
    rw [hwrite]
    exact ⟨congrArg State.hostResp hframe, readElem_writeElem_same hprob hm ht,
      fun e' hne => readElem_writeElem_other hne ht, hframe⟩
  · intro hro
    unfold hostWrite
    split
    · next e he =>
      have hnone : writeElem (s.accept q) v e = none := by
        rw [← Option.not_isSome_iff_eq_none, writeElem_isSome, hro e ((hostMapIsTheTable a bytes e).mp he)]
        exact Bool.false_ne_true
      rw [hnone]
    · rfl

end Sys2Proof.Machine
end

section
/-! PROOF. The source memory: the host's own accesses to it, and its isolation from every command but MI_IMPORT and
MI_EXPORT (O60, O14). A body that ignores the source memory commutes with replacing it, `bodyOf_withSrc`; MI_IMPORT's
and MI_EXPORT's do so but for the samples and the bytes they move. `exec_withSrc` carries that over to commands that are
ignored or fault. -/
namespace Sys2Proof.Machine

/-! ## The host's own accesses -/

/-- Settles O60: a write of one byte, then a read after that write. -/
theorem sourceByteReadsBack : Obligations.SourceByteReadsBack := by
  intro s q a v hq
  refine ⟨(s.accept (.srcRead a :: q)).withSrc (cellSet s.src a.toNat v), _, step_of_access hq rfl,
    step_of_access rfl rfl, rfl, fun b hb => cellGet_cellSet_other s.src v hb, ?_⟩
  rw [hostAccess, srcRead, State.accept_src, State.withSrc_src, readCell_cellSet, if_pos rfl]

/-! ## The other bodies over another source memory

None of the functions a body calls mentions `src`, so a call over `s.withSrc m` unfolds to the call over `s`, and `rfl`
sees it. The recursive ones need an induction, and a body's branches must first be brought under the map. -/

theorem checkBlocks_withSrc (P : Params) (s : State) (m : List Host.Cell) (ks : List MbBlock) :
    checkBlocks P (s.withSrc m) ks = checkBlocks P s ks := by
  induction ks with
  | nil => rfl
  | cons k ks ih => rw [checkBlocks, ih]; rfl

theorem walkBlocks_withSrc (P : Params) (s : State) (m : List Host.Cell) (ks : List MbBlock) (f : NzFlags) :
    walkBlocks P (s.withSrc m) ks f = walkBlocks P s ks f := by
  induction ks generalizing f with
  | nil => rfl
  | cons k ks ih => simp only [walkBlocks, ih]; rfl

theorem putBits_withSrc (P : Params) (ds : List CodedBit) (s : State) (m : List Host.Cell) :
    putBits P ds (s.withSrc m) = (State.withSrc · m) <$> putBits P ds s := by
  simp only [putBits, map_bind, map_pure]
  rfl

theorem finishBody_withSrc (P : Params) (s : State) (m : List Host.Cell) :
    finishBody P (s.withSrc m) = (State.withSrc · m) <$> finishBody P s := by
  simp only [finishBody, State.withSrc_bw]
  split
  · rfl
  · rfl
  · simp only [map_bind, map_pure]; rfl

theorem resetBody_withSrc (P : Params) (s : State) (m : List Host.Cell) :
    resetBody P (s.withSrc m) = (State.withSrc · m) <$> resetBody P s := by
  simp only [resetBody, apply_ite (Functor.map _)]
  rfl

theorem skipNzBody_withSrc (P : Params) (s : State) (m : List Host.Cell) :
    skipNzBody P (s.withSrc m) = (State.withSrc · m) <$> skipNzBody P s := by
  simp only [skipNzBody, map_bind, apply_ite (Functor.map _), map_pure]
  rfl

theorem codeMbBody_withSrc (P : Params) (s : State) (m : List Host.Cell) :
    codeMbBody P (s.withSrc m) = (State.withSrc · m) <$> codeMbBody P s := by
  simp only [codeMbBody, checkBlocks_withSrc, walkBlocks_withSrc, map_bind, map_pure]
  rfl

theorem recordMbBody_withSrc (P : Params) (s : State) (m : List Host.Cell) :
    recordMbBody P (s.withSrc m) = (State.withSrc · m) <$> recordMbBody P s := by
  simp only [recordMbBody, checkBlocks_withSrc, walkBlocks_withSrc, map_bind, map_pure]
  rfl

/-- The body of a command other than MI_IMPORT and MI_EXPORT does the same whatever the source memory holds. -/
theorem bodyOf_withSrc {i : Instr} (himport : i ≠ .miImport) (hexport : i ≠ .miExport) (P : Params) (s : State)
    (m : List Host.Cell) : bodyOf P i (s.withSrc m) = (State.withSrc · m) <$> bodyOf P i s := by
  cases i with
  | miImport => exact absurd rfl himport
  | miExport => exact absurd rfl hexport
  | bwPutbit | bwPutbitu | bwPutbits | bwPutsbits => exact putBits_withSrc P _ s m
  | bwFinish => exact finishBody_withSrc P s m
  | miReset => exact resetBody_withSrc P s m
  | miSkipNz => exact skipNzBody_withSrc P s m
  | miSaveBoundary | miAdvance | miNzToFlags | miFlagsToNz | rcCodeBlock | rcRecordBlock =>
    simp only [bodyOf, saveBoundaryBody, advanceBody, nzToFlagsBody, flagsToNzBody, codeBlockBody, recordBlockBody,
      map_bind, map_pure]
    rfl
  | rcCodeMb => exact codeMbBody_withSrc P s m
  | rcRecordMb => exact recordMbBody_withSrc P s m
  | nop | softReset | bwInit | rcResetStats | rcLoadDefault | rcFinalize => rfl

/-! ## MI_IMPORT and MI_EXPORT over another source memory -/

/-- YUV_IN as MI_IMPORT leaves it, for a macroblock on the grid (rule R530). -/
def importedSamples (P : Params) (s : State) : Cells Byte :=
  cellSetAll s.mi.yuvIn ((planes s (geometryOf s)).flatMap (importWrites P s))

/-- The bytes MI_EXPORT writes, for a macroblock on the grid (rule R540). -/
def exportedBytes (P : Params) (s : State) : List (Word × Byte) :=
  (planes s (geometryOf s)).flatMap (exportWrites P s)

/-- Geometry() either faults or answers the part of the macroblock inside the image (rule R502). -/
theorem geometry_bind {α : Type} (s : State) (k : Geometry → Except Raise α) :
    geometry s >>= k =
      if mbCount s.cfg.width ≠ s.mi.mbw.toNat ∨ mbCount s.cfg.height ≠ s.mi.mbh.toNat then
        .error { code := .invalidDimensions, info := dimensionsInfo s.cfg }
      else k (geometryOf s) := by
  unfold geometry
  split_ifs <;> rfl

theorem State.withMi_withMi (s : State) (a b : Mi) : (s.withMi a).withMi b = s.withMi b := rfl

/-- MI_IMPORT does the same over another source memory, but for the samples it takes from it. -/
theorem importBody_withSrc (P : Params) (s : State) (m : List Host.Cell) :
    importBody P (s.withSrc m) =
      (fun t => (t.withMi { t.mi with yuvIn := importedSamples P (s.withSrc m) }).withSrc m) <$> importBody P s := by
  simp only [importBody, importedSamples, geometry_bind, map_bind, apply_ite (Functor.map _), map_pure,
    State.withMi_withMi, State.withMi_mi]
  rfl

/-- MI_EXPORT does the same over another source memory, and writes the same bytes to it. -/
theorem exportBody_withSrc (P : Params) (s : State) (m : List Host.Cell) :
    exportBody P (s.withSrc m) =
      (fun t => t.withSrc (srcWriteAll m (exportedBytes P s))) <$> exportBody P s := by
  simp only [exportBody, geometry_bind, map_bind, apply_ite (Functor.map _), map_pure]
  rfl

/-! ## Commands over another source memory -/

theorem takeFault_withSrc (P : Params) (sp : Spoil) (w : Word) (r : Raise) (s : State) (m : List Host.Cell) :
    takeFault P sp w r (s.withSrc m) = (takeFault P sp w r s).withSrc m := by
  unfold takeFault raiseFault spoil
  split_ifs
  · cases sp <;> rfl
  · rfl

/-- A command whose body, over the source memory `m` instead, has its result changed by `f m`: it is ignored or faults
in the same way over every source memory, or it completes over every one. -/
theorem exec_withSrc {i : Instr} {s t : State} {f : List Host.Cell → State → State} (hsoft : i ≠ .softReset)
    (hbody : ∀ m, bodyOf Config.params i (s.withSrc m) = f m <$> bodyOf Config.params i s)
    (h : exec i s = .next t) :
    (t.src = s.src ∧ ∀ m, exec i (s.withSrc m) = .next (t.withSrc m)) ∨
      (bodyOf Config.params i s = .ok t ∧ ∀ m, exec i (s.withSrc m) = .next (f m t)) := by
  rcases exec_cases h with ⟨hi, -⟩ | ⟨hf, rfl⟩ | ⟨hs, -, hok⟩ | ⟨hs, -, r, herr, rfl⟩
  · exact absurd hi hsoft
  · exact .inl ⟨rfl, fun m => by
      rw [exec_eq_runCommand hsoft, runCommand_of_faulted (s := t.withSrc m) _ _ _ _ hf]⟩
  · simp only [hok] at hbody
    exact .inr ⟨hok, fun m => exec_of_ok hsoft hs (hbody m)⟩
  · simp only [herr] at hbody
    refine .inl ⟨takeFault_src _ _ _ _ _, fun m => ?_⟩
    rw [exec_eq_runCommand hsoft, runCommand_of_error (s := s.withSrc m) hs (hbody m), takeFault_withSrc]

/-- Only MI_EXPORT writes the source memory (rule R214). -/
theorem exec_src {i : Instr} {s t : State} (hexport : i ≠ .miExport) (h : exec i s = .next t) : t.src = s.src := by
  by_cases hsoft : i = .softReset
  · subst hsoft
    cases h
    rfl
  obtain ⟨-, -, -, -, -, hsrc, -⟩ := onlyNamedCommandsWrite i s t h hsoft
  exact not_not.mp fun hne => hexport (hsrc hne)

/-- A command other than MI_IMPORT and MI_EXPORT does the same whatever the source memory holds. -/
theorem exec_withSrc_of_other {i : Instr} {s t : State} (himport : i ≠ .miImport) (hexport : i ≠ .miExport)
    (h : exec i s = .next t) (m : List Host.Cell) : exec i (s.withSrc m) = .next (t.withSrc m) := by
  by_cases hsoft : i = .softReset
  · subst hsoft
    cases h
    rfl
  rcases exec_withSrc hsoft (bodyOf_withSrc himport hexport _ s) h with ⟨-, he⟩ | ⟨-, he⟩ <;> exact he m

/-- MI_IMPORT over another source memory: only the samples in YUV_IN differ. -/
theorem exec_miImport_withSrc {s t : State} (h : exec .miImport s = .next t) (m : List Host.Cell) :
    ∃ yuvIn, exec .miImport (s.withSrc m) = .next ((t.withMi { t.mi with yuvIn }).withSrc m) := by
  rcases exec_withSrc (i := .miImport) nofun (importBody_withSrc _ s) h with ⟨-, he⟩ | ⟨-, he⟩
  · exact ⟨t.mi.yuvIn, he m⟩
  · exact ⟨_, he m⟩

/-- MI_EXPORT writes the same bytes over every source memory: none where it is ignored or faults. -/
theorem exec_miExport_withSrc {s t : State} (h : exec .miExport s = .next t) :
    ∃ writes : List (Word × Byte), t.src = srcWriteAll s.src writes ∧
      ∀ m, exec .miExport (s.withSrc m) = .next (t.withSrc (srcWriteAll m writes)) := by
  rcases exec_withSrc (i := .miExport) nofun (exportBody_withSrc _ s) h with ⟨hsrc, he⟩ | ⟨hok, he⟩
  · exact ⟨[], hsrc, he⟩
  · obtain ⟨-, rfl⟩ := exportBody_ok hok
    exact ⟨exportedBytes Config.params s, rfl, he⟩

/-- Settles O14: the four clauses are `exec_src`, `exec_withSrc_of_other`, `exec_miImport_withSrc` and
`exec_miExport_withSrc`. -/
theorem sourceMemoryIsIsolated : Obligations.SourceMemoryIsIsolated := by
  intro i s t h
  refine ⟨fun hexport => exec_src hexport h, fun himport hexport => exec_withSrc_of_other himport hexport h, ?_, ?_⟩
  · rintro rfl m
    obtain ⟨yuvIn, he⟩ := exec_miImport_withSrc h m
    exact ⟨_, he, rfl⟩
  · rintro rfl
    exact exec_miExport_withSrc h

end Sys2Proof.Machine
end

section
/-! PROOF. Decoding and encoding are inverse, the decoder accepts the words of the opcode table, and a word that does
not decode faults (O1, O2, O3, O4, O6). A word is its opcode above its 26 operand bits, and the operand bits are the
concatenation of the fields of the format (rule R300 to rule R305). `Instr.readOperands` is the format `decode` applies
under the opcode of a command, so what a format accepts, said once for each of the five, gives the rest. -/
namespace Sys2Proof

/-! ## A word and its fields -/

theorem append_eq_append_iff {m n : Nat} {a c : BitVec m} {b d : BitVec n} : a ++ b = c ++ d ↔ a = c ∧ b = d := by
  refine ⟨fun h => ⟨?_, ?_⟩, by rintro ⟨rfl, rfl⟩; rfl⟩
  · rw [← BitVec.extractLsb'_append_eq_left (a := a) (b := b), h, BitVec.extractLsb'_append_eq_left]
  · rw [← BitVec.extractLsb'_append_eq_right (a := a) (b := b), h, BitVec.extractLsb'_append_eq_right]

theorem append_and_append_eq_iff {m n : Nat} {a c e : BitVec m} {b d f : BitVec n} :
    (a ++ b) &&& (c ++ d) = e ++ f ↔ a &&& c = e ∧ b &&& d = f := by
  rw [BitVec.and_append, append_eq_append_iff]

/-- A word is its opcode above its operand bits (rule R300). -/
theorem opField_append_operands (w : Word) : opField w ++ w.extractLsb' 0 26 = w :=
  BitVec.extractLsb'_append_extractLsb' (w := 6) (len := 26)

theorem encode_eq_iff {i : Instr} {w : Word} :
    encode i = w ↔ opField w = i.opcode ∧ w.extractLsb' 0 26 = i.operandBits := by
  constructor
  · rintro rfl
    exact Laws.EncodingFields.fields _ _
  · rintro ⟨hop, hbits⟩
    rw [encode, ← hop, ← hbits, opField_append_operands]

theorem ofBool_getLsbD (w : Word) (k : Nat) : BitVec.ofBool (w.getLsbD k) = w.extractLsb' k 1 :=
  BitVec.eq_of_getLsbD_eq fun j hj => by
    obtain rfl : j = 0 := by omega
    simp

/-- The fields of format PB (rule R302). -/
theorem operands_PB_iff {w : Word} {z : BitVec 17} {bit : Bool} {prob : Byte} :
    w.extractLsb' 0 26 = z ++ BitVec.ofBool bit ++ prob ↔
      w.extractLsb' 9 17 = z ∧ w.getLsbD 8 = bit ∧ w.extractLsb' 0 8 = prob := by
  have hw : w.extractLsb' 0 26 = w.extractLsb' 9 17 ++ w.extractLsb' 8 1 ++ w.extractLsb' 0 8 := by
    iterate 2 rw [BitVec.extractLsb'_append_extractLsb'_eq_extractLsb']
    all_goals rfl
  rw [hw, append_eq_append_iff, append_eq_append_iff, ← ofBool_getLsbD, BitVec.ofBool_eq_iff_eq, and_assoc]

/-- The fields of format PU (rule R303). -/
theorem operands_PU_iff {w : Word} {z : BitVec 25} {bit : Bool} :
    w.extractLsb' 0 26 = z ++ BitVec.ofBool bit ↔ w.extractLsb' 1 25 = z ∧ w.getLsbD 0 = bit := by
  have hw : w.extractLsb' 0 26 = w.extractLsb' 1 25 ++ w.extractLsb' 0 1 := by
    rw [BitVec.extractLsb'_append_extractLsb'_eq_extractLsb']
    rfl
  rw [hw, append_eq_append_iff, ← ofBool_getLsbD, BitVec.ofBool_eq_iff_eq]

/-- The fields of format PL (rule R304). -/
theorem operands_PL_iff {w : Word} {z nb : BitVec 5} {val : BitVec 16} :
    w.extractLsb' 0 26 = z ++ nb ++ val ↔
      w.extractLsb' 21 5 = z ∧ w.extractLsb' 16 5 = nb ∧ w.extractLsb' 0 16 = val := by
  have hw : w.extractLsb' 0 26 = w.extractLsb' 21 5 ++ w.extractLsb' 16 5 ++ w.extractLsb' 0 16 := by
    iterate 2 rw [BitVec.extractLsb'_append_extractLsb'_eq_extractLsb']
    all_goals rfl
  rw [hw, append_eq_append_iff, append_eq_append_iff, and_assoc]

/-- The fields of format RB (rule R305). -/
theorem operands_RB_iff {w : Word} {z : BitVec 13} {slot : BitVec 5} {z' ty z'' ctx : BitVec 2} :
    w.extractLsb' 0 26 = z ++ slot ++ z' ++ ty ++ z'' ++ ctx ↔
      w.extractLsb' 13 13 = z ∧ w.extractLsb' 8 5 = slot ∧ w.extractLsb' 6 2 = z' ∧ w.extractLsb' 4 2 = ty ∧
        w.extractLsb' 2 2 = z'' ∧ w.extractLsb' 0 2 = ctx := by
  have hw : w.extractLsb' 0 26 = w.extractLsb' 13 13 ++ w.extractLsb' 8 5 ++ w.extractLsb' 6 2 ++
      w.extractLsb' 4 2 ++ w.extractLsb' 2 2 ++ w.extractLsb' 0 2 := by
    iterate 5 rw [BitVec.extractLsb'_append_extractLsb'_eq_extractLsb']
    all_goals rfl
  rw [hw]
  iterate 5 rw [append_eq_append_iff]
  simp only [and_assoc]

/-! ## What a format accepts -/

theorem ite_error_eq_ok_iff {ε α : Type} {c : Prop} [Decidable c] {x : Except ε α} {e : ε} {a : α} :
    (if c then x else .error e) = .ok a ↔ c ∧ x = .ok a := by
  split <;> simp [*]

theorem formatN_eq_ok_iff {w : Word} {i j : Instr} : formatN w i = .ok j ↔ w.extractLsb' 0 26 = 0 ∧ i = j := by
  simp [formatN, ite_error_eq_ok_iff]

theorem formatPB_eq_ok_iff {w : Word} {f : Bool → Byte → Instr} {j : Instr} :
    formatPB w f = .ok j ↔
      ∃ bit prob, w.extractLsb' 0 26 = 0#17 ++ BitVec.ofBool bit ++ prob ∧ f bit prob = j := by
  simp [formatPB, ite_error_eq_ok_iff, operands_PB_iff, and_assoc]

theorem formatPU_eq_ok_iff {w : Word} {f : Bool → Instr} {j : Instr} :
    formatPU w f = .ok j ↔ ∃ bit, w.extractLsb' 0 26 = 0#25 ++ BitVec.ofBool bit ∧ f bit = j := by
  simp only [formatPU, ite_error_eq_ok_iff, operands_PU_iff, and_assoc]
  simp

theorem formatPL_eq_ok_iff {w : Word} {ok : BitVec 5 → Bool} {f : BitVec 5 → BitVec 16 → Instr} {j : Instr} :
    formatPL w ok f = .ok j ↔ ∃ nb val, w.extractLsb' 0 26 = 0#5 ++ nb ++ val ∧ ok nb = true ∧ f nb val = j := by
  simp [formatPL, ite_error_eq_ok_iff, operands_PL_iff, and_assoc]

theorem formatRB_eq_ok_iff {w : Word} {f : BitVec 5 → BitVec 2 → BitVec 2 → Instr} {j : Instr} :
    formatRB w f = .ok j ↔
      ∃ slot ty ctx, w.extractLsb' 0 26 = 0#13 ++ slot ++ 0#2 ++ ty ++ 0#2 ++ ctx ∧
        (slotOk slot && ctxOk ctx) = true ∧ f slot ty ctx = j := by
  simp [formatRB, ite_error_eq_ok_iff, operands_RB_iff, and_assoc]

/-! ## The format of each command -/

/-- The format `decode` reads a word in whose opcode is the one of the given command. The operands of that command do
not matter, nor does the opcode of the word. -/
def Instr.readOperands (w : Word) : Instr → Except DecodeError Instr
  | .bwPutbit _ _ => formatPB w .bwPutbit
  | .bwPutbitu _ => formatPU w .bwPutbitu
  | .bwPutbits _ _ => formatPL w putbitsCountOk .bwPutbits
  | .bwPutsbits _ _ => formatPL w putsbitsCountOk .bwPutsbits
  | .rcCodeBlock _ _ _ => formatRB w .rcCodeBlock
  | .rcRecordBlock _ _ _ => formatRB w .rcRecordBlock
  | i => formatN w i

theorem decode_of_opField {w : Word} {i : Instr} (h : opField w = i.opcode) : decode w = i.readOperands w := by
  unfold decode
  rw [h]
  cases i <;> rfl

/-- One command of each opcode, in the order of rule R307. -/
def commandForms : List Instr :=
  [.nop, .softReset, .bwInit, .bwPutbit false 0, .bwPutbitu false, .bwPutbits 0 0, .bwPutsbits 0 0, .bwFinish,
    .miReset, .miImport, .miExport, .miSaveBoundary, .miAdvance, .miNzToFlags, .miFlagsToNz, .miSkipNz,
    .rcCodeBlock 0 0 0, .rcRecordBlock 0 0 0, .rcCodeMb, .rcRecordMb, .rcResetStats, .rcLoadDefault, .rcFinalize]

/-- Every other opcode is reserved (rule R309, rule R310). -/
theorem decode_of_reserved {w : Word} (h : ∀ i ∈ commandForms, opField w ≠ i.opcode) :
    decode w = .error .reservedOpcode := by
  have hop : ∀ n, (opField w).toNat = n → n ∉ commandForms.map fun i => i.opcode.toNat := by
    rintro _ rfl hmem
    obtain ⟨i, hi, he⟩ := List.mem_map.1 hmem
    exact h i hi (BitVec.eq_of_toNat_eq he.symm)
  unfold decode
  split
  on_goal 24 => rfl
  all_goals next hn => exact (hop _ hn (by decide)).elim

theorem decode_eq_ok_iff_readOperands {w : Word} {j : Instr} :
    decode w = .ok j ↔ ∃ i ∈ commandForms, opField w = i.opcode ∧ i.readOperands w = .ok j := by
  constructor
  · intro h
    by_cases hform : ∃ i ∈ commandForms, opField w = i.opcode
    · obtain ⟨i, hi, hop⟩ := hform
      exact ⟨i, hi, hop, decode_of_opField hop ▸ h⟩
    · rw [decode_of_reserved fun i hi hop => hform ⟨i, hi, hop⟩] at h
      cases h
  · rintro ⟨i, -, hop, h⟩
    rw [decode_of_opField hop, h]

/-! ## Decoding and encoding -/

/-- A format gives back only commands of its own opcode, in range, with the operand bits it read. -/
theorem Instr.of_readOperands {w : Word} {i j : Instr} (h : i.readOperands w = .ok j) :
    j.opcode = i.opcode ∧ j.wellFormed = true ∧ w.extractLsb' 0 26 = j.operandBits := by
  cases i with
  | bwPutbit _ _ =>
    obtain ⟨bit, prob, hw, rfl⟩ := formatPB_eq_ok_iff.1 h
    exact ⟨rfl, rfl, hw⟩
  | bwPutbitu _ =>
    obtain ⟨bit, hw, rfl⟩ := formatPU_eq_ok_iff.1 h
    exact ⟨rfl, rfl, hw⟩
  | bwPutbits _ _ | bwPutsbits _ _ =>
    obtain ⟨nb, val, hw, hnb, rfl⟩ := formatPL_eq_ok_iff.1 h
    exact ⟨rfl, hnb, hw⟩
  | rcCodeBlock _ _ _ | rcRecordBlock _ _ _ =>
    obtain ⟨slot, ty, ctx, hw, hrange, rfl⟩ := formatRB_eq_ok_iff.1 h
    exact ⟨rfl, hrange, hw⟩
  | _ =>
    obtain ⟨hw, rfl⟩ := formatN_eq_ok_iff.1 h
    exact ⟨rfl, rfl, hw⟩

/-- A format reads the operand bits of a command in range back. -/
theorem Instr.readOperands_of_operandBits {w : Word} {i : Instr} (h : i.wellFormed = true)
    (hw : w.extractLsb' 0 26 = i.operandBits) : i.readOperands w = .ok i := by
  cases i with
  | bwPutbit bit prob => exact formatPB_eq_ok_iff.2 ⟨bit, prob, hw, rfl⟩
  | bwPutbitu bit => exact formatPU_eq_ok_iff.2 ⟨bit, hw, rfl⟩
  | bwPutbits nb val | bwPutsbits nb val => exact formatPL_eq_ok_iff.2 ⟨nb, val, hw, h, rfl⟩
  | rcCodeBlock slot ty ctx | rcRecordBlock slot ty ctx => exact formatRB_eq_ok_iff.2 ⟨slot, ty, ctx, hw, h, rfl⟩
  | _ => exact formatN_eq_ok_iff.2 ⟨hw, rfl⟩

/-- The decoder is the partial inverse of the encoder, on the commands in range (rule R308). -/
theorem decode_eq_ok_iff {w : Word} {i : Instr} : decode w = .ok i ↔ i.wellFormed = true ∧ encode i = w := by
  constructor
  · intro h
    obtain ⟨form, -, hop, hread⟩ := decode_eq_ok_iff_readOperands.1 h
    obtain ⟨hopcode, hwf, hbits⟩ := Instr.of_readOperands hread
    exact ⟨hwf, encode_eq_iff.2 ⟨hop.trans hopcode.symm, hbits⟩⟩
  · rintro ⟨hwf, he⟩
    obtain ⟨hop, hbits⟩ := encode_eq_iff.1 he
    rw [decode_of_opField hop, Instr.readOperands_of_operandBits hwf hbits]

/-- Settles O1: `decode_eq_ok_iff` at the word the command encodes to. -/
theorem decodeInvertsEncode : Obligations.DecodeInvertsEncode :=
  fun _ hwf => decode_eq_ok_iff.2 ⟨hwf, rfl⟩

/-- Settles O2: `decode_eq_ok_iff`, read from left to right. -/
theorem encodeInvertsDecode : Obligations.EncodeInvertsDecode :=
  fun _ _ => decode_eq_ok_iff.1

/-- Settles O4: each word is decoded, and O2 gives the way back. -/
theorem exampleWordsDecode : Obligations.ExampleWordsDecode := by
  intro p hp
  have hd : decode p.1 = .ok p.2 := by
    revert hp
    revert p
    decide
  exact ⟨hd, (decode_eq_ok_iff.1 hd).2⟩

/-! ## The opcode table -/

/-- The "must be 0" bits of the format of a command, as a mask of the operand bits (rule R301 to rule R305). -/
def Instr.zeroMask : Instr → BitVec 26
  | .bwPutbit _ _ => BitVec.allOnes 17 ++ 0#1 ++ 0#8
  | .bwPutbitu _ => BitVec.allOnes 25 ++ 0#1
  | .bwPutbits _ _ => BitVec.allOnes 5 ++ 0#5 ++ 0#16
  | .bwPutsbits _ _ => BitVec.allOnes 5 ++ 0#5 ++ 0#16
  | .rcCodeBlock _ _ _ => BitVec.allOnes 13 ++ 0#5 ++ BitVec.allOnes 2 ++ 0#2 ++ BitVec.allOnes 2 ++ 0#2
  | .rcRecordBlock _ _ _ => BitVec.allOnes 13 ++ 0#5 ++ BitVec.allOnes 2 ++ 0#2 ++ BitVec.allOnes 2 ++ 0#2
  | _ => BitVec.allOnes 26

/-- The fields of the format of a command that have a range (rule R304, rule R305). -/
def Instr.ranges : Instr → List FieldRange
  | .bwPutbits _ _ => [⟨16, 5, 1, 16⟩]
  | .bwPutsbits _ _ => [⟨16, 5, 0, 15⟩]
  | .rcCodeBlock _ _ _ => [⟨8, 5, 0, 24⟩, ⟨0, 2, 0, 2⟩]
  | .rcRecordBlock _ _ _ => [⟨8, 5, 0, 24⟩, ⟨0, 2, 0, 2⟩]
  | _ => []

/-- A row of the opcode table without its name. -/
def OpcodeRow.unnamed (r : OpcodeRow) : OpcodeRow := ⟨"", r.pattern, r.mask, r.ranges⟩

theorem OpcodeRow.unnamed_covers (r : OpcodeRow) (w : Word) : r.unnamed.covers w = r.covers w := rfl

/-- The unnamed row of the opcode table for a command. -/
def Instr.row (i : Instr) : OpcodeRow := ⟨"", i.opcode ++ 0#26, BitVec.allOnes 6 ++ i.zeroMask, i.ranges⟩

/-- The opcode table has one row for each command, made of its opcode and its format (rule R307). -/
theorem opcodeTable_eq_rows : opcodeTable.map OpcodeRow.unnamed = commandForms.map Instr.row := by
  decide

theorem exists_opcodeTable_iff {w : Word} :
    (∃ r ∈ opcodeTable, r.covers w = true) ↔ ∃ i ∈ commandForms, i.row.covers w = true :=
  calc (∃ r ∈ opcodeTable, r.covers w = true)
    _ ↔ ∃ r ∈ opcodeTable.map OpcodeRow.unnamed, r.covers w = true := by
      simp [OpcodeRow.unnamed_covers]
    _ ↔ ∃ i ∈ commandForms, i.row.covers w = true := by simp [opcodeTable_eq_rows]

/-- What the row of a command asks of the operand bits of a word: zeros under its mask, and its ranges. -/
def Instr.fits (w : Word) (i : Instr) : Prop :=
  w.extractLsb' 0 26 &&& i.zeroMask = 0 ∧
    ∀ f ∈ i.ranges,
      f.least ≤ (w.extractLsb' f.lo f.width).toNat ∧ (w.extractLsb' f.lo f.width).toNat ≤ f.greatest

/-- A row covers the words of its opcode whose operand bits fit. -/
theorem Instr.row_covers_iff {w : Word} {i : Instr} :
    i.row.covers w = true ↔ opField w = i.opcode ∧ i.fits w := by
  have hmask : w &&& (BitVec.allOnes 6 ++ i.zeroMask) = i.opcode ++ 0#26 ↔
      opField w = i.opcode ∧ w.extractLsb' 0 26 &&& i.zeroMask = 0 := by
    conv_lhs => rw [← opField_append_operands w]
    rw [append_and_append_eq_iff, BitVec.and_allOnes]
    rfl
  simp only [OpcodeRow.covers, Instr.row, Bool.and_eq_true, decide_eq_true_eq, List.all_eq_true, hmask, and_assoc,
    Instr.fits]

/-! The "must be 0" bits of the formats, N to RB (rule R301 to rule R305). -/

theorem operands_and_N {w : Word} :
    w.extractLsb' 0 26 &&& BitVec.allOnes 26 = 0 ↔ w.extractLsb' 0 26 = 0 := by
  rw [BitVec.and_allOnes]

theorem operands_and_PB {w : Word} :
    w.extractLsb' 0 26 &&& (BitVec.allOnes 17 ++ 0#1 ++ 0#8) = 0#17 ++ 0#1 ++ 0#8 ↔ w.extractLsb' 9 17 = 0#17 := by
  rw [operands_PB_iff.2 ⟨rfl, rfl, rfl⟩]
  iterate 2 rw [append_and_append_eq_iff]
  simp only [BitVec.and_allOnes, BitVec.and_zero, and_true]

theorem operands_and_PU {w : Word} :
    w.extractLsb' 0 26 &&& (BitVec.allOnes 25 ++ 0#1) = 0#25 ++ 0#1 ↔ w.extractLsb' 1 25 = 0#25 := by
  rw [operands_PU_iff.2 ⟨rfl, rfl⟩, append_and_append_eq_iff]
  simp only [BitVec.and_allOnes, BitVec.and_zero, and_true]

theorem operands_and_PL {w : Word} :
    w.extractLsb' 0 26 &&& (BitVec.allOnes 5 ++ 0#5 ++ 0#16) = 0#5 ++ 0#5 ++ 0#16 ↔ w.extractLsb' 21 5 = 0#5 := by
  rw [operands_PL_iff.2 ⟨rfl, rfl, rfl⟩]
  iterate 2 rw [append_and_append_eq_iff]
  simp only [BitVec.and_allOnes, BitVec.and_zero, and_true]

theorem operands_and_RB {w : Word} :
    w.extractLsb' 0 26 &&& (BitVec.allOnes 13 ++ 0#5 ++ BitVec.allOnes 2 ++ 0#2 ++ BitVec.allOnes 2 ++ 0#2) =
        0#13 ++ 0#5 ++ 0#2 ++ 0#2 ++ 0#2 ++ 0#2 ↔
      w.extractLsb' 13 13 = 0#13 ∧ w.extractLsb' 6 2 = 0#2 ∧ w.extractLsb' 2 2 = 0#2 := by
  rw [operands_RB_iff.2 ⟨rfl, rfl, rfl, rfl, rfl, rfl⟩]
  iterate 5 rw [append_and_append_eq_iff]
  simp only [BitVec.and_allOnes, BitVec.and_zero, and_true, and_assoc]

/-- A format accepts the operand bits that its row asks for (rule R308 steps 2 and 3). -/
theorem Instr.readOperands_accepts_iff {w : Word} {i : Instr} :
    (∃ j, i.readOperands w = .ok j) ↔ i.fits w := by
  cases i with
  | bwPutbit _ _ =>
    refine .trans ?_ (and_congr_left' operands_and_PB.symm)
    simp [Instr.readOperands, formatPB, ite_error_eq_ok_iff, Instr.ranges]
  | bwPutbitu _ =>
    refine .trans ?_ (and_congr_left' operands_and_PU.symm)
    simp [Instr.readOperands, formatPU, ite_error_eq_ok_iff, Instr.ranges]
  | bwPutbits _ _ | bwPutsbits _ _ =>
    refine .trans ?_ (and_congr_left' operands_and_PL.symm)
    simp [Instr.readOperands, formatPL, ite_error_eq_ok_iff, Instr.ranges, putbitsCountOk, putsbitsCountOk]
  | rcCodeBlock _ _ _ | rcRecordBlock _ _ _ =>
    refine .trans ?_ (and_congr_left' operands_and_RB.symm)
    simp [Instr.readOperands, formatRB, ite_error_eq_ok_iff, Instr.ranges, slotOk, ctxOk]
  | _ =>
    refine .trans ?_ (and_congr_left' operands_and_N.symm)
    simp [Instr.readOperands, formatN, ite_error_eq_ok_iff, Instr.ranges]

/-- Settles O3: the decoder and the table look at the same opcode, and below it at the same bits. -/
theorem decodeAcceptsExactlyTheTable : Obligations.DecodeAcceptsExactlyTheTable := by
  intro w
  rw [exists_opcodeTable_iff]
  simp only [decode_eq_ok_iff_readOperands, Instr.row_covers_iff, ← Instr.readOperands_accepts_iff]
  exact ⟨fun ⟨j, i, hi, hop, hread⟩ => ⟨i, hi, hop, j, hread⟩, fun ⟨i, hi, hop, j, hread⟩ => ⟨j, i, hi, hop, hread⟩⟩

/-! ## Illegal words -/

/-- Settles O6: the event is a command whose word does not decode, and `illegalCommand_eq` says what that does. -/
theorem illegalWordRaisesFault : Obligations.IllegalWordRaisesFault := by
  intro s w q e hq hw
  unfold Machine.step
  simp only [hq, Machine.commandOf_write, hw]
  rw [Machine.illegalCommand_eq]
  rfl

end Sys2Proof
end

section
/-! PROOF. What coding keeps and what number it computes. One induction over the coded decisions
(`encodeBits_keeps`) carries the bounds of rule R407 and the soundness of OUT; a second one shows that the number in OUT,
the pending run and BW.VALUE is the low end of unbounded arithmetic. -/
namespace Sys2Proof.Machine

variable {P : Params} {tick : Nat} {b b' : Bw}

/-! ## A Flush and the bytes of OUT -/

theorem Bw.ok.inBounds (h : b.ok) : b.InBounds := (Bw.ok_iff.mp h).1

theorem Bw.ok.nbits_nonpos (h : b.ok) : b.nbits.toInt ≤ 0 := (Bw.ok_iff.mp h).2

theorem State.coding.running {s : State} (h : s.coding) : s.running := h.1

theorem State.coding.writing {s : State} (h : s.coding) : s.bw.st = .writing := h.2.1

theorem State.coding.ok {s : State} (h : s.coding) : s.bw.ok := h.2.2

/-- What a Flush of a writer in bounds can do, when it succeeds: hold back a byte 0xFF, or write a byte that
fits (rule R404). -/
theorem flush_cases (hb : b.InBounds) (h : flush P tick b = .ok b') :
    (flushBits b = 255 ∧ b' = { b with
      value := BitVec.ofNat 32 (b.value.toNat % flushUnit b), nbits := b.nbits - 8, run := b.run + 1 }) ∨
    (flushBits b % 256 ≠ 255 ∧ flushNeed b ≤ P.outCap ∧ b' = { b with
      value := BitVec.ofNat 32 (b.value.toNat % flushUnit b), nbits := b.nbits - 8, run := 0
      pos := BitVec.ofNat 32 (flushNeed b), out := flushOut P tick b (flushBits b) }) := by
  have hlt := hb.flushBits_lt
  rw [flush_eq P tick hb.nbits_ge hb.value_lt hb.value_lt_first] at h
  split_ifs at h with hff hfull
  · cases h
    exact .inl ⟨by omega, rfl⟩
  · cases h
    exact .inr ⟨hff, not_lt.mp hfull, rfl⟩

theorem flushNeed_toNat (hP : P.outCap ≤ 2 ^ 28) (h : flushNeed b ≤ P.outCap) :
    (BitVec.ofNat 32 (flushNeed b)).toNat = flushNeed b := by
  rw [BitVec.toNat_ofNat]
  omega

/-- The bits a Flush keeps fit into BW.VALUE. -/
theorem flushRest_toNat (b : Bw) :
    (BitVec.ofNat 32 (b.value.toNat % flushUnit b)).toNat = b.value.toNat % flushUnit b := by
  rw [BitVec.toNat_ofNat]
  exact Nat.mod_eq_of_lt ((Nat.mod_le _ _).trans_lt b.value.isLt)

theorem flushUnit_pos (b : Bw) : 0 < flushUnit b := by
  unfold flushUnit
  positivity

/-- A carry is bit 8 of what a Flush extracts. -/
theorem testBit_flushBits (hb : b.InBounds) : (flushBits b).testBit 8 = decide (256 ≤ flushBits b) := by
  have := hb.flushBits_lt
  rw [Nat.testBit_eq_decide_div_mod_eq]
  exact decide_eq_decide.mpr (by omega)

theorem ofNat_eq_ff_iff (n : Nat) : BitVec.ofNat 8 n = 0xFF ↔ n % 256 = 255 := by
  rw [← BitVec.toNat_inj, BitVec.toNat_ofNat]
  rfl

/-- Every byte below the new BW.POS is written after a Flush, and the last one is not 0xFF (rule R404). -/
theorem flush_outOk (hP : P.outCap ≤ 2 ^ 28) (hb : b.InBounds) (hout : b.outOk)
    (h : flush P tick b = .ok b') : b'.outOk := by
  rcases flush_cases hb h with ⟨-, rfl⟩ | ⟨hff, hroom, rfl⟩
  · exact hout
  · refine ⟨fun i hi => ?_, fun _ _ => ?_⟩
    · dsimp only at hi ⊢
      rw [flushNeed_toNat hP hroom, flushNeed] at hi
      rw [cellGet_flushOut]
      split_ifs
      · rfl
      · rfl
      · rfl
      · rfl
      · exact hout.1 i (by omega)
    · dsimp only
      rw [flushNeed_toNat hP hroom, cellGet_flushOut, if_pos (by unfold flushNeed; omega)]
      exact fun hbyte => hff ((ofNat_eq_ff_iff _).mp (Option.some.inj hbyte))

theorem flush_pos_le (hP : P.outCap ≤ 2 ^ 28) (hb : b.InBounds) (hpos : b.pos.toNat ≤ P.outCap)
    (h : flush P tick b = .ok b') : b'.pos.toNat ≤ P.outCap := by
  rcases flush_cases hb h with ⟨-, rfl⟩ | ⟨-, hroom, rfl⟩
  · exact hpos
  · exact (flushNeed_toNat hP hroom).trans_le hroom

/-! ## Coding keeps the writer sound -/

/-- The writer is sound: OUT is written up to BW.POS, within OUT_CAP, and while a stream is being written its
registers are in the bounds of rule R407. -/
structure Bw.Sound (P : Params) (b : Bw) : Prop where
  outOk : b.outOk
  pos_le : b.pos.toNat ≤ P.outCap
  ok : b.st = .writing → b.ok

/-- What each coded decision keeps, coding a list keeps. -/
theorem encodeBits_keeps {I : Bw → Prop}
    (hbit : ∀ (d : CodedBit) (b b' : Bw), I b → encodeBit P tick d b = .ok b' → I b') {ds : List CodedBit}
    (hb : I b) (h : encodeBits P tick ds b = .ok b') : I b' := by
  induction ds generalizing b with
  | nil => cases h; exact hb
  | cons d ds ih =>
    unfold encodeBits at h
    split at h
    · next b₁ hd => exact ih (hbit d b b₁ hb hd) h
    · cases h

theorem encodeBits_append_of_ok {ds : List CodedBit} (h : encodeBits P tick ds b = .ok b') (es : List CodedBit) :
    encodeBits P tick (ds ++ es) b = encodeBits P tick es b' := by
  rw [encodeBits_append, h]

theorem encodeBits_ok (hP : P.outCap ≤ 2 ^ 28) {ds : List CodedBit} (hb : b.ok)
    (h : encodeBits P tick ds b = .ok b') : b'.ok :=
  encodeBits_keeps (fun _ _ _ hb hd => encodeBit_ok hb hP hd) hb h

theorem encodeBit_outOk (hP : P.outCap ≤ 2 ^ 28) {d : CodedBit} (hb : b.ok) (hout : b.outOk)
    (h : encodeBit P tick d b = .ok b') : b'.outOk := by
  rw [encodeBit_eq hb] at h
  split_ifs at h
  · exact flush_outOk (b := shifted d b) hP (shifted_inBounds hb d) hout h
  · cases h
    exact hout

theorem encodeBit_pos_le (hP : P.outCap ≤ 2 ^ 28) {d : CodedBit} (hb : b.ok) (hpos : b.pos.toNat ≤ P.outCap)
    (h : encodeBit P tick d b = .ok b') : b'.pos.toNat ≤ P.outCap := by
  rw [encodeBit_eq hb] at h
  split_ifs at h
  · exact flush_pos_le (b := shifted d b) hP (shifted_inBounds hb d) hpos h
  · cases h
    exact hpos

theorem encodeBits_outOk (hP : P.outCap ≤ 2 ^ 28) {ds : List CodedBit} (hb : b.ok) (hout : b.outOk)
    (h : encodeBits P tick ds b = .ok b') : b'.outOk :=
  (encodeBits_keeps (I := fun b => b.ok ∧ b.outOk)
    (fun _ _ _ hI hd => ⟨encodeBit_ok hI.1 hP hd, encodeBit_outOk hP hI.1 hI.2 hd⟩) ⟨hb, hout⟩ h).2

theorem encodeBits_pos_le (hP : P.outCap ≤ 2 ^ 28) {ds : List CodedBit} (hb : b.ok)
    (hpos : b.pos.toNat ≤ P.outCap) (h : encodeBits P tick ds b = .ok b') : b'.pos.toNat ≤ P.outCap :=
  (encodeBits_keeps (I := fun b => b.ok ∧ b.pos.toNat ≤ P.outCap)
    (fun _ _ _ hI hd => ⟨encodeBit_ok hI.1 hP hd, encodeBit_pos_le hP hI.1 hI.2 hd⟩) ⟨hb, hpos⟩ h).2

theorem encodeBits_sound (hP : P.outCap ≤ 2 ^ 28) {ds : List CodedBit} (hst : b.st = .writing) (hb : b.Sound P)
    (h : encodeBits P tick ds b = .ok b') : b'.Sound P where
  outOk := encodeBits_outOk hP (hb.ok hst) hb.outOk h
  pos_le := encodeBits_pos_le hP (hb.ok hst) hb.pos_le h
  ok _ := encodeBits_ok hP (hb.ok hst) h

/-- Coding by a writer in bounds raises no fault but ALLOC_FAILURE (rule R405, rule R406). -/
theorem encodeBits_error_alloc (hP : P.outCap ≤ 2 ^ 28) {ds : List CodedBit} {r : Raise} (hb : b.ok)
    (h : encodeBits P tick ds b = .error r) : r.code = .allocFailure := by
  induction ds generalizing b with
  | nil => cases h
  | cons d ds ih =>
    unfold encodeBits at h
    split at h
    · next b₁ hd => exact ih (encodeBit_ok hb hP hd) h
    · next r' hd =>
      cases h
      rw [encodeBit_eq hb] at hd
      split_ifs at hd
      rw [(flush_error (shifted_inBounds hb d) hd).1]

/-! ## BW_INIT and BW_FINISH -/

theorem initBw_ok (b : Bw) : (initBw b).ok := by
  refine ⟨?_, ?_, ?_, ?_, ?_, fun _ => ?_⟩ <;> simp [initBw]

theorem initBw_outOk (b : Bw) : (initBw b).outOk := ⟨nofun, nofun⟩

theorem initBw_sound (P : Params) (b : Bw) : (initBw b).Sound P :=
  ⟨initBw_outOk b, Nat.zero_le _, fun _ => initBw_ok b⟩

/-- Clearing BW.NBITS before the last Flush keeps the writer in bounds (rule R425). -/
theorem Bw.ok.withNbitsZero (hb : b.ok) : Bw.InBounds { b with nbits := 0 } := by
  obtain ⟨hr, hr', hn, hn', hv, hv0⟩ := hb
  have hle (k : Nat) : (2 : Nat) ^ (b.nbits.toInt + k).toNat ≤ 2 ^ k :=
    Nat.pow_le_pow_right (by omega) (by omega)
  have hzero : (0 : BitVec 8).toInt = 0 := rfl
  refine ⟨hr, hr', hzero.ge.trans' (by norm_num), hzero.le.trans (by norm_num), ?_, fun h0 => ?_⟩
  · exact hv.trans (Nat.mul_le_mul_left 3 (hle 15))
  · exact (hv0 h0).trans (hle 16)

theorem finishBw_sound (hP : P.outCap ≤ 2 ^ 28) (hst : b.st = .writing) (hb : b.Sound P)
    (h : finishBw P tick b = .ok b') : b'.Sound P := by
  obtain ⟨padded, flushed, hpad, hflush, rfl⟩ := finishBw_ok h
  have hp := encodeBits_sound hP hst hb hpad
  have hin := (encodeBits_ok hP (hb.ok hst) hpad).withNbitsZero
  exact ⟨⟨(flush_outOk hP hin hp.outOk hflush).1, nofun⟩,
    flush_pos_le (b := { padded with nbits := 0 }) (b' := flushed) hP hin hp.pos_le hflush, nofun⟩

theorem finishBw_error_alloc (hP : P.outCap ≤ 2 ^ 28) {r : Raise} (hb : b.ok) (h : finishBw P tick b = .error r) :
    r.code = .allocFailure := by
  simp only [finishBw, Except.bind_error, Except.pure_eq_ok, reduceCtorEq, and_false, exists_false, or_false] at h
  rcases h with hpad | ⟨padded, hpad, hflush⟩
  · exact encodeBits_error_alloc hP hb hpad
  · rw [(flush_error (encodeBits_ok hP hb hpad).withNbitsZero hflush).1]

end Sys2Proof.Machine
end

section
/-! PROOF. Every step keeps the writer sound, and no step raises CARRY_INVARIANT (O28). `body_bw_cases` and
`body_error_coding` say once what a command can do to the writer. -/
namespace Sys2Proof.Machine

variable {P : Params} {i : Instr} {s t : State}

theorem outCap_le : Config.params.outCap ≤ 2 ^ 28 := Config.outCapLessOne.isLt

theorem outCap_pos : 1 ≤ Config.params.outCap := Nat.succ_pos _

/-! ## What a command can do to the writer -/

/-- A command that completes starts the writer, codes decisions, closes the stream, or leaves the writer alone. -/
theorem body_bw_cases (hsoft : i ≠ .softReset) (h : bodyOf P i s = .ok t) :
    t.bw = s.bw ∨ t.bw = initBw s.bw ∨
      (s.bw.st = .writing ∧ ∃ ds, encodeBits P s.tick ds s.bw = .ok t.bw) ∨
      (s.bw.st = .writing ∧ finishBw P s.tick s.bw = .ok t.bw) := by
  have hput {ds : List CodedBit} (h : putBits P ds s = .ok t) :
      s.bw.st = .writing ∧ ∃ ds, encodeBits P s.tick ds s.bw = .ok t.bw := by
    obtain ⟨hst, b, hb, rfl⟩ := putBits_ok h
    exact ⟨hst, ds, hb⟩
  cases i with
  | softReset => exact absurd rfl hsoft
  | nop => cases h; exact .inl rfl
  | bwInit => cases h; exact .inr (.inl rfl)
  | bwPutbit bit prob => exact .inr (.inr (.inl (hput h)))
  | bwPutbitu bit => exact .inr (.inr (.inl (hput h)))
  | bwPutbits nb val => exact .inr (.inr (.inl (hput h)))
  | bwPutsbits nb val => exact .inr (.inr (.inl (hput h)))
  | bwFinish =>
    rcases finishBody_ok h with ⟨-, rfl⟩ | ⟨hst, b, hb, rfl⟩
    · exact .inl rfl
    · exact .inr (.inr (.inr ⟨hst, hb⟩))
  | miReset => obtain ⟨-, rfl⟩ := resetBody_ok h; exact .inl (State.withMi_bw _ _)
  | miImport => obtain ⟨-, rfl⟩ := importBody_ok h; exact .inl (State.withMi_bw _ _)
  | miExport => obtain ⟨-, rfl⟩ := exportBody_ok h; exact .inl rfl
  | miSaveBoundary => obtain ⟨-, rfl⟩ := saveBoundaryBody_ok h; exact .inl rfl
  | miAdvance => obtain ⟨-, rfl⟩ := advanceBody_ok h; exact .inl rfl
  | miNzToFlags => obtain ⟨-, rfl⟩ := nzToFlagsBody_ok h; exact .inl rfl
  | miFlagsToNz => obtain ⟨-, rfl⟩ := flagsToNzBody_ok h; exact .inl rfl
  | miSkipNz => rw [(skipNzBody_ok h).2]; exact .inl rfl
  | rcCodeBlock slot ty ctx =>
    obtain ⟨hst, -, b, hb, rfl⟩ := codeBlockBody_ok h
    exact .inr (.inr (.inl ⟨hst, _, hb⟩))
  | rcRecordBlock slot ty ctx => obtain ⟨-, rfl⟩ := recordBlockBody_ok h; exact .inl rfl
  | rcCodeMb =>
    obtain ⟨-, hst, -, b₁, b₂, hb₁, hb₂, rfl⟩ := codeMbBody_ok h
    exact .inr (.inr (.inl ⟨hst, _, (encodeBits_append_of_ok hb₁ _).trans hb₂⟩))
  | rcRecordMb => obtain ⟨-, -, rfl⟩ := recordMbBody_ok h; exact .inl rfl
  | rcResetStats => cases h; exact .inl rfl
  | rcLoadDefault => cases h; exact .inl (State.withRc_bw _ _)
  | rcFinalize => cases h; exact .inl (State.withRc_bw _ _)

/-- A coding command raises CARRY_INVARIANT only while coding (rule R405). -/
theorem putBits_error_coding {ds : List CodedBit} {r : Raise} (hr : r.code = .carryInvariant)
    (h : putBits P ds s = .error r) : s.bw.st = .writing ∧ ∃ ds, encodeBits P s.tick ds s.bw = .error r := by
  simp only [putBits, Except.bind_error, Except.pure_eq_ok, reduceCtorEq, and_false, exists_false, or_false] at h
  rcases h with h | ⟨_, hst, h⟩
  · rw [(checkWriting_error h).1] at hr
    cases hr
  · exact ⟨checkWriting_ok_iff.mp hst, ds, h⟩

theorem codeBlockBody_error_coding {slot ty ctx : Nat} {r : Raise} (hr : r.code = .carryInvariant)
    (h : codeBlockBody P slot ty ctx s = .error r) :
    s.bw.st = .writing ∧ ∃ ds, encodeBits P s.tick ds s.bw = .error r := by
  simp only [codeBlockBody, codeDecisions, Except.bind_error, Except.pure_eq_ok, reduceCtorEq, and_false,
    exists_false, or_false] at h
  rcases h with h | ⟨_, hst, h | ⟨_, -, h⟩⟩
  · rw [(checkWriting_error h).1] at hr
    cases hr
  · rcases checkBlock_error h with hcode | hcode <;> cases hr.symm.trans hcode
  · exact ⟨checkWriting_ok_iff.mp hst, _, h⟩

theorem codeMbBody_error_coding {r : Raise} (hr : r.code = .carryInvariant) (h : codeMbBody P s = .error r) :
    s.bw.st = .writing ∧ ∃ ds, encodeBits P s.tick ds s.bw = .error r := by
  simp only [codeMbBody, codeDecisions, Except.bind_error, Except.pure_eq_ok, reduceCtorEq, and_false,
    exists_false, or_false] at h
  rcases h with h | ⟨_, -, h | ⟨_, hst, h | ⟨_, -, h | ⟨b₁, hb₁, h⟩⟩⟩⟩
  · rw [(checkMb_error h).1] at hr
    cases hr
  · rw [(checkWriting_error h).1] at hr
    cases hr
  · rcases checkBlocks_error h with hcode | hcode <;> cases hr.symm.trans hcode
  · exact ⟨checkWriting_ok_iff.mp hst, _, h⟩
  · exact ⟨checkWriting_ok_iff.mp hst, _, (encodeBits_append_of_ok hb₁ _).trans h⟩

theorem finishBody_error_coding {r : Raise} (hr : r.code = .carryInvariant) (h : finishBody P s = .error r) :
    s.bw.st = .writing ∧ finishBw P s.tick s.bw = .error r := by
  unfold finishBody at h
  split at h
  · cases h
  · cases h
    cases hr
  · next hst =>
    simp only [Except.bind_error, Except.pure_eq_ok, reduceCtorEq, and_false, exists_false, or_false] at h
    exact ⟨hst, h⟩

/-- No command of a sound writer raises CARRY_INVARIANT (rule R405). -/
theorem body_error_ne_carryInvariant {r : Raise} (hP : P.outCap ≤ 2 ^ 28) (hok : s.bw.st = .writing → s.bw.ok)
    (h : bodyOf P i s = .error r) : r.code ≠ .carryInvariant := by
  intro hr
  have hcoding : s.bw.st = .writing ∧
      ((∃ ds, encodeBits P s.tick ds s.bw = .error r) ∨ finishBw P s.tick s.bw = .error r) := by
    have hcode := body_error_code h
    rw [hr] at hcode
    cases i with
    | bwPutbit bit prob => exact (putBits_error_coding hr h).imp_right .inl
    | bwPutbitu bit => exact (putBits_error_coding hr h).imp_right .inl
    | bwPutbits nb val => exact (putBits_error_coding hr h).imp_right .inl
    | bwPutsbits nb val => exact (putBits_error_coding hr h).imp_right .inl
    | bwFinish => exact (finishBody_error_coding hr h).imp_right .inr
    | rcCodeBlock slot ty ctx => exact (codeBlockBody_error_coding hr h).imp_right .inl
    | rcCodeMb => exact (codeMbBody_error_coding hr h).imp_right .inl
    | _ => simp [faultsOf] at hcode
  obtain ⟨hst, ⟨ds, he⟩ | he⟩ := hcoding
  · cases hr.symm.trans (encodeBits_error_alloc hP (hok hst) he)
  · cases hr.symm.trans (finishBw_error_alloc hP (hok hst) he)

/-! ## The invariant of a step -/

theorem State.writerOk_iff :
    s.writerOk ↔ s.latch.code ≠ .carryInvariant ∧ (s.running → s.bw.Sound Config.params) :=
  and_congr_right' (imp_congr_right fun _ =>
    ⟨fun ⟨hout, hpos, hok⟩ => ⟨hout, hpos, hok⟩, fun ⟨hout, hpos, hok⟩ => ⟨hout, hpos, hok⟩⟩)

theorem writerOk_congr (hlatch : t.latch = s.latch) (hbw : t.bw = s.bw) : t.writerOk ↔ s.writerOk := by
  rw [State.writerOk, State.running, hlatch, hbw, State.writerOk, State.running]

theorem writerOk_of_faulted (hf : t.latch.faulted = true) (hc : t.latch.code ≠ .carryInvariant) : t.writerOk :=
  ⟨hc, fun hrun => by rw [State.running, hf] at hrun; cases hrun⟩

theorem resetVrce_writerOk (P : Params) (s : State) : (resetVrce P s).writerOk :=
  ⟨nofun, fun _ => ⟨⟨nofun, nofun⟩, Nat.zero_le _, nofun⟩⟩

/-- A command that completes keeps the writer sound. -/
theorem body_keeps_sound (hP : P.outCap ≤ 2 ^ 28) (hsoft : i ≠ .softReset) (hs : s.bw.Sound P)
    (h : bodyOf P i s = .ok t) : t.bw.Sound P := by
  rcases body_bw_cases hsoft h with hbw | hbw | ⟨hst, ds, hb⟩ | ⟨hst, hb⟩
  · exact hbw ▸ hs
  · exact hbw ▸ initBw_sound P s.bw
  · exact encodeBits_sound hP hst hs hb
  · exact finishBw_sound hP hst hs hb

theorem exec_keeps_writerOk (hs : s.writerOk) (h : exec i s = .next t) : t.writerOk := by
  have ⟨hcode, hsound⟩ := State.writerOk_iff.mp hs
  rcases exec_cases h with ⟨-, rfl⟩ | ⟨-, rfl⟩ | ⟨hrun, hsoft, hok⟩ | ⟨hrun, -, r, herr, rfl⟩
  · exact resetVrce_writerOk _ s
  · exact hs
  · rw [State.writerOk_iff, body_latch hsoft hok]
    exact ⟨hcode, fun _ => body_keeps_sound outCap_le hsoft (hsound hrun) hok⟩
  · exact writerOk_of_faulted rfl (body_error_ne_carryInvariant outCap_le (hsound hrun).ok herr)

theorem hostAccess_keeps_writerOk (hs : s.writerOk) (e : HostEvent) : (hostAccess Config.params e s).writerOk := by
  by_cases he : e = .hardReset
  · subst he
    exact resetVrce_writerOk _ s
  · have ⟨hlatch, hbw⟩ := hostAccess_frame Config.params he s
    exact (writerOk_congr hlatch hbw).mpr hs

/-- Settles O28: a step starts, advances, closes or resets the writer, or takes a fault; coding by a writer in the
bounds of rule R407 stays in them and extracts less than 0x180 at every Flush. -/
theorem stepKeepsWriterOk : Obligations.StepKeepsWriterOk := by
  intro s t hs h
  rcases step_cases h with ⟨-, rfl⟩ | ⟨e, q, w, i, -, -, -, hexec⟩ | ⟨e, q, w, -, -, rfl⟩ | ⟨e, q, -, -, rfl⟩
  · exact hs
  · exact exec_keeps_writerOk (s := s.accept q) hs hexec
  · rw [illegalCommand_eq]
    split_ifs
    · exact hs
    · exact writerOk_of_faulted rfl nofun
  · exact hostAccess_keeps_writerOk (s := s.accept q) hs e

end Sys2Proof.Machine
end

section
/-! PROOF. The renormalisation tables, BW_INIT, one BW_PUTBIT, and the precondition of the bit commands (O15, O16, O17,
O18, O19, O25). A BW_PUTBIT of a writer in bounds is `shifted`, with a Flush behind it when BW.NBITS has passed 0. -/
namespace Sys2Proof.Machine

variable {s : State} {d : CodedBit}

/-- Settles O15: each table has 128 entries, compared one by one. -/
theorem renormalisationTables : Obligations.RenormalisationTables :=
  ⟨by decide +kernel, by decide +kernel⟩

/-! ## BW_INIT -/

/-- The low byte of a free value, read as a word. -/
theorem setWidth_byte_eq_and (v : BitVec 64) : (v.setWidth 8).setWidth 32 = v.setWidth 32 &&& 0xFF#32 := by
  rw [← BitVec.setWidth_setWidth_of_le v (show 8 ≤ 32 by norm_num)]
  exact setWidth_setWidth_eq_and (v.setWidth 32) 8

/-- A byte at or above BW.POS reads as a free value (log 6, log 18). -/
theorem readElem_out_of_le {P : Params} {k : Nat} (h : s.bw.pos.toNat ≤ k) :
    readElem P s (.out k) = (P.free .out s.tick k).setWidth 32 &&& 0xFF := by
  rw [readElem, outAt, if_neg (not_lt.mpr h)]
  exact setWidth_byte_eq_and _

/-- Settles O16: after BW_INIT every byte of OUT stands at or above BW.POS = 0. -/
theorem bwInitStartsWriter : Obligations.BwInitStartsWriter := fun s hs =>
  ⟨s.withBw (initBw s.bw), exec_of_ok nofun hs rfl, rfl, rfl, rfl, rfl, fun _ => readElem_out_of_le (Nat.zero_le _)⟩

/-! ## One decision -/

/-- The body of BW_PUTBIT in a writer that is coding. -/
theorem putBits_singleton (hs : s.coding) :
    putBits Config.params [d] s =
      if 0 < s.bw.nbits.toInt + shiftOf s.bw.range.toNat d then
        (flush Config.params s.tick (shifted d s.bw)).map s.withBw
      else .ok (s.withBw (shifted d s.bw)) := by
  obtain ⟨-, hst, hok⟩ := hs
  rw [putBits_of_writing hst, encodeBits_singleton, encodeBit_eq hok]
  split_ifs
  · rcases flush Config.params s.tick (shifted d s.bw) with r | b <;> rfl
  · rfl

theorem exec_bwPutbit_of_ok {bit : Bool} {p : Byte} {t : State} (hs : s.running)
    (h : putBits Config.params [(bit, p)] s = .ok t) : exec (.bwPutbit bit p) s = .next t :=
  exec_of_ok nofun hs h

/-- Settles O17: with no Flush the writer is left at `shifted`. -/
theorem putBitNarrowsInterval : Obligations.PutBitNarrowsInterval := by
  intro bit p s hs r shift hn
  have hok := hs.ok
  refine ⟨s.withBw (shifted (bit, p) s.bw), exec_bwPutbit_of_ok hs.running ?_, rfl, shifted_range hok _,
    shifted_value hok _, shifted_nbits hok _⟩
  rw [putBits_singleton hs, if_neg (not_lt.mpr hn)]

/-! ## The Flush of a decision -/

theorem flushUnit_shifted {b : Bw} (h : b.ok) (d : CodedBit) :
    flushUnit (shifted d b) = 2 ^ (b.nbits.toInt + shiftOf b.range.toNat d + 8).toNat := by
  rw [flushUnit, shifted_nbits h, add_comm]

theorem flushBits_shifted {b : Bw} (h : b.ok) (d : CodedBit) :
    flushBits (shifted d b) =
      (b.value.toNat + lowStep b.range.toNat d) * 2 ^ shiftOf b.range.toNat d /
        2 ^ (b.nbits.toInt + shiftOf b.range.toNat d + 8).toNat := by
  rw [flushBits, shifted_value h, flushUnit_shifted h]

/-- The bytes of OUT a Flush of a writer in bounds leaves (rule R404). -/
theorem cellGet_flushOut_flushBits {P : Params} {tick : Nat} {b : Bw} (hb : b.InBounds) (k : Nat) :
    cellGet (flushOut P tick b (flushBits b)) k =
      if k = b.pos.toNat + b.run.toNat then some (BitVec.ofNat 8 (flushBits b))
      else if b.pos.toNat ≤ k ∧ k < b.pos.toNat + b.run.toNat then
        some (if flushBits b < 256 then 0xFF else 0x00)
      else if 256 ≤ flushBits b ∧ k = b.pos.toNat - 1 then
        some (readCell P tick .out b.out (b.pos.toNat - 1) + 1)
      else cellGet b.out k := by
  rw [cellGet_flushOut, testBit_flushBits hb]
  simp only [decide_eq_true_eq, ← not_lt, ite_not]

theorem flush_value {P : Params} {tick : Nat} {b b' : Bw} (hb : b.InBounds) (h : flush P tick b = .ok b') :
    b'.value.toNat = b.value.toNat % flushUnit b := by
  rcases flush_cases hb h with ⟨-, rfl⟩ | ⟨-, -, rfl⟩ <;> exact flushRest_toNat b

/-- What a Flush does to BW.POS, BW.RUN and OUT: it holds a byte 0xFF back, or writes the run and the byte, with the
carry in the byte before them (rule R404). -/
theorem flush_out {P : Params} {tick : Nat} {b b' : Bw} (hP : P.outCap ≤ 2 ^ 28) (hb : b.InBounds)
    (h : flush P tick b = .ok b') :
    if flushBits b % 256 = 255 then b'.pos = b.pos ∧ b'.run = b.run + 1 ∧ b'.out = b.out
    else
      b'.pos.toNat = b.pos.toNat + b.run.toNat + 1 ∧ b'.run = 0 ∧
        cellGet b'.out (b.pos.toNat + b.run.toNat) = some (BitVec.ofNat 8 (flushBits b)) ∧
        (∀ k < b.run.toNat,
          cellGet b'.out (b.pos.toNat + k) = some (if flushBits b < 256 then 0xFF else 0x00)) ∧
        (∀ k, k < b.pos.toNat → (flushBits b < 256 ∨ k + 1 < b.pos.toNat) →
          cellGet b'.out k = cellGet b.out k) ∧
        (256 ≤ flushBits b → 0 < b.pos.toNat ∧
          ∀ x, cellGet b.out (b.pos.toNat - 1) = some x → cellGet b'.out (b.pos.toNat - 1) = some (x + 1)) ∧
        ∀ k, b.pos.toNat + b.run.toNat < k → cellGet b'.out k = cellGet b.out k := by
  rcases flush_cases hb h with ⟨hff, rfl⟩ | ⟨hff, hroom, rfl⟩
  · rw [hff]
    exact ⟨rfl, rfl, rfl⟩
  · rw [if_neg hff]
    refine ⟨flushNeed_toNat hP hroom, rfl, ?_, fun k hk => ?_, fun k hk hsame => ?_, fun hcarry => ?_,
      fun k hk => ?_⟩ <;> dsimp only
    · rw [cellGet_flushOut_flushBits hb, if_pos rfl]
    · rw [cellGet_flushOut_flushBits hb, if_neg (by omega), if_pos (by omega)]
    · rw [cellGet_flushOut_flushBits hb, if_neg (by omega), if_neg (by omega), if_neg (by omega)]
    · have hpos : 0 < b.pos.toNat := Nat.pos_of_ne_zero fun h0 =>
        absurd (hb.flushBits_lt_first (BitVec.eq_of_toNat_eq h0)) (not_lt.mpr hcarry)
      refine ⟨hpos, fun x hx => ?_⟩
      rw [cellGet_flushOut_flushBits hb, if_neg (by omega), if_neg (by omega), if_pos ⟨hcarry, rfl⟩, readCell, hx,
        Option.getD_some]
    · rw [cellGet_flushOut_flushBits hb, if_neg (by omega), if_neg (by omega), if_neg (by omega)]

/-- A Flush succeeds where it holds its byte back, and where its byte fits (rule R404, rule R406). -/
theorem exists_flush_eq_ok {P : Params} {b : Bw} (tick : Nat) (hb : b.InBounds)
    (hroom : flushBits b % 256 ≠ 255 → flushNeed b ≤ P.outCap) : ∃ b', flush P tick b = .ok b' := by
  rcases hflush : flush P tick b with r | b'
  · obtain ⟨-, hfull, hff⟩ := flush_error hb hflush
    exact absurd (hroom hff) (not_le.mpr hfull)
  · exact ⟨b', rfl⟩

/-- Settles O18: the Flush behind `shifted` succeeds, and `flush_out` says what it leaves in OUT. -/
theorem putBitFlushesByte : Obligations.PutBitFlushesByte := by
  intro bit p s hs r shift pos run value unit bits hflush hroom
  have hok := hs.ok
  have hin := shifted_inBounds hok (bit, p)
  have hunit : flushUnit (shifted (bit, p) s.bw) = unit := flushUnit_shifted hok _
  have hbits : flushBits (shifted (bit, p) s.bw) = bits := flushBits_shifted hok _
  have hvalue : (shifted (bit, p) s.bw).value.toNat = value := shifted_value hok _
  have hnbits : (shifted (bit, p) s.bw).nbits.toInt = s.bw.nbits.toInt + shift := shifted_nbits hok _
  obtain ⟨b, hb⟩ := exists_flush_eq_ok s.tick hin (hbits ▸ hroom)
  obtain ⟨hn, hrange, hst, hlast⟩ := flush_nbits hin (by omega) hb
  refine ⟨s.withBw b, exec_bwPutbit_of_ok hs.running ?_, rfl, hst.trans hs.writing, hlast,
    (congrArg _ hrange).trans (shifted_range hok _), (flush_value hin hb).trans (by rw [hvalue, hunit]),
    hn.trans (by rw [hnbits]), ?_⟩
  · rw [putBits_singleton hs, if_pos hflush, hb]
    rfl
  · rw [← hbits]
    exact flush_out outCap_le hin hb

/-- ALLOC_FAILURE of a bit command: the latch is exact, and BW.STATE stays (rule R704). -/
theorem exec_of_allocFailure {i : Instr} {info : Nat} (hspoil : spoilOf i = .bitWriter) (hsoft : i ≠ .softReset)
    (hs : s.running) (h : bodyOf Config.params i s = .error ⟨.allocFailure, info⟩) :
    exec i s = .next
      ((s.faultedBy (encode i) .allocFailure info).withBw (spoilBw Config.params s.tick s.bw)) := by
  rw [exec_eq_runCommand hsoft, runCommand_of_error hs h, hspoil]
  rfl

/-- Settles O19: a Flush of a writer in bounds that must write and has no room raises ALLOC_FAILURE (`flush_eq`). -/
theorem putBitWithoutRoomFaults : Obligations.PutBitWithoutRoomFaults := by
  intro bit p s hs r shift need value hflush hff hfull
  have hin := shifted_inBounds hs.ok (bit, p)
  have hfull' : Config.params.outCap < flushNeed (shifted (bit, p) s.bw) := hfull
  have hff' : flushBits (shifted (bit, p) s.bw) % 256 ≠ 255 := by
    rw [flushBits_shifted hs.ok]
    exact hff
  have hbody : bodyOf Config.params (.bwPutbit bit p) s = .error ⟨.allocFailure, need⟩ := by
    rw [bodyOf, putBits_singleton hs, if_pos hflush, flush_eq _ _ hin.nbits_ge hin.value_lt hin.value_lt_first,
      if_neg hff', if_pos hfull']
    rfl
  exact ⟨_, exec_of_allocFailure rfl nofun hs.running hbody, rfl, hs.writing⟩

/-! ## The precondition of the bit commands -/

theorem number_of_not_writing (h : s.bw.st ≠ .writing) :
    s.bw.st.number = if s.bw.st = .empty then 0 else 2 := by
  rcases hst : s.bw.st with _ | _ | _
  · rfl
  · exact absurd hst h
  · rfl

/-- Settles O25: each of the commands checks BW.STATE first, RC_CODE_MB after its macroblock. -/
theorem bitCommandsNeedWriting : Obligations.BitCommandsNeedWriting := by
  intro i s hs hst hi
  rw [← number_of_not_writing hst]
  have hcheck : checkWriting s = .error ⟨.wrongState, s.bw.st.number⟩ := if_neg hst
  have hsoft : i ≠ .softReset := by
    rintro rfl
    simp at hi
  refine exec_of_precise hsoft hs ?_ rfl
  rcases hi with ⟨rfl, hm⟩ | ⟨bit, p, rfl⟩ | ⟨bit, rfl⟩ | ⟨nb, val, rfl⟩ | ⟨nb, val, rfl⟩ | ⟨slot, ty, ctx, rfl⟩
  · exact Except.bind_error.mpr (.inr ⟨(), checkMb_of_hasMacroblock hm, Except.bind_error.mpr (.inl hcheck)⟩)
  · exact putBits_of_not_writing hst
  · exact putBits_of_not_writing hst
  · exact putBits_of_not_writing hst
  · exact putBits_of_not_writing hst
  · exact Except.bind_error.mpr (.inl hcheck)

end Sys2Proof.Machine
end

section
/-! PROOF. The commands that code uniform bits, against one command for each bit (O20, O21, O22). -/
namespace Sys2Proof.Machine

variable {s : State}

/-! ## The last coded bit -/

/-- The last of the coded decisions is LASTBIT (rule R400). -/
theorem encodeBits_lastBit {P : Params} {tick : Nat} {ds : List CodedBit} {d : CodedBit} {b b' : Bw}
    (hd : ds.getLast? = some d) (h : encodeBits P tick ds b = .ok b') : b'.lastBit = d.1 := by
  obtain ⟨es, rfl⟩ := List.getLast?_eq_some_iff.mp hd
  rw [encodeBits_append] at h
  split at h
  · rw [encodeBits_singleton] at h
    exact encodeBit_lastBit h
  · cases h

/-! ## One command against a command for each bit -/

/-- A command that codes `bits` as uniform bits and the commands `f` for its single bits: they leave the same state
or take the same fault, and bits that fit are coded. -/
theorem exec_uniformBits {i : Instr} {f : Bool → Instr} {bits : List Bool} (hi : i ≠ .softReset)
    (hbody : bodyOf Config.params i = putBits Config.params (bits.map fun a => (a, 128)))
    (hf : ∀ a, f a ≠ .softReset) (hfbody : ∀ a, bodyOf Config.params (f a) = putBits Config.params [(a, 128)])
    (hs : s.running) (hst : s.bw.st = .writing) : ∃ t u,
      exec i s = .next t ∧ execAll (bits.map f) s = some u ∧
        (u.running → t = u ∧ t = s.withBw t.bw ∧ ∀ a ∈ bits.getLast?, t.bw.lastBit = a) ∧
        (u.latch.faulted = true → t.latch = { u.latch with cmd := encode i }) ∧
        (s.bw.ok → s.roomFor (bits.map fun a => (a, 128)) →
          t.running ∧ t.bw.range.toNat = exactRange s.bw.range.toNat (bits.map fun a => (a, 128))) := by
  rcases execAll_bitCommands f (fun a => (a, 128)) hf hfbody bits s hs hst with
    ⟨b, hb, hall⟩ | ⟨r, u, w, hr, hall, hlatch⟩
  · refine ⟨s.withBw b, s.withBw b, exec_of_ok hi hs ?_, hall, fun _ => ⟨rfl, rfl, fun a ha => ?_⟩, fun hfault => ?_,
      fun hok hroom => ⟨hs, ?_⟩⟩
    · rw [hbody, putBits_of_writing hst, hb]
    · exact encodeBits_lastBit (d := (a, 128)) (by rw [List.getLast?_map, ha, Option.map_some]) hb
    · exact absurd (hs.symm.trans hfault) nofun
    · obtain ⟨b', hb', -, -, hrange, -⟩ := encodeBits_of_room outCap_le _ hok hroom (tick := s.tick)
      cases hb'.symm.trans hb
      exact hrange
  · have herr : bodyOf Config.params i s = .error r := by rw [hbody, putBits_of_writing hst, hr]
    refine ⟨_, u, (exec_eq_runCommand hi s).trans (congrArg _ (runCommand_of_error hs herr)), hall, fun hrun => ?_,
      fun _ => ?_, fun hok hroom => ?_⟩
    · rw [State.running, hlatch] at hrun
      cases hrun
    · rw [takeFault_latch, hlatch]
    · obtain ⟨b', hb', -⟩ := encodeBits_of_room outCap_le _ hok hroom (tick := s.tick)
      cases hb'.symm.trans hr

theorem execAll_singleton (i : Instr) (u : State) : execAll [i] s = some u ↔ exec i s = .next u := by
  obtain ⟨t, ht⟩ := exec_next i s
  simp [execAll, ht]

/-- Settles O20: BW_PUTBIT with probability 128 is the command for the single bit. -/
theorem uniformBitIsHalf : Obligations.UniformBitIsHalf := by
  intro bit s hs hst
  obtain ⟨t, u, ht, hu, hrun, hfault, hroom⟩ := exec_uniformBits (i := .bwPutbitu bit) (f := (.bwPutbit · 128))
    (bits := [bit]) nofun rfl nofun (fun _ => rfl) hs hst
  refine ⟨t, u, ht, (execAll_singleton _ u).mp hu, fun h => ?_, hfault, hroom⟩
  obtain ⟨heq, hbw, hlast⟩ := hrun h
  exact ⟨heq, hbw, hlast bit rfl⟩

/-! ## Literals -/

theorem uniformBits_eq (v n : Nat) :
    uniformBits v n = ((List.range n).reverse.map v.testBit).map fun a => (a, 128) := by
  induction n with
  | zero => rfl
  | succ n ih =>
    rw [uniformBits, ih, List.range_succ, List.reverse_append]
    rfl

/-- Bits n−1 down to 0 end with bit 0. -/
theorem getLast?_reverse_range (f : Nat → Bool) {n : Nat} (h : 0 < n) :
    ((List.range n).reverse.map f).getLast? = some (f 0) := by
  rw [List.getLast?_map, List.getLast?_reverse, List.head?_range, if_neg h.ne', Option.map_some]

/-- Settles O21: NB is at least 1, so the last bit coded is bit 0 of VAL. -/
theorem putBitsIsUniformBits : Obligations.PutBitsIsUniformBits := by
  intro nb val s hnb hs hst bits
  have hpos : 0 < nb.toNat := by
    simp only [putbitsCountOk, Bool.and_eq_true, decide_eq_true_eq] at hnb
    omega
  obtain ⟨t, u, ht, hu, hrun, hfault, hroom⟩ := exec_uniformBits (i := .bwPutbits nb val) (f := .bwPutbitu)
    nofun (congrArg (putBits Config.params) (uniformBits_eq _ _)) nofun (fun _ => rfl) hs hst
  refine ⟨t, u, ht, hu, fun h => ?_, hfault, fun hok hfits => (hroom hok hfits).1⟩
  obtain ⟨heq, hbw, hlast⟩ := hrun h
  exact ⟨heq, hbw, hlast _ (getLast?_reverse_range val.getLsbD hpos)⟩

/-- The last bit of a signed literal is its sign (rule R424). -/
theorem signedMagnitude_testBit_zero (v : Int) : (signedMagnitude v).testBit 0 = decide (v < 0) := by
  rw [Nat.testBit_zero, signedMagnitude]
  split_ifs with h <;> simp [h]

/-- Settles O22: the zero literal is its presence bit alone, any other ends with bit 0 of its signed magnitude. -/
theorem putSignedBitsIsUniformBits : Obligations.PutSignedBitsIsUniformBits := by
  intro nb val s hnb hs hst v m bits
  have hbits : signedBits nb val = bits.map fun a => (a, 128) := by
    unfold signedBits
    dsimp only [bits]
    split_ifs
    · rfl
    · rw [uniformBits_eq]
      rfl
  have hsign : bits.getLast? = some (decide (v < 0)) := by
    dsimp only [bits]
    split_ifs with hv
    · rw [hv]
      rfl
    · rw [List.getLast?_cons, getLast?_reverse_range m.testBit nb.toNat.succ_pos]
      exact congrArg some (signedMagnitude_testBit_zero v)
  obtain ⟨t, u, ht, hu, hrun, hfault, hroom⟩ := exec_uniformBits (i := .bwPutsbits nb val) (f := .bwPutbitu)
    nofun (congrArg (putBits Config.params) hbits) nofun (fun _ => rfl) hs hst
  refine ⟨t, u, ht, hu, fun h => ?_, hfault, fun hok hfits => (hroom hok hfits).1⟩
  obtain ⟨heq, hbw, hlast⟩ := hrun h
  exact ⟨heq, hbw, hlast _ hsign⟩

end Sys2Proof.Machine
end

section
/-! PROOF. The writer computes the exact code (O26). A Flush leaves the number in OUT, the pending run and BW.VALUE as it
is (`flush_codeNumber`), and a shift does to it what unbounded arithmetic does (`shifted_codeNumber`). -/
namespace Sys2Proof.Machine

variable {P : Params} {tick : Nat} {b b' : Bw}

/-! ## The number in OUT -/

theorem bytesNumber_congr {m m' : Cells Byte} {n : Nat} (h : ∀ k < n, cellGet m k = cellGet m' k) :
    bytesNumber m n = bytesNumber m' n := by
  induction n with
  | zero => rfl
  | succ n ih => rw [bytesNumber, bytesNumber, ih fun k hk => h k (by omega), h n (by omega)]

/-- Bytes 0xFF behind the first `p` bytes: the number is one below a multiple of 256^n. -/
theorem bytesNumber_add_ff {m : Cells Byte} {p n : Nat} (h : ∀ k < n, cellGet m (p + k) = some 0xFF) :
    bytesNumber m (p + n) + 1 = (bytesNumber m p + 1) * 256 ^ n := by
  induction n with
  | zero => simp
  | succ n ih =>
    rw [← Nat.add_assoc, bytesNumber, h n (by omega), pow_succ, ← Nat.mul_assoc, ← ih fun k hk => h k (by omega)]
    simp only [Option.getD_some, show (0xFF : Byte).toNat = 255 from rfl]
    omega

theorem bytesNumber_add_zero {m : Cells Byte} {p n : Nat} (h : ∀ k < n, cellGet m (p + k) = some 0x00) :
    bytesNumber m (p + n) = bytesNumber m p * 256 ^ n := by
  induction n with
  | zero => simp
  | succ n ih =>
    rw [← Nat.add_assoc, bytesNumber, h n (by omega), pow_succ, ← Nat.mul_assoc, ← ih fun k hk => h k (by omega)]
    simp

/-- A carry into a last byte other than 0xFF adds one to the number. -/
theorem bytesNumber_carry {m m' : Cells Byte} {n : Nat} {x : Byte} (hsame : ∀ k < n, cellGet m' k = cellGet m k)
    (hx : cellGet m n = some x) (hff : x ≠ 0xFF) (hcarry : cellGet m' n = some (x + 1)) :
    bytesNumber m' (n + 1) = bytesNumber m (n + 1) + 1 := by
  have hsucc : (x + 1).toNat = x.toNat + 1 := by bv_omega
  rw [bytesNumber, bytesNumber, bytesNumber_congr hsame, hx, hcarry, Option.getD_some, Option.getD_some, hsucc]
  omega

/-- The bytes written and the pending run, as one number: what BW.VALUE is added to. -/
def Bw.settledNumber (b : Bw) : Nat := (bytesNumber b.out b.pos.toNat + 1) * 256 ^ b.run.toNat - 1

theorem Bw.codeNumber_eq (b : Bw) :
    b.codeNumber = b.settledNumber * 2 ^ (b.nbits.toInt + 16).toNat + b.value.toNat := rfl

theorem Bw.settledNumber_succ (b : Bw) :
    b.settledNumber + 1 = (bytesNumber b.out b.pos.toNat + 1) * 256 ^ b.run.toNat :=
  Nat.sub_add_cancel (Nat.mul_pos (Nat.succ_pos _) (by positivity))

theorem Bw.settledNumber_of_run_zero (h : b.run = 0) : b.settledNumber = bytesNumber b.out b.pos.toNat := by
  rw [Bw.settledNumber, h]
  simp

/-! ## A Flush -/

/-- A Flush moves a byte from BW.VALUE to the bytes written, with its carry (rule R404). -/
theorem flush_settledNumber (hP : P.outCap ≤ 2 ^ 28) (hb : b.InBounds) (hout : b.outOk) (hst : b.st = .writing)
    (hrun : b.run.toNat + 1 < 2 ^ 32) (h : flush P tick b = .ok b') :
    b'.settledNumber = b.settledNumber * 256 + flushBits b := by
  have hlt := hb.flushBits_lt
  have hsucc := b.settledNumber_succ
  have hflush := flush_out hP hb h
  split at hflush
  · next hff =>
    obtain ⟨hpos, hrun', hout'⟩ := hflush
    have hr : b'.run.toNat = b.run.toNat + 1 := by bv_omega
    have hsucc' := b'.settledNumber_succ
    rw [hpos, hout', hr, pow_succ, ← Nat.mul_assoc, ← hsucc] at hsucc'
    omega
  · obtain ⟨hpos, hrun', hbyte, hpend, hkeep, hcarry, -⟩ := hflush
    rw [Bw.settledNumber_of_run_zero hrun', hpos, bytesNumber, hbyte, Option.getD_some, BitVec.toNat_ofNat]
    by_cases hc : flushBits b < 256
    · simp only [hc, if_true] at hpend
      have hpending := bytesNumber_add_ff hpend
      rw [bytesNumber_congr fun k hk => hkeep k hk (.inl hc), ← hsucc] at hpending
      omega
    · simp only [hc, if_false] at hpend
      obtain ⟨hpos0, hcarry⟩ := hcarry (not_lt.mp hc)
      obtain ⟨n, hn⟩ : ∃ n, b.pos.toNat = n + 1 := ⟨b.pos.toNat - 1, by omega⟩
      have hlast : b.pos.toNat - 1 = n := by omega
      obtain ⟨x, hx⟩ := Option.isSome_iff_exists.mp (hout.1 n (by omega))
      have hxff : x ≠ 0xFF := fun he => hout.2 hst hpos0 (by rw [hlast, hx, he])
      have hbefore := bytesNumber_carry (fun k hk => hkeep k (by omega) (.inr (by omega))) hx hxff
        (hlast ▸ hcarry x (hlast ▸ hx))
      have hpending := bytesNumber_add_zero hpend
      rw [hn] at hsucc hpending ⊢
      rw [hbefore, ← hsucc] at hpending
      omega

theorem flush_codeNumber (hP : P.outCap ≤ 2 ^ 28) (hb : b.InBounds) (hout : b.outOk) (hst : b.st = .writing)
    (hrun : b.run.toNat + 1 < 2 ^ 32) (h : flush P tick b = .ok b') : b'.codeNumber = b.codeNumber := by
  have hnbits : b'.nbits.toInt = b.nbits.toInt - 8 := by
    have hsub := nbits_sub_toInt (n := b.nbits) hb.nbits_ge (by have := hb.nbits_le; omega)
    rcases flush_cases hb h with ⟨-, rfl⟩ | ⟨-, -, rfl⟩ <;> exact hsub
  have hunit : 2 ^ (b'.nbits.toInt + 16).toNat = flushUnit b := by
    rw [hnbits, flushUnit]
    congr 2
    omega
  have hunit' : 2 ^ (b.nbits.toInt + 16).toNat = 256 * flushUnit b := by
    have := hb.nbits_ge
    rw [flushUnit, show (b.nbits.toInt + 16).toNat = 8 + (8 + b.nbits.toInt).toNat by omega, pow_add]
    norm_num
  rw [Bw.codeNumber_eq, Bw.codeNumber_eq, hunit, hunit', flush_settledNumber hP hb hout hst hrun h,
    flush_value hb h, ← Nat.mul_assoc, Nat.add_mul, Nat.add_assoc, flushBits, Nat.div_add_mod']

/-! ## One decision -/

/-- Narrowing adds to the low end, and shifting doubles it. -/
theorem shifted_codeNumber (hb : b.ok) (d : CodedBit) :
    (shifted d b).codeNumber =
      (b.codeNumber + lowStep b.range.toNat d) * 2 ^ shiftOf b.range.toNat d := by
  have hn := hb.inBounds.nbits_ge
  have hexp : (b.nbits.toInt + shiftOf b.range.toNat d + 16).toNat =
      (b.nbits.toInt + 16).toNat + shiftOf b.range.toNat d := by omega
  have hsettled : (shifted d b).settledNumber = b.settledNumber := rfl
  rw [Bw.codeNumber_eq, Bw.codeNumber_eq, shifted_value hb, shifted_nbits hb, hsettled, hexp, pow_add]
  ring

theorem encodeBit_codeNumber (hP : P.outCap ≤ 2 ^ 28) {d : CodedBit} (hb : b.ok) (hout : b.outOk)
    (hst : b.st = .writing) (hrun : b.run.toNat + flushCount b.nbits.toInt (shiftOf b.range.toNat d) < 2 ^ 32)
    (h : encodeBit P tick d b = .ok b') :
    b'.codeNumber = (b.codeNumber + lowStep b.range.toNat d) * 2 ^ shiftOf b.range.toNat d := by
  rw [← shifted_codeNumber hb]
  rw [encodeBit_eq hb] at h
  split_ifs at h with hflush
  · have hrun' : (shifted d b).run.toNat + 1 < 2 ^ 32 := by
      change b.run.toNat + 1 < 2 ^ 32
      unfold flushCount at hrun
      omega
    exact flush_codeNumber hP (shifted_inBounds hb d) hout hst hrun' h
  · cases h
    rfl

theorem encodeBit_range {d : CodedBit} (hb : b.ok) (h : encodeBit P tick d b = .ok b') :
    b'.range.toNat = nextRange b.range.toNat d := by
  rw [← shifted_range hb]
  rw [encodeBit_eq hb] at h
  split_ifs at h with hflush
  · rw [(flush_nbits (shifted_inBounds hb d) (by rw [shifted_nbits hb]; omega) h).2.1]
  · cases h
    rfl

/-- BW.NBITS counts the bits shifted, less 8 for a Flush (rule R402). -/
theorem encodeBit_nbits {d : CodedBit} (hb : b.ok) (h : encodeBit P tick d b = .ok b') :
    b'.nbits.toInt = b.nbits.toInt + shiftOf b.range.toNat d -
      8 * flushCount b.nbits.toInt (shiftOf b.range.toNat d) := by
  have hn := shifted_nbits hb d
  have hle := shiftOf_le b.range.toNat d
  obtain ⟨-, -, hge, hle0, -⟩ := id hb
  unfold flushCount
  rw [encodeBit_eq hb] at h
  split_ifs at h with hflush
  · rw [(flush_nbits (shifted_inBounds hb d) (by omega) h).1]
    omega
  · cases h
    omega

theorem encodeBit_run_le {d : CodedBit} (hb : b.ok) (h : encodeBit P tick d b = .ok b') :
    b'.run.toNat ≤ b.run.toNat + flushCount b.nbits.toInt (shiftOf b.range.toNat d) := by
  rw [encodeBit_eq hb] at h
  split_ifs at h with hflush
  · have hrun : b'.run.toNat ≤ b.run.toNat + 1 := by
      rcases flush_cases (shifted_inBounds hb d) h with ⟨-, rfl⟩ | ⟨-, -, rfl⟩
      · exact (Nat.mod_le _ _)
      · exact Nat.zero_le _
    unfold flushCount
    omega
  · cases h
    exact Nat.le_add_right _ _

theorem flushCount_add (n : Int) (j k : Nat) :
    flushCount n (j + k) = flushCount n j + flushCount (n + j - 8 * flushCount n j) k := by
  unfold flushCount
  omega

/-! ## A list of decisions -/

theorem totalShift_cons (r : Nat) (d : CodedBit) (ds : List CodedBit) :
    totalShift r (d :: ds) = shiftOf r d + totalShift (nextRange r d) ds := rfl

/-- Coding a list shifts as many bits as it says, with a Flush for every eight of them (rule R402). -/
theorem encodeBits_nbits (hP : P.outCap ≤ 2 ^ 28) {ds : List CodedBit} (hb : b.ok)
    (h : encodeBits P tick ds b = .ok b') :
    b'.nbits.toInt = b.nbits.toInt + totalShift b.range.toNat ds -
      8 * flushCount b.nbits.toInt (totalShift b.range.toNat ds) := by
  induction ds generalizing b with
  | nil =>
    cases h
    have := hb.inBounds.nbits_ge
    have := hb.nbits_nonpos
    simp only [totalShift, flushCount]
    omega
  | cons d ds ih =>
    unfold encodeBits at h
    split at h
    · next b₁ hd =>
      rw [ih (encodeBit_ok hb hP hd) h, encodeBit_range hb hd, encodeBit_nbits hb hd, totalShift_cons,
        flushCount_add]
      push_cast
      ring
    · cases h

/-- The exact arithmetic coder and the writer agree while BW.RUN does not wrap. -/
theorem encodeBits_codeNumber (hP : P.outCap ≤ 2 ^ 28) {ds : List CodedBit} (hb : b.ok) (hout : b.outOk)
    (hst : b.st = .writing)
    (hrun : b.run.toNat + flushCount b.nbits.toInt (totalShift b.range.toNat ds) < 2 ^ 32)
    (h : encodeBits P tick ds b = .ok b') :
    b'.codeNumber = exactLow b.codeNumber b.range.toNat ds := by
  induction ds generalizing b with
  | nil => cases h; rfl
  | cons d ds ih =>
    unfold encodeBits at h
    split at h
    · next b₁ hd =>
      rw [totalShift_cons, flushCount_add] at hrun
      have hrange := encodeBit_range hb hd
      have hle := encodeBit_run_le hb hd
      rw [ih (encodeBit_ok hb hP hd) (encodeBit_outOk hP hb hout hd) ((encodeBit_st hd).trans hst)
        (by rw [hrange, encodeBit_nbits hb hd]; omega) h, hrange,
        encodeBit_codeNumber hP hb hout hst (by omega) hd]
      rfl
    · cases h

/-! ## BW_PUTBIT after BW_PUTBIT -/

theorem bitpos_of_shift {n : Nat}
    (h : 8 * ((b'.pos.toNat : Int) + b'.run.toNat) + b'.nbits.toInt =
      8 * ((b.pos.toNat : Int) + b.run.toNat) + b.nbits.toInt + n) :
    bitpos b' = bitpos b + BitVec.ofNat 32 n := by
  rw [bitpos, bitpos, ← BitVec.ofInt_natCast, ← BitVec.ofInt_add]
  congr 1
  omega

/-- Settles O26: what fits is coded without a fault, and BW.RUN stays below OUT_CAP. -/
theorem writerComputesExactCode : Obligations.WriterComputesExactCode := by
  intro ds s ⟨hs, hst, hok⟩ hout hroom
  have hcap := outCap_le
  obtain ⟨b, hb, hok', hst', hrange, hshift⟩ := encodeBits_of_room hcap ds hok hroom (tick := s.tick)
  have hrun : s.bw.run.toNat + flushCount s.bw.nbits.toInt (totalShift s.bw.range.toNat ds) < 2 ^ 32 := by
    unfold State.roomFor at hroom
    omega
  exact ⟨s.withBw b, execAll_putbits hs hst hb, rfl, ⟨hs, hst'.trans hst, hok'⟩, encodeBits_outOk hcap hok hout hb,
    encodeBits_codeNumber hcap hok hout hst hrun hb, hrange, bitpos_of_shift hshift⟩

end Sys2Proof.Machine
end

section
/-! PROOF. BW_FINISH (O23, O24). The padding shifts one bit for each of its zero bits, so it ends right behind a Flush
with BW.NBITS = -7; the last Flush then writes the one bit that is left. -/
namespace Sys2Proof.Machine

variable {P : Params} {tick : Nat} {b p : Bw}

/-! ## Padding -/

/-- The zero bits BW_FINISH codes before it forces out the last byte (rule R425). -/
def padBits (n : Nat) : List CodedBit := List.replicate n (false, uniformProb)

theorem padBits_succ (n : Nat) : padBits (n + 1) = padBits n ++ [(false, uniformProb)] := List.replicate_succ'

/-- Once a bit has been coded, a uniform bit shifts by one. -/
theorem shiftOf_padBit {r : Nat} (h : 127 ≤ r) (h' : r ≤ 253) : shiftOf r (false, uniformProb) = 1 := by
  have H : ∀ r ≤ 253, 127 ≤ r → shiftOf r (false, uniformProb) = 1 := by decide +kernel
  exact H r h' h

theorem totalShift_padBits {r : Nat} (h : 127 ≤ r) (h' : r ≤ 253) (n : Nat) : totalShift r (padBits n) = n := by
  induction n generalizing r with
  | zero => rfl
  | succ n ih =>
    obtain ⟨hlo, hhi⟩ := nextRange_bounds (false, uniformProb) (r := r) (by omega) (by omega)
    rw [padBits, List.replicate_succ, totalShift_cons, shiftOf_padBit h h', ← padBits, ih hlo hhi, add_comm]

/-- Zero bits leave the low end of the interval where it is. -/
theorem exactLow_padBits (low r n : Nat) : exactLow low r (padBits n) = low * 2 ^ totalShift r (padBits n) := by
  induction n generalizing low r with
  | zero => rw [padBits, List.replicate_zero, exactLow, totalShift, pow_zero, mul_one]
  | succ n ih =>
    rw [padBits, List.replicate_succ, totalShift_cons, ← padBits, pow_add, ← mul_assoc, ← ih]
    rfl

theorem encodeBit_range_le {d : CodedBit} {b' : Bw} (hb : b.ok) (h : encodeBit P tick d b = .ok b') :
    b'.range.toNat ≤ 253 := by
  have hin := hb.inBounds
  rw [encodeBit_range hb h]
  exact (nextRange_bounds d (Nat.lt_of_lt_of_le (by norm_num) hin.range_ge) hin.range_le).2

theorem encodeBits_range_le (hP : P.outCap ≤ 2 ^ 28) {ds : List CodedBit} {b' : Bw} (hb : b.ok)
    (hr : b.range.toNat ≤ 253) (h : encodeBits P tick ds b = .ok b') : b'.range.toNat ≤ 253 := by
  refine (encodeBits_keeps (I := fun b => b.ok ∧ b.range.toNat ≤ 253) (fun d b b' hI hd => ?_) ⟨hb, hr⟩ h).2
  exact ⟨encodeBit_ok hI.1 hP hd, encodeBit_range_le hI.1 hd⟩

/-- Once a bit has been coded BW.RANGE is below that of a fresh writer. -/
theorem encodeBits_cons_range_le (hP : P.outCap ≤ 2 ^ 28) {d : CodedBit} {ds : List CodedBit} {b' : Bw} (hb : b.ok)
    (h : encodeBits P tick (d :: ds) b = .ok b') : b'.range.toNat ≤ 253 := by
  unfold encodeBits at h
  split at h
  · next b₁ hd => exact encodeBits_range_le hP (encodeBit_ok hb hP hd) (encodeBit_range_le hb hd) h
  · cases h

/-- A Flush leaves in BW.VALUE the bits below the byte it takes. -/
theorem encodeBit_value_lt {d : CodedBit} {b' : Bw} (hb : b.ok)
    (hflush : 0 < b.nbits.toInt + shiftOf b.range.toNat d) (h : encodeBit P tick d b = .ok b') :
    b'.value.toNat < 2 ^ (b.nbits.toInt + shiftOf b.range.toNat d + 8).toNat := by
  rw [encodeBit_eq hb, if_pos hflush] at h
  rw [flush_value (shifted_inBounds hb d) h, ← flushUnit_shifted hb]
  exact Nat.mod_lt _ (flushUnit_pos _)

/-- The writer `p` that the padding of BW_FINISH leaves: it stands right behind a Flush, and the last bit was 0. -/
structure Padded (P : Params) (tick : Nat) (b p : Bw) : Prop where
  coded : encodeBits P tick (padBits (9 - b.nbits.toInt).toNat) b = .ok p
  ok : p.ok
  st : p.st = b.st
  lastBit : p.lastBit = false
  nbits : p.nbits.toInt = -7
  value_lt : p.value.toNat < 512

/-- The last bit of the padding causes a Flush. -/
theorem padded_of_coded (hP : P.outCap ≤ 2 ^ 28) (hb : b.ok) (hr : b.range.toNat ≤ 253)
    (hp : encodeBits P tick (padBits (9 - b.nbits.toInt).toNat) b = .ok p) : Padded P tick b p := by
  have hlo := hb.inBounds.range_ge
  have hn := hb.nbits_nonpos
  obtain ⟨m, hm⟩ : ∃ m, (9 - b.nbits.toInt).toNat = m + 1 := ⟨(8 - b.nbits.toInt).toNat, by omega⟩
  have h := hp
  rw [hm, padBits_succ] at h
  have hlast := encodeBits_lastBit List.getLast?_concat h
  rw [encodeBits_append] at h
  split at h
  · next q hq =>
    rw [encodeBits_singleton] at h
    have hqok := encodeBits_ok hP hb hq
    have hqn := encodeBits_nbits hP hb hq
    have hshift := shiftOf_padBit hqok.inBounds.range_ge (encodeBits_range_le hP hb hr hq)
    rw [totalShift_padBits hlo hr] at hqn
    have hqn0 : q.nbits.toInt = 0 := by
      unfold flushCount at hqn
      omega
    have hvalue := encodeBit_value_lt hqok (by rw [hqn0, hshift]; norm_num) h
    have hnbits := encodeBit_nbits hqok h
    rw [hqn0, hshift] at hvalue hnbits
    exact ⟨hp, encodeBits_ok hP hb hp, encodeBits_st hp, hlast, hnbits, hvalue⟩
  · cases h

/-! ## The last Flush -/

/-- The writer after the last Flush of BW_FINISH, which forces out the high byte of BW.VALUE. -/
def closeBw (P : Params) (tick : Nat) (p : Bw) : Bw :=
  { p with
    st := .finished, value := BitVec.ofNat 32 (p.value.toNat % 256), nbits := 0 - 8, run := 0
    pos := BitVec.ofNat 32 (flushNeed p), out := flushOut P tick p (p.value.toNat / 256) }

/-- The byte that is left behind the padding is no 0xFF, so it is written or has no room. -/
theorem flush_of_padded (hok : p.ok) (hvalue : p.value.toNat < 512) :
    flush P tick { p with nbits := 0 } =
      if P.outCap < flushNeed p then .error ⟨.allocFailure, flushNeed p⟩
      else .ok { closeBw P tick p with st := p.st } := by
  have hin := hok.withNbitsZero
  have hbits : flushBits { p with nbits := 0 } = p.value.toNat / 256 := rfl
  have hneed : flushNeed { p with nbits := 0 } = flushNeed p := rfl
  rw [flush_eq P tick hin.nbits_ge hin.value_lt hin.value_lt_first, if_neg (by omega), hneed]
  rfl

/-- BW_FINISH after its padding. -/
theorem finishBw_of_padded (hp : encodeBits P tick (padBits (9 - b.nbits.toInt).toNat) b = .ok p) (hok : p.ok)
    (hvalue : p.value.toNat < 512) :
    finishBw P tick b =
      if P.outCap < flushNeed p then .error ⟨.allocFailure, flushNeed p⟩ else .ok (closeBw P tick p) := by
  unfold padBits at hp
  rw [finishBw, hp]
  change (flush P tick { p with nbits := 0 } >>= fun f => pure { f with st := BwState.finished }) = _
  rw [flush_of_padded hok hvalue]
  split_ifs <;> rfl

theorem finishBw_of_padding_error {r : Raise}
    (h : encodeBits P tick (padBits (9 - b.nbits.toInt).toNat) b = .error r) : finishBw P tick b = .error r := by
  unfold padBits at h
  rw [finishBw, h]
  rfl

theorem closeBw_pos (hP : P.outCap ≤ 2 ^ 28) (hroom : flushNeed p ≤ P.outCap) :
    (closeBw P tick p).pos.toNat = flushNeed p := flushNeed_toNat hP hroom

/-- The last byte written is the high byte of BW.VALUE. -/
theorem closeBw_lastByte :
    cellGet (closeBw P tick p).out (flushNeed p - 1) = some (BitVec.ofNat 8 (p.value.toNat / 256)) := by
  rw [closeBw, cellGet_flushOut, if_pos (by unfold flushNeed; omega)]

theorem totalShift_padding (hb : b.ok) (hr : b.range.toNat ≤ 253) :
    totalShift b.range.toNat (padBits (9 - b.nbits.toInt).toNat) = (9 - b.nbits.toInt).toNat :=
  totalShift_padBits hb.inBounds.range_ge hr _

/-- The padding of BW_FINISH causes two Flushes. -/
theorem flushCount_padding (hb : b.ok) (hr : b.range.toNat ≤ 253) :
    flushCount b.nbits.toInt (totalShift b.range.toNat (padBits (9 - b.nbits.toInt).toNat)) = 2 := by
  have hn := hb.nbits_nonpos
  rw [totalShift_padding hb hr]
  unfold flushCount
  omega

/-- What BW_FINISH can do once a bit has been coded: close the stream behind the padding, or run out of room. -/
theorem finishBw_spec (hP : P.outCap ≤ 2 ^ 28) (hb : b.ok) (hr : b.range.toNat ≤ 253)
    (hrun : b.run.toNat + 3 < 2 ^ 32) :
    (∃ p, Padded P tick b p ∧ flushNeed p = b.pos.toNat + b.run.toNat + 3 ∧ flushNeed p ≤ P.outCap ∧
      finishBw P tick b = .ok (closeBw P tick p)) ∨
    ∃ info, P.outCap < info ∧ info ≤ b.pos.toNat + b.run.toNat + 3 ∧
      finishBw P tick b = .error ⟨.allocFailure, info⟩ := by
  have hn := hb.nbits_nonpos
  have hcount := flushCount_padding hb hr
  rcases encodeBits_spec hP (padBits (9 - b.nbits.toInt).toNat) hb (tick := tick)
    (by rw [hcount]; omega) with ⟨p, hp, -, -, -, hpos⟩ | ⟨info, herr, hfull, hle⟩
  · have hpad := padded_of_coded hP hb hr hp
    have hfinish := finishBw_of_padded hp hpad.ok hpad.value_lt
    have hneed : flushNeed p = b.pos.toNat + b.run.toNat + 3 := by
      rw [totalShift_padding hb hr, hpad.nbits] at hpos
      unfold flushNeed
      omega
    split_ifs at hfinish with hfull
    · exact .inr ⟨flushNeed p, hfull, hneed.le, hfinish⟩
    · exact .inl ⟨p, hpad, hneed, not_lt.mp hfull, hfinish⟩
  · rw [hcount] at hle
    exact .inr ⟨info, hfull, by omega, finishBw_of_padding_error herr⟩

/-! ## The command -/

theorem finishBody_of_writing {s : State} (h : s.bw.st = .writing) :
    finishBody P s = (finishBw P s.tick s.bw).map s.withBw := by
  rw [finishBody, h]
  dsimp only
  rcases finishBw P s.tick s.bw with r | f <;> rfl

theorem exec_bwFinish_of_finished {s : State} (hs : s.running) (h : s.bw.st = .finished) :
    exec .bwFinish s = .next s := by
  refine exec_of_ok nofun hs ?_
  rw [bodyOf, finishBody, h]

theorem exec_bwFinish_of_ok {s : State} {f : Bw} (hs : s.running) (hst : s.bw.st = .writing)
    (h : finishBw Config.params s.tick s.bw = .ok f) : exec .bwFinish s = .next (s.withBw f) := by
  refine exec_of_ok nofun hs ?_
  rw [bodyOf, finishBody_of_writing hst, h]
  rfl

theorem exec_bwFinish_of_error {s : State} {info : Nat} (hs : s.running) (hst : s.bw.st = .writing)
    (h : finishBw Config.params s.tick s.bw = .error ⟨.allocFailure, info⟩) :
    exec .bwFinish s = .next
      ((s.faultedBy (encode .bwFinish) .allocFailure info).withBw (spoilBw Config.params s.tick s.bw)) := by
  refine exec_of_allocFailure rfl nofun hs ?_
  rw [bodyOf, finishBody_of_writing hst, h]
  rfl

/-- Settles O23: the padding causes two Flushes and the last byte is a third one (`finishBw_spec`). -/
theorem bwFinishClosesStream : Obligations.BwFinishClosesStream := by
  intro s ⟨hs, hst, hok⟩ hr hrun
  rcases finishBw_spec outCap_le hok hr hrun (tick := s.tick) with
    ⟨p, hpad, hneed, hroom, hfinish⟩ | ⟨info, hfull, hle, herr⟩
  · refine ⟨_, exec_bwFinish_of_ok hs hst hfinish, ?_⟩
    have hbyte := closeBw_lastByte (P := Config.params) (tick := s.tick) (p := p)
    rw [hneed] at hroom hbyte
    rw [if_pos hroom]
    refine ⟨rfl, rfl, (closeBw_pos outCap_le (hneed ▸ hroom)).trans hneed, rfl, hpad.lastBit, ?_,
      exec_bwFinish_of_finished hs rfl⟩
    have hhigh : p.value.toNat / 256 = 0 ∨ p.value.toNat / 256 = 1 := by
      have := hpad.value_lt
      omega
    rcases hhigh with hhigh | hhigh <;> rw [hhigh] at hbyte
    · exact .inl hbyte
    · exact .inr hbyte
  · refine ⟨_, exec_bwFinish_of_error hs hst herr, ?_⟩
    rw [if_neg (by omega)]
    exact ⟨info, hfull, hle, rfl, hst⟩

/-! ## Nothing coded -/

theorem initBw_nbits (b : Bw) : (initBw b).nbits.toInt = -8 := by
  simp [initBw]

theorem initBw_codeNumber (b : Bw) : (initBw b).codeNumber = 0 := by
  simp [Bw.codeNumber, initBw, bytesNumber]

theorem Bw.codeNumber_eq_zero (h : b.codeNumber = 0) : b.settledNumber = 0 ∧ b.value.toNat = 0 := by
  rw [Bw.codeNumber_eq] at h
  exact (Nat.add_eq_zero_iff.mp h).imp_left fun h => (Nat.mul_eq_zero.mp h).resolve_right (by positivity)

/-- Nothing is held back below a number that is 0. -/
theorem Bw.run_of_settledNumber_zero (h : b.settledNumber = 0) : b.run = 0 := by
  have hsucc := b.settledNumber_succ
  rw [h] at hsucc
  have hpow : 256 ^ b.run.toNat = 1 := Nat.eq_one_of_mul_eq_one_left hsucc.symm
  exact BitVec.eq_of_toNat_eq (((Nat.pow_eq_one).mp hpow).resolve_left (by norm_num))

/-- The padding of a fresh writer shifts 16 bits and writes one byte; all of them are 0. -/
theorem initBw_padded (hP : P.outCap ≤ 2 ^ 28) (hP1 : 1 ≤ P.outCap) (tick : Nat) (b : Bw) :
    ∃ p, encodeBits P tick (padBits 17) (initBw b) = .ok p ∧ p.ok ∧ p.outOk ∧ p.st = .writing ∧
      p.pos.toNat = 1 ∧ p.run = 0 ∧ p.value.toNat = 0 ∧ p.settledNumber = 0 := by
  have hok := initBw_ok b
  have hshift : totalShift (initBw b).range.toNat (padBits 17) = 16 := by
    change totalShift 254 (padBits 17) = 16
    decide +kernel
  have hcount : flushCount (initBw b).nbits.toInt 16 = 1 := by rw [initBw_nbits]; rfl
  have hpos0 : (initBw b).pos.toNat = 0 := rfl
  have hrun0 : (initBw b).run.toNat = 0 := rfl
  obtain ⟨p, hp, hpok, hst, -, hpos⟩ := encodeBits_of_room hP (padBits 17) hok (tick := tick)
    (by rw [hshift, hcount, hpos0, hrun0]; exact hP1)
  have hnbits := encodeBits_nbits hP hok hp
  have hcode := encodeBits_codeNumber hP hok (initBw_outOk b) rfl (by rw [hshift, hcount, hrun0]; norm_num) hp
  rw [hshift, hcount, initBw_nbits] at hnbits
  rw [hshift, hpos0, hrun0, initBw_nbits, hnbits] at hpos
  rw [exactLow_padBits, initBw_codeNumber, Nat.zero_mul] at hcode
  obtain ⟨hsettled, hvalue⟩ := Bw.codeNumber_eq_zero hcode
  have hrun := Bw.run_of_settledNumber_zero hsettled
  rw [hrun, show (0 : BitVec 32).toNat = 0 from rfl] at hpos
  exact ⟨p, hp, hpok, encodeBits_outOk hP hok (initBw_outOk b) hp, hst, by omega, hrun, hvalue, hsettled⟩

/-- Closing the stream adds the high byte of BW.VALUE to the number. -/
theorem closeBw_bytesNumber (hP : P.outCap ≤ 2 ^ 28) (hok : p.ok) (hout : p.outOk) (hst : p.st = .writing)
    (hrun : p.run.toNat + 1 < 2 ^ 32) (hvalue : p.value.toNat < 512) (hroom : flushNeed p ≤ P.outCap) :
    bytesNumber (closeBw P tick p).out (closeBw P tick p).pos.toNat =
      p.settledNumber * 256 + p.value.toNat / 256 := by
  have hflush := flush_of_padded (P := P) (tick := tick) hok hvalue
  rw [if_neg (not_lt.mpr hroom)] at hflush
  rw [← Bw.settledNumber_of_run_zero rfl]
  exact flush_settledNumber (b' := { closeBw P tick p with st := p.st }) hP hok.withNbitsZero hout hst hrun
    hflush

theorem stream_of_two {m : Bw} (hpos : m.pos.toNat = 2) (h : bytesNumber m.out 2 = 0) : m.stream = [0x00, 0x00] := by
  simp only [bytesNumber] at h
  have h0 : (cellGet m.out 0).getD 0 = 0 := BitVec.eq_of_toNat_eq (by change _ = 0; omega)
  have h1 : (cellGet m.out 1).getD 0 = 0 := BitVec.eq_of_toNat_eq (by change _ = 0; omega)
  rw [Bw.stream, hpos, show List.range 2 = [0, 1] from rfl, List.map_cons, List.map_cons, h0, h1]
  rfl

/-- Settles O24: right after BW_INIT the padding writes one byte 0 and the last Flush a second one. -/
theorem bwFinishWithNothingCoded : Obligations.BwFinishWithNothingCoded := by
  intro s hs
  refine ⟨exec_bwFinish_of_finished hs, fun hst => ?_, ?_⟩
  · refine exec_of_precise nofun hs ?_ rfl
    rw [bodyOf, finishBody, hst]
    rfl
  · obtain ⟨p, hp, hok, hout, hst, hpos, hrun, hvalue, hsettled⟩ :=
      initBw_padded outCap_le outCap_pos s.tick s.bw
    have hneed : flushNeed p = 2 := by rw [flushNeed, hpos, hrun]; rfl
    have hpad : (9 - (initBw s.bw).nbits.toInt).toNat = 17 := by rw [initBw_nbits]; rfl
    have hfinish := finishBw_of_padded (b := initBw s.bw) (hpad ▸ hp) hok (by omega)
    have hinit : exec .bwInit s = .next (s.withBw (initBw s.bw)) := exec_of_ok nofun hs rfl
    rw [hneed] at hfinish
    by_cases hroom : 2 ≤ Config.params.outCap
    · rw [if_neg (not_lt.mpr hroom)] at hfinish
      refine ⟨_, _, hinit, exec_bwFinish_of_ok hs rfl hfinish, ?_⟩
      have hpos2 := closeBw_pos (tick := s.tick) outCap_le (hneed.trans_le hroom)
      have hnumber := closeBw_bytesNumber (tick := s.tick) outCap_le hok hout hst (by rw [hrun]; decide) (by omega)
        (hneed.trans_le hroom)
      rw [hneed] at hpos2
      rw [hpos2, hsettled, hvalue] at hnumber
      rw [if_pos hroom]
      exact ⟨rfl, rfl, BitVec.eq_of_toNat_eq hpos2, stream_of_two hpos2 hnumber⟩
    · rw [if_pos (not_le.mp hroom)] at hfinish
      refine ⟨_, _, hinit, exec_bwFinish_of_error hs rfl hfinish, ?_⟩
      rw [if_neg hroom]
      rfl

end Sys2Proof.Machine
end

section
/-! PROOF. The boolean decoder reads back what was coded (O27). The decoder's window and the bytes it has still to read
are one number (`BoolDecoder.Reads`), which a shift does not change; as long as that number lies in the interval of the
exact arithmetic coder, each comparison gives the bit that was coded (`decodeAll_of_interval`). BW_FINISH writes the low
end of that interval (`finishBw_number`). -/
namespace Sys2Proof.Machine

/-! ## The exact interval -/

/-- The low end moves with the interval it starts from. -/
theorem exactLow_eq_add (low r : Nat) (ds : List CodedBit) :
    exactLow low r ds = low * 2 ^ totalShift r ds + exactLow 0 r ds := by
  induction ds generalizing low r with
  | nil => simp [exactLow, totalShift]
  | cons d ds ih =>
    rw [exactLow, exactLow, totalShift_cons, ih, ih ((0 + _) * _), pow_add]
    ring

theorem exactLow_cons_zero (r : Nat) (d : CodedBit) (ds : List CodedBit) :
    exactLow 0 r (d :: ds) =
      lowStep r d * 2 ^ (shiftOf r d + totalShift (nextRange r d) ds) + exactLow 0 (nextRange r d) ds := by
  rw [exactLow, exactLow_eq_add, Nat.zero_add, pow_add, ← Nat.mul_assoc]
  rfl

/-- The interval stays inside the one it starts from. -/
theorem exactLow_add_exactRange_le {r : Nat} (hr : 0 < r) (hr' : r ≤ 254) (ds : List CodedBit) :
    exactLow 0 r ds + exactRange r ds + 1 ≤ (r + 1) * 2 ^ totalShift r ds := by
  induction ds generalizing r with
  | nil => simp [exactLow, exactRange, totalShift]
  | cons d ds ih =>
    obtain ⟨hlo, hhi⟩ := nextRange_bounds d hr hr'
    have hinside : lowStep r d + narrowedRange r d ≤ r := narrowed_inside d hr
    have hnext := nextRange_succ r d
    rw [exactLow_cons_zero, exactRange, totalShift_cons]
    calc lowStep r d * 2 ^ (shiftOf r d + totalShift (nextRange r d) ds) + exactLow 0 (nextRange r d) ds +
          exactRange (nextRange r d) ds + 1
        ≤ lowStep r d * 2 ^ (shiftOf r d + totalShift (nextRange r d) ds) +
          (nextRange r d + 1) * 2 ^ totalShift (nextRange r d) ds := by
          have := ih (r := nextRange r d) (by omega) (by omega)
          omega
      _ = (lowStep r d + narrowedRange r d + 1) * 2 ^ (shiftOf r d + totalShift (nextRange r d) ds) := by
          rw [hnext, pow_add]
          ring
      _ ≤ (r + 1) * 2 ^ (shiftOf r d + totalShift (nextRange r d) ds) := Nat.mul_le_mul_right _ (by omega)

theorem totalShift_le (r : Nat) (ds : List CodedBit) : totalShift r ds ≤ 7 * ds.length := by
  induction ds generalizing r with
  | nil => exact Nat.zero_le _
  | cons d ds ih =>
    have := ih (nextRange r d)
    have := shiftOf_le r d
    rw [totalShift_cons, List.length_cons]
    omega

/-! ## Bytes as a number -/

/-- The listed bytes, most significant first, as one number. -/
def bytesValue : List Byte → Nat
  | [] => 0
  | x :: xs => x.toNat * 256 ^ xs.length + bytesValue xs

theorem bytesValue_lt (l : List Byte) : bytesValue l < 256 ^ l.length := by
  induction l with
  | nil => norm_num [bytesValue]
  | cons x xs ih =>
    have hx : (x.toNat + 1) * 256 ^ xs.length ≤ 256 * 256 ^ xs.length := Nat.mul_le_mul_right _ x.isLt
    rw [bytesValue, List.length_cons, pow_succ']
    linarith

theorem bytesValue_concat (l : List Byte) (x : Byte) : bytesValue (l ++ [x]) = bytesValue l * 256 + x.toNat := by
  induction l with
  | nil => simp [bytesValue]
  | cons y ys ih =>
    rw [List.cons_append, bytesValue, bytesValue, ih, List.length_append, List.length_singleton, pow_succ]
    ring

theorem Bw.stream_length (b : Bw) : b.stream.length = b.pos.toNat := by
  rw [Bw.stream, List.length_map, List.length_range]

theorem Bw.bytesValue_stream (b : Bw) : bytesValue b.stream = bytesNumber b.out b.pos.toNat := by
  unfold Bw.stream
  induction b.pos.toNat with
  | zero => rfl
  | succ n ih =>
    rw [List.range_succ, List.map_append, List.map_singleton, bytesValue_concat, ih]
    rfl

/-! ## The decoder's window -/

namespace BoolDecoder

/-- The decoder has `n` bits of the stream left to shift in, and its value with these bits behind it is the
number `x`. -/
structure Reads (d : BoolDecoder) (n x : Nat) : Prop where
  bitCount_le : d.bitCount ≤ 7
  left : n + d.bitCount = 8 * d.rest.length
  dvd : 2 ^ d.bitCount ∣ d.value
  window : x = d.value * 2 ^ n + bytesValue d.rest

variable {d : BoolDecoder} {n x : Nat}

theorem init_reads {l : List Byte} (h : 2 ≤ l.length) : (init l).Reads (8 * (l.length - 2)) (bytesValue l) := by
  obtain ⟨y, z, rest, rfl⟩ : ∃ y z rest, l = y :: z :: rest := by
    match l, h with
    | y :: z :: rest, _ => exact ⟨y, z, rest, rfl⟩
  refine ⟨Nat.zero_le 7, rfl, one_dvd _, ?_⟩
  change y.toNat * 256 ^ (rest.length + 1) + (z.toNat * 256 ^ rest.length + bytesValue rest) =
    (y.toNat * 256 + z.toNat) * 2 ^ (8 * rest.length) + bytesValue rest
  have h256 : (256 : Nat) = 2 ^ 8 := rfl
  rw [pow_succ, h256, ← pow_mul]
  ring

/-- The comparison of DecodeBit is the one of the whole number: the bits still to come lie below it. -/
theorem Reads.split_le_iff (h : d.Reads n x) (split : Nat) :
    split * 256 ≤ d.value ↔ split * 2 ^ (8 + n) ≤ x := by
  obtain ⟨hcount, hleft, hdvd, rfl⟩ := h
  rw [pow_add, ← Nat.mul_assoc]
  constructor
  · intro hle
    exact (Nat.mul_le_mul_right _ hle).trans (Nat.le_add_right _ _)
  · intro hle
    by_contra hlt
    have hgap : d.value + 2 ^ d.bitCount ≤ split * 256 := by
      have hdvd' : 2 ^ d.bitCount ∣ split * 256 :=
        Dvd.dvd.mul_left (pow_dvd_pow 2 (show d.bitCount ≤ 8 by omega)) split
      obtain ⟨k, hk⟩ := Nat.dvd_sub hdvd' hdvd
      have hk0 : 0 < k := Nat.pos_of_ne_zero fun h0 => by
        rw [h0, Nat.mul_zero] at hk
        omega
      have := Nat.le_mul_of_pos_right (2 ^ d.bitCount) hk0
      omega
    have hrest := bytesValue_lt d.rest
    have hpow : 256 ^ d.rest.length = 2 ^ d.bitCount * 2 ^ n := by
      rw [← pow_add, show d.bitCount + n = 8 * d.rest.length by omega, pow_mul]
      rfl
    have := Nat.mul_le_mul_right (2 ^ n) hgap
    rw [hpow] at hrest
    rw [Nat.add_mul] at this
    have h256 : split * 2 ^ 8 * 2 ^ n = split * 256 * 2 ^ n := rfl
    omega

/-- Taking the upper sub-interval moves the low end of the window. -/
theorem Reads.sub (h : d.Reads n x) {split : Nat} (hle : split * 256 ≤ d.value) (range : Nat) :
    Reads { d with range := range, value := d.value - split * 256 } n (x - split * 2 ^ (8 + n)) := by
  obtain ⟨hcount, hleft, hdvd, rfl⟩ := h
  refine ⟨hcount, hleft, ?_, ?_⟩
  · exact Nat.dvd_sub hdvd (Dvd.dvd.mul_left (pow_dvd_pow 2 (show d.bitCount ≤ 8 by omega)) split)
  · have hmul : split * 2 ^ (8 + n) ≤ d.value * 2 ^ n := by
      rw [pow_add, ← Nat.mul_assoc]
      exact Nat.mul_le_mul_right _ hle
    rw [Nat.sub_add_comm hmul, Nat.sub_mul, pow_add, Nat.mul_assoc]
    rfl

theorem Reads.withRange (h : d.Reads n x) (range : Nat) : Reads { d with range := range } n x :=
  ⟨h.bitCount_le, h.left, h.dvd, h.window⟩

/-! ## Renormalisation -/

/-- One turn of the renormalisation loop. -/
def shiftOne (d : BoolDecoder) : BoolDecoder :=
  if d.bitCount = 7 then
    { value := d.value * 2 + (d.rest.getD 0 0).toNat, range := d.range * 2, bitCount := 0, rest := d.rest.drop 1 }
  else { d with value := d.value * 2, range := d.range * 2, bitCount := d.bitCount + 1 }

theorem shift_succ (fuel : Nat) (d : BoolDecoder) :
    shift (fuel + 1) d = if d.range < 128 then shift fuel d.shiftOne else d := by
  rw [shift, shiftOne]
  split_ifs <;> rfl

theorem shiftOne_range (d : BoolDecoder) : d.shiftOne.range = d.range * 2 := by
  unfold shiftOne
  split_ifs <;> rfl

/-- A shift brings in one bit and leaves the number as it is. -/
theorem Reads.shiftOne (h : d.Reads (n + 1) x) : d.shiftOne.Reads n x := by
  obtain ⟨hcount, hleft, hdvd, rfl⟩ := h
  unfold BoolDecoder.shiftOne
  split_ifs with hseven
  · obtain ⟨y, ys, hrest⟩ : ∃ y ys, d.rest = y :: ys := List.exists_cons_of_length_pos (by omega)
    rw [hrest, List.length_cons] at hleft
    rw [hrest]
    refine ⟨Nat.zero_le 7, ?_, one_dvd _, ?_⟩
    · change n + 0 = 8 * ys.length
      omega
    · have hn : n = 8 * ys.length := by omega
      have h256 : (256 : Nat) = 2 ^ 8 := rfl
      change d.value * 2 ^ (n + 1) + (y.toNat * 256 ^ ys.length + bytesValue ys) =
        (d.value * 2 + y.toNat) * 2 ^ n + bytesValue ys
      rw [h256, ← pow_mul, ← hn, pow_succ]
      ring
  · refine ⟨show d.bitCount + 1 ≤ 7 by omega, show n + (d.bitCount + 1) = 8 * d.rest.length by omega, ?_, ?_⟩
    · dsimp only
      rw [pow_succ]
      exact Nat.mul_dvd_mul_right hdvd 2
    · dsimp only
      rw [pow_succ]
      ring

/-- Renormalisation shifts as often as brings the range to 128 or more. -/
theorem Reads.shift {k fuel : Nat} (h : d.Reads (k + n) x) (hk : k ≤ fuel) (hlo : 128 ≤ d.range * 2 ^ k)
    (hhi : d.range * 2 ^ k ≤ 255) :
    (shift fuel d).Reads n x ∧ (BoolDecoder.shift fuel d).range = d.range * 2 ^ k := by
  induction k generalizing d fuel with
  | zero =>
    rw [pow_zero, Nat.mul_one] at hlo
    rw [Nat.zero_add] at h
    have hid : BoolDecoder.shift fuel d = d := by
      cases fuel with
      | zero => rfl
      | succ fuel => rw [shift_succ, if_neg (by omega)]
    rw [hid, pow_zero, Nat.mul_one]
    exact ⟨h, rfl⟩
  | succ k ih =>
    obtain ⟨fuel, rfl⟩ : ∃ f, fuel = f + 1 := ⟨fuel - 1, by omega⟩
    have hrange : d.shiftOne.range * 2 ^ k = d.range * 2 ^ (k + 1) := by
      rw [shiftOne_range, pow_succ']
      ring
    have hlt : d.range < 128 := by
      have := Nat.le_mul_of_pos_right d.shiftOne.range (show 0 < 2 ^ k by positivity)
      rw [shiftOne_range] at this hrange
      omega
    rw [shift_succ, if_pos hlt, ← hrange]
    rw [Nat.add_right_comm] at h
    exact ih h.shiftOne (by omega) (by omega) (by omega)

/-! ## One bit -/

/-- DecodeBit returns the coded bit and leaves the window above the new low end. -/
theorem decodeBit_reads {r : Nat} {bit : Bool} {p : Byte} (hr : 0 < r) (hr' : r ≤ 254) (hd : d.range = r + 1)
    (h : d.Reads (shiftOf r (bit, p) + n) x)
    (hbit : bit = true ↔ (r * p.toNat / 256 + 1) * 2 ^ (8 + (shiftOf r (bit, p) + n)) ≤ x) :
    (d.decodeBit p).1 = bit ∧
      (d.decodeBit p).2.Reads n (x - lowStep r (bit, p) * 2 ^ (8 + (shiftOf r (bit, p) + n))) ∧
      (d.decodeBit p).2.range = nextRange r (bit, p) + 1 := by
  have hnext := nextRange_succ r (bit, p)
  obtain ⟨hlo, hhi⟩ := nextRange_bounds (bit, p) hr hr'
  have hshift := shiftOf_le r (bit, p)
  have hsplit : 1 + (d.range - 1) * p.toNat / 256 = r * p.toNat / 256 + 1 := by
    rw [hd, Nat.add_sub_cancel, Nat.add_comm]
  have hlt := split_lt p hr
  rw [← h.split_le_iff] at hbit
  unfold decodeBit
  rw [hsplit]
  cases bit with
  | true =>
    have hle := hbit.mp rfl
    have hrange : narrowedRange r (true, p) + 1 = d.range - (r * p.toNat / 256 + 1) := by
      rw [hd, narrowedRange]
      simp only [if_true]
      omega
    rw [hrange] at hnext
    obtain ⟨hreads, hrange'⟩ := (h.sub hle (d.range - (r * p.toNat / 256 + 1))).shift hshift
      (show 128 ≤ (d.range - (r * p.toNat / 256 + 1)) * _ by omega)
      (show (d.range - (r * p.toNat / 256 + 1)) * _ ≤ 255 by omega)
    simp only [if_pos hle]
    exact ⟨trivial, hreads, hrange'.trans hnext.symm⟩
  | false =>
    have hnot : ¬ (r * p.toNat / 256 + 1) * 256 ≤ d.value := fun hle => nomatch hbit.mpr hle
    have hrange : narrowedRange r (false, p) + 1 = r * p.toNat / 256 + 1 := rfl
    rw [hrange] at hnext
    obtain ⟨hreads, hrange'⟩ := (h.withRange (r * p.toNat / 256 + 1)).shift hshift
      (show 128 ≤ (r * p.toNat / 256 + 1) * _ by omega) (show (r * p.toNat / 256 + 1) * _ ≤ 255 by omega)
    have hlow : lowStep r (false, p) = 0 := rfl
    simp only [if_neg hnot, hlow, Nat.zero_mul, Nat.sub_zero]
    exact ⟨trivial, hreads, hrange'.trans hnext.symm⟩

end BoolDecoder

/-! ## All bits -/

/-- A number in the interval of the coded decisions decodes to their bits. -/
theorem decodeAll_of_interval {d : BoolDecoder} {r n x : Nat} (hr : 0 < r) (hr' : r ≤ 254) (hd : d.range = r + 1)
    (ds : List CodedBit) (h : d.Reads (totalShift r ds + n) x) (hlow : exactLow 0 r ds * 2 ^ (8 + n) ≤ x)
    (hhigh : x < (exactLow 0 r ds + exactRange r ds + 1) * 2 ^ (8 + n)) :
    BoolDecoder.decodeAll (ds.map Prod.snd) d = ds.map Prod.fst := by
  induction ds generalizing d r x with
  | nil => rfl
  | cons c ds ih =>
    obtain ⟨bit, p⟩ := c
    obtain ⟨hlo, hhi⟩ := nextRange_bounds (bit, p) hr hr'
    have hnext := nextRange_succ r (bit, p)
    have hinside := exactLow_add_exactRange_le (r := nextRange r (bit, p)) (by omega) (by omega) ds
    obtain ⟨S, hS⟩ : ∃ S, S = 2 ^ (8 + (shiftOf r (bit, p) + (totalShift (nextRange r (bit, p)) ds + n))) := ⟨_, rfl⟩
    have hscale (a : Nat) :
        a * 2 ^ (shiftOf r (bit, p) + totalShift (nextRange r (bit, p)) ds) * 2 ^ (8 + n) = a * S := by
      rw [hS, Nat.mul_assoc, ← pow_add]
      congr 2
      omega
    have htop : (exactLow 0 (nextRange r (bit, p)) ds + exactRange (nextRange r (bit, p)) ds + 1) * 2 ^ (8 + n) ≤
        (narrowedRange r (bit, p) + 1) * S := by
      rw [← hscale, pow_add 2 (shiftOf r (bit, p)), ← Nat.mul_assoc, ← hnext]
      exact Nat.mul_le_mul_right _ hinside
    rw [exactLow_cons_zero, Nat.add_mul, hscale] at hlow
    rw [exactLow_cons_zero, exactRange, Nat.add_assoc, Nat.add_assoc, Nat.add_mul, hscale, ← Nat.add_assoc] at hhigh
    rw [totalShift_cons, Nat.add_assoc] at h
    have hbit : bit = true ↔ (r * p.toNat / 256 + 1) * S ≤ x := by
      cases bit with
      | true =>
        have hstep : lowStep r (true, p) = r * p.toNat / 256 + 1 := rfl
        rw [hstep] at hlow
        exact iff_of_true rfl (by omega)
      | false =>
        have hstep : lowStep r (false, p) = 0 := rfl
        have hnarrowed : narrowedRange r (false, p) = r * p.toNat / 256 := rfl
        rw [hstep] at hhigh
        rw [hnarrowed] at htop
        exact iff_of_false nofun (by omega)
    obtain ⟨hfirst, hreads, hrange⟩ := BoolDecoder.decodeBit_reads hr hr' hd h (hS ▸ hbit)
    rw [List.map_cons, List.map_cons, BoolDecoder.decodeAll, hfirst]
    rw [← hS] at hreads
    exact congrArg _ (ih (by omega) (by omega) hrange hreads (by omega) (by omega))

/-! ## The stream BW_FINISH leaves -/

section
variable {P : Params} {tick : Nat} {b b' : Bw}

/-- A rest below 512 that completes a multiple of 512 is 0. -/
theorem settled_of_multiple {settled value low : Nat} (h : settled * 2 ^ 9 + value = low * 2 ^ 9) (hv : value < 512) :
    settled * 256 + value / 256 = low * 2 ^ 8 := by
  have hsettled : settled = low := by omega
  have hvalue : value = 0 := by omega
  norm_num [hsettled, hvalue]

/-- BW_FINISH writes the low end of the interval: the padding clears all bits below the last byte. -/
theorem finishBw_number (hP : P.outCap ≤ 2 ^ 28) (hok : b.ok) (hout : b.outOk) (hst : b.st = .writing)
    (hr : b.range.toNat ≤ 253) (hrun : b.run.toNat + 3 < 2 ^ 32) (h : finishBw P tick b = .ok b') :
    b'.pos.toNat = b.pos.toNat + b.run.toNat + 3 ∧
      bytesNumber b'.out b'.pos.toNat = b.codeNumber * 2 ^ (8 - b.nbits.toInt).toNat := by
  have hn := hok.nbits_nonpos
  rcases finishBw_spec hP hok hr hrun (tick := tick) with ⟨p, hpad, hneed, hroom, hfinish⟩ | ⟨info, -, -, herr⟩
  · obtain rfl := Except.ok.inj (hfinish.symm.trans h)
    have hcode := encodeBits_codeNumber hP hok hout hst (by rw [flushCount_padding hok hr]; omega) hpad.coded
    have hpout := encodeBits_outOk hP hok hout hpad.coded
    have hvalue := hpad.value_lt
    have hpow : (9 - b.nbits.toInt).toNat = (-b.nbits.toInt).toNat + 9 := by omega
    have hpow' : (8 - b.nbits.toInt).toNat = (-b.nbits.toInt).toNat + 8 := by omega
    rw [exactLow_padBits, totalShift_padding hok hr, hpow, pow_add, ← Nat.mul_assoc, Bw.codeNumber_eq,
      hpad.nbits] at hcode
    rw [closeBw_bytesNumber hP hpad.ok hpout (hpad.st.trans hst) (by unfold flushNeed at hroom; omega) hvalue hroom,
      hpow', pow_add, ← Nat.mul_assoc]
    refine ⟨(closeBw_pos hP hroom).trans hneed, ?_⟩
    exact settled_of_multiple hcode hvalue
  · cases herr.symm.trans h

/-- What was coded from BW_INIT on: the writer is in bounds, its number is the low end of the exact interval, and it
has counted every bit shifted. Fewer than 2^31 decisions cannot make BW.RUN wrap. -/
theorem initBw_coded (hP : P.outCap ≤ 2 ^ 28) {ds : List CodedBit} (hlen : ds.length < 2 ^ 31)
    (h : encodeBits P tick ds (initBw b) = .ok b') :
    b'.ok ∧ b'.outOk ∧ b'.st = .writing ∧ b'.codeNumber = exactLow 0 254 ds ∧
      8 * ((b'.pos.toNat : Int) + b'.run.toNat) + b'.nbits.toInt = totalShift 254 ds - 8 := by
  have hok := initBw_ok b
  have hout := initBw_outOk b
  have hpos0 : (initBw b).pos.toNat = 0 := rfl
  have hrun0 : (initBw b).run.toNat = 0 := rfl
  have hrange0 : (initBw b).range.toNat = 254 := rfl
  have hfits : (initBw b).run.toNat +
      flushCount (initBw b).nbits.toInt (totalShift (initBw b).range.toNat ds) < 2 ^ 32 := by
    have htotal := totalShift_le 254 ds
    rw [hrun0, hrange0, initBw_nbits]
    unfold flushCount
    omega
  have hcode := encodeBits_codeNumber hP hok hout rfl hfits h
  rw [hrange0, initBw_codeNumber] at hcode
  rcases encodeBits_spec hP ds hok (tick := tick) hfits with ⟨b₁, hb₁, hok₁, hst₁, -, hpos⟩ | ⟨info, herr, -⟩
  · obtain rfl := Except.ok.inj (hb₁.symm.trans h)
    rw [hpos0, hrun0, hrange0, initBw_nbits] at hpos
    exact ⟨hok₁, encodeBits_outOk hP hok hout h, hst₁, hcode, by omega⟩
  · cases herr.symm.trans h

end

/-- Settles O27: the decisions leave an interval whose low end BW_FINISH writes, and a number in the interval decodes
to them. -/
theorem decoderReadsBackWhatWasCoded : Obligations.DecoderReadsBackWhatWasCoded := by
  intro P tick ds b b₁ b₂ hP hlen hcoded hfinish
  rcases ds with _ | ⟨d, ds⟩
  · rfl
  have htotal := totalShift_le 254 (d :: ds)
  have hr : b₁.range.toNat ≤ 253 := encodeBits_cons_range_le hP (initBw_ok b) hcoded
  obtain ⟨hok, hout, hst, hcode, hpos⟩ := initBw_coded hP hlen hcoded
  have hge := hok.inBounds.nbits_ge
  have hle := hok.nbits_nonpos
  obtain ⟨hpos₂, hnumber⟩ := finishBw_number hP hok hout hst hr (by omega) hfinish
  have hexp : (8 - b₁.nbits.toInt).toNat = 8 + (-b₁.nbits.toInt).toNat := by omega
  rw [hcode, hexp, ← Bw.bytesValue_stream] at hnumber
  have hlength := b₂.stream_length
  have hreads := BoolDecoder.init_reads (l := b₂.stream) (by omega)
  have hleft : 8 * (b₂.stream.length - 2) = totalShift 254 (d :: ds) + (-b₁.nbits.toInt).toNat := by omega
  rw [hleft] at hreads
  refine decodeAll_of_interval (by norm_num) le_rfl rfl _ hreads hnumber.ge ?_
  rw [hnumber]
  exact Nat.mul_lt_mul_of_pos_right (by omega) (by positivity)

end Sys2Proof.Machine
end

section
/-! PROOF. The iterator's preconditions and the non-zero flags (O30, O32, O39, O40, O41). Every iterator command but
MI_RESET checks its macroblock first, MI_IMPORT and MI_EXPORT the size of the grid next. -/
namespace Sys2Proof.Machine

variable {P : Params} {s : State}

/-! ## Preconditions -/

theorem checkMb_bind {α : Type} (h : s.hasMacroblock) (k : Unit → Except Raise α) : checkMb s >>= k = k () := by
  rw [checkMb_of_hasMacroblock h]
  rfl

theorem checkMb_bind_of_not {α : Type} (h : ¬ s.hasMacroblock) (k : Unit → Except Raise α) :
    checkMb s >>= k = .error ⟨.noMacroblock, s.mi.countdown.toNat⟩ :=
  Except.bind_error.mpr (.inl (checkMb_of_not h))

/-- Settles O30: the body of each of the nine commands begins with CheckMB. -/
theorem noMacroblockFaults : Obligations.NoMacroblockFaults := by
  intro i s hs hm hi
  simp only [List.mem_cons, List.not_mem_nil, or_false] at hi
  have hsoft : i ≠ .softReset := by
    rintro rfl
    simp at hi
  refine exec_of_precise hsoft hs ?_ rfl
  rcases hi with rfl | rfl | rfl | rfl | rfl | rfl | rfl | rfl | rfl <;> exact checkMb_bind_of_not hm _

/-- The detail of INVALID_DIMENSIONS as rule R700 writes it: the two halves do not overlap. -/
theorem dimensionsInfo_eq_or (c : Cfg) : dimensionsInfo c = c.width.toNat ||| c.height.toNat <<< 16 := by
  rw [Nat.or_comm, ← Nat.shiftLeft_add_eq_or_of_lt c.width.isLt, Nat.shiftLeft_eq, dimensionsInfo, Nat.add_comm]

theorem geometry_bind_of_mismatch {α : Type}
    (h : mbCount s.cfg.width ≠ s.mi.mbw.toNat ∨ mbCount s.cfg.height ≠ s.mi.mbh.toNat)
    (k : Geometry → Except Raise α) :
    geometry s >>= k = .error ⟨.invalidDimensions, dimensionsInfo s.cfg⟩ := by
  rw [geometry_bind, if_pos h]

/-- Settles O32: MI_RESET checks the size first, MI_IMPORT and MI_EXPORT after their macroblock. -/
theorem badDimensionsFault : Obligations.BadDimensionsFault := by
  intro s hs mbw mbh info
  have hinfo : info = dimensionsInfo s.cfg := (dimensionsInfo_eq_or s.cfg).symm
  rw [hinfo]
  refine ⟨fun h => exec_of_precise nofun hs (if_pos h) rfl, fun hm h => ⟨?_, ?_⟩⟩
  · exact exec_of_precise nofun hs ((checkMb_bind hm _).trans (geometry_bind_of_mismatch h _)) rfl
  · exact exec_of_precise nofun hs ((checkMb_bind hm _).trans (geometry_bind_of_mismatch h _)) rfl

/-! ## MI_NZ_TO_FLAGS -/

/-- Writing the images of a list's elements at their positions: an element below the list's length holds the image,
the others are as before. -/
theorem cellGet_cellSetAll_mapIdx {α : Type} (m : Cells α) (bs : List Nat) (f : Nat → α) (j : Nat) :
    cellGet (cellSetAll m (bs.mapIdx fun i b => (i, f b))) j =
      if j < bs.length then some (f (bs.getD j 0)) else cellGet m j := by
  split_ifs with hj
  · refine cellGet_cellSetAll_of_forall m _ (fun i => f (bs.getD i 0)) j (fun c hc => ?_)
      ⟨_, List.mem_mapIdx.mpr ⟨j, hj, rfl⟩, rfl⟩
    obtain ⟨i, hi, rfl⟩ := List.mem_mapIdx.mp hc
    simp [hi]
  · refine cellGet_cellSetAll_other m _ j fun c hc => ?_
    obtain ⟨i, hi, rfl⟩ := List.mem_mapIdx.mp hc
    exact fun he => hj (he ▸ hi)

theorem cellGet_nzToFlags_top (P : Params) (s : State) (j : Nat) :
    cellGet (nzToFlags P s).top j =
      if j < 9 then some (BitVec.ofBool ((nzAt P s s.mi.x.toNat).getLsbD (topNzBits.getD j 0)))
      else cellGet s.mi.topNz j := by
  rw [ofBool_getLsbD]
  exact cellGet_cellSetAll_mapIdx s.mi.topNz topNzBits (flagBit _) j

theorem cellGet_nzToFlags_left (P : Params) (s : State) (j : Nat) :
    cellGet (nzToFlags P s).left j =
      if j < 8 then some (BitVec.ofBool ((nzLeftOf P s).getLsbD (leftNzBits.getD j 0)))
      else cellGet s.mi.leftNz j := by
  rw [ofBool_getLsbD]
  exact cellGet_cellSetAll_mapIdx s.mi.leftNz leftNzBits (flagBit _) j

/-- NZ[MI.X − 1], the column compared as a word. -/
theorem nzLeftOf_eq (P : Params) (s : State) :
    nzLeftOf P s = if s.mi.x = 0 then 0 else nzAt P s (s.mi.x.toNat - 1) :=
  if_congr (by rw [← BitVec.toNat_inj]; rfl) rfl rfl

/-- Settles O39: LEFT_NZ[8] is no element of the list that loads LEFT_NZ. -/
theorem miNzToFlagsUnpacks : Obligations.MiNzToFlagsUnpacks := by
  intro s hs hm
  refine ⟨_, exec_of_ok nofun hs (checkMb_bind hm _), rfl, fun j hj => ?_, fun j hj => ?_,
    fun j hj => ⟨?_, fun h8 => ?_⟩⟩
  · exact (cellGet_nzToFlags_top _ s j).trans (if_pos hj)
  · rw [← nzLeftOf_eq]
    exact (cellGet_nzToFlags_left _ s j).trans (if_pos hj)
  · exact (cellGet_nzToFlags_left _ s j).trans (if_neg (by omega))
  · exact (cellGet_nzToFlags_top _ s j).trans (if_neg (by omega))

/-! ## MI_FLAGS_TO_NZ -/

/-- A flag shifted to its bit of an NZ word. -/
theorem getLsbD_flag_shiftLeft (x : BitVec 1) (k : Nat) {b : Nat} (hb : b < 32) :
    (x.setWidth 32 <<< k).getLsbD b = (decide (b = k) && x.getLsbD 0) := by
  rcases lt_trichotomy b k with h | rfl | h
  · simp [h, h.ne]
  · simp [hb]
  · simp [h.ne', BitVec.getLsbD_of_ge x (b - k) (by omega)]

theorem getLsbD_foldl_or {w : Nat} (l : List (BitVec w)) (a : BitVec w) (b : Nat) :
    (l.foldl (· ||| ·) a).getLsbD b = (a.getLsbD b || l.any (·.getLsbD b)) := by
  induction l generalizing a with
  | nil => simp
  | cons x l ih => rw [List.foldl_cons, ih, BitVec.getLsbD_or, List.any_cons, Bool.or_assoc]

/-- The packed word bit by bit (rule R562). -/
theorem packNz_getLsbD (P : Params) (tick : Nat) (f : NzFlags) {b : Nat} (hb : b < 32) :
    (packNz P tick f).getLsbD b =
      nzBit (fun j => (topFlag P tick f j).getLsbD 0) (fun j => (leftFlag P tick f j).getLsbD 0) b := by
  rw [packNz, getLsbD_foldl_or]
  simp only [topNzBits, packedLeftBits, List.mapIdx_cons, List.mapIdx_nil, List.map_cons, List.map_nil,
    List.cons_append, List.nil_append, List.any_cons, List.any_nil, getLsbD_flag_shiftLeft _ _ hb]
  interval_cases b <;> simp [nzBit]

/-- Settles O40: NZ[MI.X] gets the packed word, whose bits `packNz_getLsbD` reads off. -/
theorem miFlagsToNzPacks : Obligations.MiFlagsToNzPacks := by
  intro s hs hm
  exact ⟨_, exec_of_ok nofun hs (checkMb_bind hm _), rfl,
    ⟨_, cellGet_cellSet_same _ _ _, fun b hb => packNz_getLsbD _ _ _ hb⟩,
    fun x hx => cellGet_cellSet_other _ _ hx⟩

/-! ## MI_SKIP_NZ -/

/-- Settles O41: past CheckMB the body is the case split of rule R563. -/
theorem miSkipNzUpdatesSummary : Obligations.MiSkipNzUpdatesSummary := by
  intro s hs hm
  refine exec_of_ok nofun hs ((checkMb_bind hm _).trans ?_)
  dsimp only
  split_ifs <;> rfl

end Sys2Proof.Machine
end

section
/-! PROOF. MI_RESET, MI_ADVANCE and the traversal of the grid (O31, O36, O37). The traversal is one induction over the
advances: the invariant of the iterator ties the position to the countdown (`traversed_advances`). -/
namespace Sys2Proof.Machine

variable {P : Params} {s t u : State}

/-! ## The left caches -/

/-- A left cache as InitLeft fills it (rule R522). -/
theorem cellGet_leftInit (m : Cells Byte) (corner v : Byte) (n k : Nat) :
    cellGet (cellFill (cellSet m 0 corner) 1 v n) k =
      if k = 0 then some corner else if k < n + 1 then some v else cellGet m k := by
  rw [cellGet_cellFill, cellGet_cellSet]
  split_ifs <;> first | rfl | omega

/-- The corner is 127 in row 0 and 129 below it. -/
theorem cellGet_leftInit_row (m : Cells Byte) (y : BitVec 16) {n k : Nat} (hk : k < n + 1) :
    cellGet (cellFill (cellSet m 0 (if 0 < y.toNat then neutralLeft else neutralTop)) 1 neutralLeft n) k =
      some (if k = 0 ∧ y = 0 then 127 else 129) := by
  have hy : 0 < y.toNat ↔ y ≠ 0 := by rw [Nat.pos_iff_ne_zero, Ne, Ne, ← BitVec.toNat_inj]; rfl
  rw [cellGet_leftInit, if_pos hk]
  by_cases h0 : k = 0
  · by_cases hy0 : y = 0 <;> simp [h0, hy0, hy, neutralLeft, neutralTop]
  · simp [h0, neutralLeft]

/-- The left caches and LEFT_NZ that InitLeft leaves: the corner is 127 in row 0 only (rule R522). -/
theorem initLeft_left (m : Mi) :
    (∀ k < 17, cellGet (initLeft m).yLeft k = some (if k = 0 ∧ m.y = 0 then 127 else 129)) ∧
      (∀ k < 9, cellGet (initLeft m).uLeft k = some (if k = 0 ∧ m.y = 0 then 127 else 129) ∧
        cellGet (initLeft m).vLeft k = some (if k = 0 ∧ m.y = 0 then 127 else 129)) ∧
      ∀ k, cellGet (initLeft m).leftNz k = if k = 8 then some 0 else cellGet m.leftNz k := by
  simp only [initLeft]
  exact ⟨fun _ hk => cellGet_leftInit_row _ _ hk,
    fun _ hk => ⟨cellGet_leftInit_row _ _ hk, cellGet_leftInit_row _ _ hk⟩, fun _ => cellGet_cellSet _ _ _ _⟩

/-! ## MI_RESET -/

/-- The iterator at the first macroblock of the grid that covers the configured size, nothing cleared yet. -/
def placedMi (c : Cfg) (m : Mi) : Mi :=
  { m with
    mbw := BitVec.ofNat 16 (mbCount c.width), mbh := BitVec.ofNat 16 (mbCount c.height), x := 0, y := 0
    countdown := BitVec.ofNat 32 (mbCount c.width * mbCount c.height) }

/-- The iterator as MI_RESET leaves it, for a size within the limits (rule R520). -/
def startedMi (c : Cfg) (m : Mi) : Mi :=
  { initLeft (initTop (placedMi c m)) with bitCount := List.replicate 12 0, valid := true }

theorem resetBody_eq (P : Params) (s : State) :
    resetBody P s =
      if s.cfg.width = 0 ∨ s.cfg.height = 0 ∨ P.maxMbW < mbCount s.cfg.width ∨ P.maxMbH < mbCount s.cfg.height then
        .error ⟨.invalidDimensions, dimensionsInfo s.cfg⟩
      else .ok (s.withMi (startedMi s.cfg s.mi)) := rfl

theorem startedMi_frame (c : Cfg) (m : Mi) : startedMi c m = { m with
    x := 0, y := 0, mbw := (startedMi c m).mbw, mbh := (startedMi c m).mbh, countdown := (startedMi c m).countdown
    valid := true, bitCount := List.replicate 12 0, yTop := (startedMi c m).yTop, uvTop := (startedMi c m).uvTop
    nz := (startedMi c m).nz, yLeft := (startedMi c m).yLeft, uLeft := (startedMi c m).uLeft
    vLeft := (startedMi c m).vLeft, leftNz := (startedMi c m).leftNz } := by
  rw [startedMi, initLeft_frame, initTop_frame, placedMi]

theorem mbCount_le (n : BitVec 16) : mbCount n ≤ 4096 := by
  unfold mbCount
  omega

theorem toNat_ofNat_mbCount (n : BitVec 16) : (BitVec.ofNat 16 (mbCount n)).toNat = mbCount n :=
  Nat.mod_eq_of_lt (by have := mbCount_le n; omega)

theorem startedMi_grid (c : Cfg) (m : Mi) :
    (startedMi c m).mbw.toNat = mbCount c.width ∧ (startedMi c m).mbh.toNat = mbCount c.height ∧
      (startedMi c m).countdown.toNat = mbCount c.width * mbCount c.height :=
  ⟨toNat_ofNat_mbCount _, toNat_ofNat_mbCount _,
    Nat.mod_eq_of_lt ((Nat.mul_le_mul (mbCount_le c.width) (mbCount_le c.height)).trans_lt (by norm_num))⟩

/-- The top caches and summaries of the grid, and what lies beyond it (rule R521). -/
theorem startedMi_top (c : Cfg) (m : Mi) :
    (∀ k, cellGet (startedMi c m).yTop k = if k < 16 * mbCount c.width then some 127 else cellGet m.yTop k) ∧
      (∀ k, cellGet (startedMi c m).uvTop k = if k < 16 * mbCount c.width then some 127 else cellGet m.uvTop k) ∧
      ∀ k, cellGet (startedMi c m).nz k = if k < mbCount c.width then some 0 else cellGet m.nz k := by
  simp only [startedMi, placedMi, initLeft, initTop, cellGet_cellFill, toNat_ofNat_mbCount, Nat.zero_le, true_and,
    Nat.zero_add, neutralTop, implies_true, and_self]

/-- The left caches and LEFT_NZ at the start of the grid (rule R522). -/
theorem startedMi_left (c : Cfg) (m : Mi) :
    cellGet (startedMi c m).yLeft 0 = some 127 ∧ cellGet (startedMi c m).uLeft 0 = some 127 ∧
      cellGet (startedMi c m).vLeft 0 = some 127 ∧ (∀ k < 16, cellGet (startedMi c m).yLeft (k + 1) = some 129) ∧
      (∀ k < 8, cellGet (startedMi c m).uLeft (k + 1) = some 129 ∧
        cellGet (startedMi c m).vLeft (k + 1) = some 129) ∧
      ∀ k, cellGet (startedMi c m).leftNz k = if k = 8 then some 0 else cellGet m.leftNz k := by
  have hy : (initTop (placedMi c m)).y = 0 := rfl
  obtain ⟨hluma, hchroma, hnz⟩ := initLeft_left (initTop (placedMi c m))
  simp only [hy, and_true] at hluma hchroma
  simp only [startedMi]
  refine ⟨?_, ?_, ?_, fun k hk => ?_, fun k hk => ?_, hnz⟩
  · rw [hluma 0 (by norm_num), if_pos rfl]
  · rw [(hchroma 0 (by norm_num)).1, if_pos rfl]
  · rw [(hchroma 0 (by norm_num)).2, if_pos rfl]
  · rw [hluma (k + 1) (by omega), if_neg k.succ_ne_zero]
  · rw [(hchroma (k + 1) (by omega)).1, (hchroma (k + 1) (by omega)).2, if_neg k.succ_ne_zero]
    exact ⟨rfl, rfl⟩

/-- Settles O31: within the limits MI_RESET leaves `startedMi`. -/
theorem miResetStartsGrid : Obligations.MiResetStartsGrid := by
  intro s hs mbw mbh hw hh hmw hmh
  have hbody : resetBody Config.params s = .ok (s.withMi (startedMi s.cfg s.mi)) := by
    rw [resetBody_eq, if_neg]
    simp only [not_or, not_lt]
    exact ⟨hw, hh, hmw, hmh⟩
  have hframe := startedMi_frame s.cfg s.mi
  obtain ⟨hyTop, huvTop, hnz⟩ := startedMi_top s.cfg s.mi
  obtain ⟨hmbw, hmbh, hcountdown⟩ := startedMi_grid s.cfg s.mi
  refine ⟨_, exec_of_ok nofun hs hbody, ?_⟩
  rw [State.withMi_mi]
  exact ⟨congrArg s.withMi hframe, hmbw, hmbh, hcountdown, hyTop, huvTop, hnz, startedMi_left s.cfg s.mi⟩

/-! ## MI_ADVANCE -/

theorem exec_miAdvance (hs : s.running) (hm : s.hasMacroblock) :
    exec .miAdvance s = .next (s.withMi (advanceMi s.mi)) :=
  exec_of_ok nofun hs (checkMb_bind hm _)

theorem advanceMi_grid (m : Mi) :
    (advanceMi m).valid = m.valid ∧ (advanceMi m).mbw = m.mbw ∧ (advanceMi m).mbh = m.mbh := by
  rw [advanceMi_frame]
  exact ⟨rfl, rfl, rfl⟩

theorem advanceMi_countdown (m : Mi) : (advanceMi m).countdown = m.countdown - 1 := rfl

theorem advanceMi_of_column {m : Mi} (h : m.x + 1 ≠ m.mbw) :
    advanceMi m = { m with x := m.x + 1, countdown := m.countdown - 1 } := by
  simp only [advanceMi, if_neg h]

/-- At the end of a row: to the start of the next one, through InitLeft. -/
theorem advanceMi_of_row {m : Mi} (h : m.x + 1 = m.mbw) :
    (advanceMi m).x = 0 ∧ (advanceMi m).y = m.y + 1 ∧
      (∀ k < 17, cellGet (advanceMi m).yLeft k = some (if k = 0 ∧ m.y + 1 = 0 then 127 else 129)) ∧
      (∀ k < 9, cellGet (advanceMi m).uLeft k = some (if k = 0 ∧ m.y + 1 = 0 then 127 else 129) ∧
        cellGet (advanceMi m).vLeft k = some (if k = 0 ∧ m.y + 1 = 0 then 127 else 129)) ∧
      ∀ k, cellGet (advanceMi m).leftNz k = if k = 8 then some 0 else cellGet m.leftNz k := by
  have hleft := initLeft_left { m with x := 0, y := m.y + 1 }
  simp only [advanceMi, if_pos h]
  exact ⟨rfl, rfl, hleft⟩

/-- Settles O36: the two cases of `advanceMi`, within a row and at its end. -/
theorem miAdvanceMovesOn : Obligations.MiAdvanceMovesOn := by
  intro s hs hm
  refine ⟨_, exec_miAdvance hs hm, ?_, ?_⟩
  · have hdone : s.mi.countdown - 1 = 0 ↔ s.mi.countdown = 1 := sub_eq_zero
    simp only [State.withMi_mi, miDone, (advanceMi_grid s.mi).1, hm.1, Bool.true_and, advanceMi_countdown, hdone]
  · by_cases h : s.mi.x + 1 = s.mi.mbw
    · obtain ⟨hx, hy, hleft⟩ := advanceMi_of_row h
      have hframe := advanceMi_frame s.mi
      rw [hx, hy, advanceMi_countdown] at hframe
      rw [if_neg (not_not.mpr h), State.withMi_mi]
      exact ⟨congrArg s.withMi hframe, hleft⟩
    · rw [if_pos h, advanceMi_of_column h]

/-! ## The traversal -/

/-- `u` stands `k` advances behind the start of `t`'s grid (rule R551): the invariant of the iterator, the grid of
`t`, and the macroblocks left. -/
structure Traversed (t : State) (k : Nat) (u : State) : Prop where
  running : u.running
  iteratorOk : u.iteratorOk
  valid : u.mi.valid = true
  mbw : u.mi.mbw = t.mi.mbw
  mbh : u.mi.mbh = t.mi.mbh
  left : u.mi.countdown.toNat + k = t.mi.mbw.toNat * t.mi.mbh.toNat

namespace Traversed
variable {k : Nat} (h : Traversed t k u)
include h

theorem hasMacroblock (hk : k < t.mi.mbw.toNat * t.mi.mbh.toNat) : u.hasMacroblock := by
  refine ⟨h.valid, fun h0 => ?_⟩
  have hleft := h.left
  rw [h0, BitVec.ofNat_eq_ofNat, BitVec.toNat_zero] at hleft
  omega

/-- MI_ADVANCE goes on in the traversal, as long as a macroblock is left. -/
theorem advance (hk : k < t.mi.mbw.toNat * t.mi.mbh.toNat) : Traversed t (k + 1) (u.withMi (advanceMi u.mi)) := by
  have hm := h.hasMacroblock hk
  obtain ⟨hvalid, hmbw, hmbh⟩ := advanceMi_grid u.mi
  have hok : advanceBody u = .ok (u.withMi (advanceMi u.mi)) := checkMb_bind hm _
  refine ⟨h.running, advanceBody_keeps_iteratorOk h.iteratorOk hok, hvalid.trans h.valid, hmbw.trans h.mbw,
    hmbh.trans h.mbh, ?_⟩
  have hleft := h.left
  have hcount : (u.mi.countdown - 1).toNat + 1 = u.mi.countdown.toNat := by
    have := hm.2
    bv_omega
  rw [State.withMi_mi, advanceMi_countdown]
  omega

/-- The position is the number of advances in raster order. -/
theorem position : u.mi.x.toNat = k % t.mi.mbw.toNat ∧ u.mi.y.toNat = k / t.mi.mbw.toNat := by
  obtain ⟨-, -, -, -, -, hx, hsum⟩ := h.iteratorOk h.valid
  rw [h.mbw] at hx hsum
  rw [h.mbh, ← h.left, Nat.add_assoc] at hsum
  have hk : u.mi.x.toNat + u.mi.y.toNat * t.mi.mbw.toNat = k := by
    rw [Nat.add_comm]
    exact Nat.add_left_cancel hsum
  rw [← hk, Nat.add_mul_mod_self_right, Nat.mod_eq_of_lt hx, Nat.add_mul_div_right _ _ (Nat.zero_lt_of_lt hx),
    Nat.div_eq_of_lt hx, Nat.zero_add]
  exact ⟨rfl, rfl⟩

end Traversed

/-- MI_RESET starts the traversal. -/
theorem traversed_of_miReset (hs : s.running) (h : exec .miReset s = .next t) (ht : t.running) : Traversed t 0 t := by
  rcases exec_cases h with ⟨hi, -⟩ | ⟨hf, -⟩ | ⟨-, -, hok⟩ | ⟨-, -, r, -, rfl⟩
  · cases hi
  · exact absurd (hf.symm.trans hs) nofun
  · have hiter := resetBody_keeps_iteratorOk hok
    obtain ⟨-, rfl⟩ := resetBody_ok hok
    obtain ⟨-, -, -, -, -, -, hsum⟩ := hiter rfl
    exact ⟨hs, hiter, rfl, rfl, rfl, by simpa [initLeft, initTop] using hsum⟩
  · cases ht

theorem traversed_advances (ht : Traversed t 0 t) {k : Nat} (hk : k ≤ t.mi.mbw.toNat * t.mi.mbh.toNat) :
    ∃ u, execAll (List.replicate k .miAdvance) t = some u ∧ Traversed t k u := by
  induction k with
  | zero => exact ⟨t, rfl, ht⟩
  | succ k ih =>
    obtain ⟨u, hu, htu⟩ := ih (Nat.le_of_succ_le hk)
    refine ⟨u.withMi (advanceMi u.mi), ?_, htu.advance hk⟩
    rw [List.replicate_succ', execAll_append, hu, Option.bind_some]
    exact (execAll_singleton _ _).mpr (exec_miAdvance htu.running (htu.hasMacroblock hk))

/-- Settles O37: at the k-th advance the position is k in raster order; after the last one no macroblock is left, and
the next advance faults as O30 says. -/
theorem advanceVisitsRasterOrder : Obligations.AdvanceVisitsRasterOrder := by
  intro s t hs hreset ht mbw mbh k hk
  obtain ⟨u, hu, htu⟩ := traversed_advances (traversed_of_miReset hs hreset ht) hk
  obtain ⟨hx, hy⟩ := htu.position
  refine ⟨u, hu, htu.running, ?_⟩
  split_ifs with hlt
  · exact ⟨hx, hy, by rw [miDone, decide_eq_false (htu.hasMacroblock hlt).2, Bool.and_false]⟩
  · obtain rfl : k = mbw * mbh := by omega
    have hmbw : 0 < mbw := by
      have := (htu.iteratorOk htu.valid).1
      rwa [htu.mbw] at this
    have hcount : u.mi.countdown = 0 := BitVec.eq_of_toNat_eq (by
      rw [BitVec.ofNat_eq_ofNat, BitVec.toNat_zero]
      exact Nat.add_eq_right.mp htu.left)
    have hfault := noMacroblockFaults .miAdvance u htu.running (fun hm => hm.2 hcount) (by simp)
    rw [hcount] at hfault
    refine ⟨BitVec.eq_of_toNat_eq ?_, BitVec.eq_of_toNat_eq ?_, hcount, by simp [miDone, htu.valid, hcount], hfault⟩
    · rw [hx, Nat.mul_mod_right]
      rfl
    · rw [hy, Nat.mul_div_cancel_left _ hmbw]

end Sys2Proof.Machine
end

section
/-! PROOF. The commands that move samples (O33, O34, O35): MI_IMPORT plane by plane into YUV_IN, MI_EXPORT to the
source memory, MI_SAVE_BOUNDARY into the caches. -/
namespace Sys2Proof.Machine

variable {P : Params} {s : State}

/-! ## The planes -/

/-- The plane of a component at the current macroblock: `n` samples of it a side, its first sample at row `n`·MI.Y and
column `n`·MI.X of the component. -/
def planeAt (s : State) (base stride : Word) (n col w h : Nat) : Plane :=
  { base := base + BitVec.ofNat 32 n * s.mi.y.setWidth 32 * stride + BitVec.ofNat 32 n * s.mi.x.setWidth 32
    stride := stride, col := col, w := w, h := h, size := n }

theorem planes_eq (s : State) (g : Geometry) :
    planes s g = [planeAt s s.cfg.yBase s.cfg.yStride 16 0 g.w g.h,
      planeAt s s.cfg.uBase s.cfg.uvStride 8 16 g.uvw g.uvh, planeAt s s.cfg.vBase s.cfg.uvStride 8 24 g.uvw g.uvh] :=
  rfl

/-- The address of a sample by its row and column in the component (rule R110). -/
theorem planeAt_addr (s : State) (base stride : Word) (n col w h i j : Nat) :
    (planeAt s base stride n col w h).addr i j =
      base + BitVec.ofNat 32 (n * s.mi.y.toNat + i) * stride + BitVec.ofNat 32 (n * s.mi.x.toNat + j) := by
  have hword (v : BitVec 16) : v.setWidth 32 = BitVec.ofNat 32 v.toNat := (BitVec.ofNat_toNat 32 v).symm
  simp only [planeAt, Plane.addr, hword, BitVec.ofNat_add, BitVec.ofNat_mul]
  ring

/-! ## The bodies on the grid -/

section
variable (hm : s.hasMacroblock) (hw : mbCount s.cfg.width = s.mi.mbw.toNat)
  (hh : mbCount s.cfg.height = s.mi.mbh.toNat)
include hm hw hh

theorem checkMb_geometry_bind {α : Type} (k : Geometry → Except Raise α) :
    (checkMb s >>= fun _ => geometry s >>= k) = k (geometryOf s) := by
  rw [checkMb_bind hm, geometry_bind, if_neg (not_or.mpr ⟨not_not.mpr hw, not_not.mpr hh⟩)]

theorem importBody_of_grid :
    importBody P s = srcCheck P ((planes s (geometryOf s)).flatMap Plane.addrs) >>= fun _ =>
      .ok (s.withMi { s.mi with yuvIn := importedSamples P s }) :=
  checkMb_geometry_bind hm hw hh _

theorem exportBody_of_grid :
    exportBody P s = srcCheck P ((planes s (geometryOf s)).flatMap Plane.addrs) >>= fun _ =>
      .ok (s.withSrc (srcWriteAll s.src (exportedBytes P s))) :=
  checkMb_geometry_bind hm hw hh _

end

/-- A command that checks a list of addresses and then completes in `t`: it does so if all may be accessed, else it
faults for the first one that may not (rule R504). -/
theorem exec_of_srcCheck {i : Instr} {t : State} {l : List Word} (hi : i ≠ .softReset) (hs : s.running)
    (hbody : bodyOf Config.params i s = srcCheck Config.params l >>= fun _ => .ok t) :
    ((∀ a ∈ l, Config.params.srcAdmit a = true) ∧ exec i s = .next t) ∨
      ((¬ ∀ a ∈ l, Config.params.srcAdmit a = true) ∧ ∃ pre a post, l = pre ++ a :: post ∧
        (∀ b ∈ pre, Config.params.srcAdmit b = true) ∧ Config.params.srcAdmit a = false ∧
        exec i s = .next (s.faultedBy (encode i) .srcBusError a.toNat)) := by
  rcases hc : srcCheck Config.params l with r | u
  · obtain ⟨pre, a, post, hl, hpre, ha, rfl⟩ := srcCheck_error hc
    rw [hc] at hbody
    refine .inr ⟨fun hall => ?_, pre, a, post, hl, hpre, ha, exec_of_precise hi hs hbody rfl⟩
    rw [srcCheck_ok_iff.mpr hall] at hc
    cases hc
  · rw [hc] at hbody
    exact .inl ⟨srcCheck_ok_iff.mp hc, exec_of_ok hi hs hbody⟩

/-! ## MI_IMPORT -/

theorem mem_grid_of_lt {h w i j : Nat} (hi : i < h) (hj : j < w) : (i, j) ∈ grid h w := by
  simp [grid, hi, hj]

/-- What ImportBlock writes of one plane: the index `k` stands for row `k / 32` and column `k % 32` (rule R531). -/
theorem cellGet_importWrites (P : Params) (s : State) (m : Cells Byte) {p : Plane} (hp : p.col + p.size ≤ 32)
    (k : Nat) :
    cellGet (cellSetAll m (importWrites P s p)) k =
      if k / 32 < p.size ∧ p.col ≤ k % 32 ∧ k % 32 < p.col + p.size then
        some (srcRead P s (p.addr (min (k / 32) (p.h - 1)) (min (k % 32 - p.col) (p.w - 1))))
      else cellGet m k := by
  split_ifs with hk
  · refine cellGet_cellSetAll_of_forall m _
      (fun k => srcRead P s (p.addr (min (k / 32) (p.h - 1)) (min (k % 32 - p.col) (p.w - 1)))) k (fun c hc => ?_)
      ⟨_, List.mem_map.mpr ⟨(k / 32, k % 32 - p.col), mem_grid_of_lt hk.1 (by omega), rfl⟩, ?_⟩
    · obtain ⟨⟨i, j⟩, hij, rfl⟩ := List.mem_map.mp hc
      obtain ⟨hi, hj⟩ := mem_grid hij
      have hrow : yuvIx i (p.col + j) / 32 = i := by unfold yuvIx; omega
      have hcol : yuvIx i (p.col + j) % 32 - p.col = j := by unfold yuvIx; omega
      simp only [hrow, hcol]
    · simp only [yuvIx]
      omega
  · refine cellGet_cellSetAll_other m _ k fun c hc he => hk ?_
    obtain ⟨⟨i, j⟩, hij, rfl⟩ := List.mem_map.mp hc
    obtain ⟨hi, hj⟩ := mem_grid hij
    simp only [yuvIx] at he
    omega

/-- Every element of YUV_IN after MI_IMPORT: the planes' blocks do not overlap. -/
theorem cellGet_importedSamples (P : Params) (s : State) (k : Nat) :
    cellGet (importedSamples P s) k =
      if k / 32 < 16 ∧ k % 32 < 16 then
        some (srcRead P s ((planeAt s s.cfg.yBase s.cfg.yStride 16 0 (geometryOf s).w (geometryOf s).h).addr
          (min (k / 32) ((geometryOf s).h - 1)) (min (k % 32) ((geometryOf s).w - 1))))
      else if k / 32 < 8 ∧ 16 ≤ k % 32 ∧ k % 32 < 24 then
        some (srcRead P s ((planeAt s s.cfg.uBase s.cfg.uvStride 8 16 (geometryOf s).uvw (geometryOf s).uvh).addr
          (min (k / 32) ((geometryOf s).uvh - 1)) (min (k % 32 - 16) ((geometryOf s).uvw - 1))))
      else if k / 32 < 8 ∧ 24 ≤ k % 32 then
        some (srcRead P s ((planeAt s s.cfg.vBase s.cfg.uvStride 8 24 (geometryOf s).uvw (geometryOf s).uvh).addr
          (min (k / 32) ((geometryOf s).uvh - 1)) (min (k % 32 - 24) ((geometryOf s).uvw - 1))))
      else cellGet s.mi.yuvIn k := by
  rw [importedSamples, planes_eq]
  simp only [List.flatMap_cons, List.flatMap_nil, List.append_nil, cellSetAll_append]
  rw [cellGet_importWrites P s _ (show 24 + 8 ≤ 32 by norm_num),
    cellGet_importWrites P s _ (show 16 + 8 ≤ 32 by norm_num),
    cellGet_importWrites P s _ (show 0 + 16 ≤ 32 by norm_num)]
  simp only [planeAt, Nat.zero_le, true_and, Nat.zero_add, Nat.sub_zero]
  split_ifs <;> first | rfl | omega

/-- Settles O33: row `i` and column `j` of a block stand at index 32·i + c0 + j of YUV_IN. -/
theorem miImportFillsBuffer : Obligations.MiImportFillsBuffer := by
  intro s hs hm x y w h uvw uvh reads sample hw hh _ _
  rcases exec_of_srcCheck (i := .miImport) nofun hs (importBody_of_grid hm hw hh) with
    ⟨hall, hexec⟩ | ⟨hnot, pre, a, post, hreads, hpre, ha, hexec⟩
  · have hsamples := cellGet_importedSamples Config.params s
    generalize importedSamples Config.params s = yuvIn at hexec hsamples
    refine ⟨_, hexec, ?_⟩
    rw [if_pos hall]
    refine ⟨rfl, fun i hi j hj => ?_, fun i hi j hj => ?_, fun i hi j hj => ?_, fun k hk => ?_⟩
    · have hrow : (32 * i + j) / 32 = i := by omega
      have hcol : (32 * i + j) % 32 = j := by omega
      rw [State.withMi_mi, hsamples, hrow, hcol, if_pos ⟨hi, hj⟩, planeAt_addr]
      rfl
    · have hrow : (32 * i + 16 + j) / 32 = i := by omega
      have hcol : (32 * i + 16 + j) % 32 = 16 + j := by omega
      rw [State.withMi_mi, hsamples, hrow, hcol, if_neg (by omega), if_pos (by omega),
        planeAt_addr, Nat.add_sub_cancel_left]
      rfl
    · have hrow : (32 * i + 24 + j) / 32 = i := by omega
      have hcol : (32 * i + 24 + j) % 32 = 24 + j := by omega
      rw [State.withMi_mi, hsamples, hrow, hcol, if_neg (by omega), if_neg (by omega), if_pos (by omega),
        planeAt_addr, Nat.add_sub_cancel_left]
      rfl
    · rw [State.withMi_mi, hsamples, if_neg (by omega), if_neg (by omega), if_neg (by omega)]
  · refine ⟨_, hexec, ?_⟩
    rw [if_neg hnot]
    exact ⟨pre, a, post, hreads, hpre, ha, rfl⟩

/-! ## MI_EXPORT -/

/-- The bytes of one plane, row by row (rule R540). -/
theorem exportWrites_planeAt (P : Params) (s : State) (base stride : Word) (n col w h : Nat) :
    exportWrites P s (planeAt s base stride n col w h) =
      (List.range h).flatMap fun i => (List.range w).map fun j =>
        (base + BitVec.ofNat 32 (n * s.mi.y.toNat + i) * stride + BitVec.ofNat 32 (n * s.mi.x.toNat + j),
          yuvOutAt P s i (col + j)) := by
  simp only [exportWrites, grid, List.map_flatMap, List.map_map, Function.comp_def, planeAt_addr]
  rfl

/-- MI_EXPORT checks the addresses it writes. -/
theorem exportedBytes_addrs (P : Params) (s : State) :
    (planes s (geometryOf s)).flatMap Plane.addrs = (exportedBytes P s).map Prod.fst := by
  simp only [exportedBytes, List.map_flatMap, exportWrites, List.map_map]
  rfl

/-- A listed write that no later one overwrites is in the source memory. -/
theorem cellGet_srcWriteAll_last (m : List Host.Cell) (pre post : List (Word × Byte)) (c : Word × Byte)
    (h : ∀ d ∈ post, d.1 ≠ c.1) : cellGet (srcWriteAll m (pre ++ c :: post)) c.1.toNat = some c.2 := by
  rw [srcWriteAll_append, srcWriteAll, cellGet_srcWriteAll_other, cellGet_cellSet_same]
  exact fun d hd he => h d hd (BitVec.eq_of_toNat_eq he)

/-- The bytes MI_EXPORT writes, plane by plane. -/
theorem exportedBytes_eq (P : Params) (s : State) :
    exportedBytes P s =
      exportWrites P s (planeAt s s.cfg.yBase s.cfg.yStride 16 0 (geometryOf s).w (geometryOf s).h) ++
        exportWrites P s (planeAt s s.cfg.uBase s.cfg.uvStride 8 16 (geometryOf s).uvw (geometryOf s).uvh) ++
        exportWrites P s (planeAt s s.cfg.vBase s.cfg.uvStride 8 24 (geometryOf s).uvw (geometryOf s).uvh) := by
  simp only [exportedBytes, planes_eq, List.flatMap_cons, List.flatMap_nil, List.append_nil, List.append_assoc]

/-- Settles O34: the list is that of the three planes; the addresses checked are those written, so the first one that
may not be accessed belongs to a listed write. -/
theorem miExportWritesPlanes : Obligations.MiExportWritesPlanes := by
  intro s hs hm x y w h writes plane hw hh
  have hwrites : writes = exportedBytes Config.params s := rfl
  have hbody := exportBody_of_grid (P := Config.params) hm hw hh
  rw [exportedBytes_addrs Config.params, ← hwrites] at hbody
  refine ⟨?_, ?_⟩
  · simp only [hwrites, exportedBytes_eq, exportWrites_planeAt]
    rfl
  · rcases exec_of_srcCheck (i := .miExport) nofun hs hbody with
      ⟨hall, hexec⟩ | ⟨hnot, pre, a, post, hsplit, hpre, ha, hexec⟩
    · refine ⟨_, hexec, ?_⟩
      rw [if_pos (List.forall_mem_map.mp hall), State.withSrc_src]
      refine ⟨rfl, fun pre c post hc hlast => ?_, fun a ha => cellGet_srcWriteAll_other _ _ a ha⟩
      rw [hc]
      exact cellGet_srcWriteAll_last _ pre post c hlast
    · refine ⟨_, hexec, ?_⟩
      rw [if_neg fun hall => hnot (List.forall_mem_map.mpr hall)]
      obtain ⟨pre', rest, hrest, rfl, hcons⟩ := List.map_eq_append_iff.mp hsplit
      obtain ⟨c, post', rfl, rfl, rfl⟩ := List.map_eq_cons_iff.mp hcons
      exact ⟨pre', c, post', hrest, List.forall_mem_map.mp hpre, ha, rfl⟩

/-! ## MI_SAVE_BOUNDARY -/

/-- A left cache as MI_SAVE_BOUNDARY fills it: the corner, then column `c` of the reconstruction. -/
theorem cellGet_leftFrom (P : Params) (s : State) (m : Cells Byte) (n c : Nat) (corner : Byte) :
    cellGet (leftFrom P s m n c corner) 0 = some corner ∧
      ∀ i < n, cellGet (leftFrom P s m n c corner) (i + 1) = some (yuvOutAt P s i c) := by
  have hcell (k : Nat) (hk : k < n + 1) :
      cellGet (leftFrom P s m n c corner) k = some (if k = 0 then corner else yuvOutAt P s (k - 1) c) := by
    refine cellGet_cellSetAll_of_forall m _ (fun k => if k = 0 then corner else yuvOutAt P s (k - 1) c) k (by simp) ?_
    cases k with
    | zero => exact ⟨_, List.mem_cons_self, rfl⟩
    | succ i =>
      have hi : i ∈ List.range n := List.mem_range.mpr (Nat.lt_of_succ_lt_succ hk)
      exact ⟨_, List.mem_cons_of_mem _ (List.mem_map.mpr ⟨i, hi, rfl⟩), rfl⟩
  exact ⟨hcell 0 n.succ_pos, fun i hi => hcell (i + 1) (Nat.succ_lt_succ hi)⟩

/-- A top cache after MI_SAVE_BOUNDARY: the elements from `k` on hold row `r` of the reconstruction. -/
theorem cellGet_topFrom (P : Params) (s : State) (m : Cells Byte) (k n r c j : Nat) :
    cellGet (topFrom P s m k n r c) j =
      if k ≤ j ∧ j < k + n then some (yuvOutAt P s r (c + (j - k))) else cellGet m j := by
  split_ifs with hj
  · refine cellGet_cellSetAll_of_forall m _ (fun j => yuvOutAt P s r (c + (j - k))) j (by simp)
      ⟨_, List.mem_map.mpr ⟨j - k, List.mem_range.mpr (by omega), rfl⟩, ?_⟩
    simp only
    omega
  · refine cellGet_cellSetAll_other m _ j fun w hw he => hj ?_
    obtain ⟨i, hi, rfl⟩ := List.mem_map.mp hw
    have := List.mem_range.mp hi
    simp only at he
    omega

theorem savedLeft_top (P : Params) (s : State) :
    (savedLeft P s).yTop = s.mi.yTop ∧ (savedLeft P s).uvTop = s.mi.uvTop := by
  rw [savedLeft_frame]
  exact ⟨rfl, rfl⟩

theorem savedTop_left (P : Params) (s : State) (m : Mi) :
    (savedTop P s m).yLeft = m.yLeft ∧ (savedTop P s m).uLeft = m.uLeft ∧ (savedTop P s m).vLeft = m.vLeft := by
  rw [savedTop_frame]
  exact ⟨rfl, rfl, rfl⟩

/-- The left caches with a macroblock to the right, and without one (rule R545). -/
theorem savedLeft_eq (P : Params) (s : State) :
    savedLeft P s =
      if s.mi.x.toNat + 1 < s.mi.mbw.toNat then
        { s.mi with
          yLeft := leftFrom P s s.mi.yLeft 16 15 (readCell P s.tick .yTop s.mi.yTop (16 * s.mi.x.toNat + 15))
          uLeft := leftFrom P s s.mi.uLeft 8 23 (readCell P s.tick .uvTop s.mi.uvTop (16 * s.mi.x.toNat + 7))
          vLeft := leftFrom P s s.mi.vLeft 8 31 (readCell P s.tick .uvTop s.mi.uvTop (16 * s.mi.x.toNat + 15)) }
      else s.mi := rfl

/-- The top caches with a row below, and without one (rule R545). -/
theorem savedTop_eq (P : Params) (s : State) (m : Mi) :
    savedTop P s m =
      if s.mi.y.toNat + 1 < s.mi.mbh.toNat then
        { m with
          yTop := topFrom P s m.yTop (16 * s.mi.x.toNat) 16 15 0
          uvTop := topFrom P s (topFrom P s m.uvTop (16 * s.mi.x.toNat) 8 7 16) (16 * s.mi.x.toNat + 8) 8 7 24 }
      else m := rfl

/-- Settles O35: the corners come from the top caches of before the command, which the left half does not change. -/
theorem miSaveBoundaryFillsCaches : Obligations.MiSaveBoundaryFillsCaches := by
  intro s hs hm
  obtain ⟨hyTop, huvTop⟩ := savedLeft_top Config.params s
  obtain ⟨hyLeft, huLeft, hvLeft⟩ := savedTop_left Config.params s (savedLeft Config.params s)
  refine ⟨s.withMi (savedTop Config.params s (savedLeft Config.params s)), exec_of_ok nofun hs (checkMb_bind hm _),
    congrArg s.withMi (savedTop_savedLeft_frame _ s), ?_, ?_⟩
  · rw [State.withMi_mi, hyLeft, huLeft, hvLeft, savedLeft_eq]
    split_ifs with hright
    · obtain ⟨hyCorner, hyColumn⟩ := cellGet_leftFrom Config.params s s.mi.yLeft 16 15
        (readCell Config.params s.tick .yTop s.mi.yTop (16 * s.mi.x.toNat + 15))
      obtain ⟨huCorner, huColumn⟩ := cellGet_leftFrom Config.params s s.mi.uLeft 8 23
        (readCell Config.params s.tick .uvTop s.mi.uvTop (16 * s.mi.x.toNat + 7))
      obtain ⟨hvCorner, hvColumn⟩ := cellGet_leftFrom Config.params s s.mi.vLeft 8 31
        (readCell Config.params s.tick .uvTop s.mi.uvTop (16 * s.mi.x.toNat + 15))
      dsimp only
      exact ⟨hyCorner, huCorner, hvCorner, hyColumn, fun i hi => ⟨huColumn i hi, hvColumn i hi⟩⟩
    · exact ⟨rfl, rfl, rfl⟩
  · rw [State.withMi_mi, savedTop_eq]
    split_ifs with hbelow
    · simp only [cellGet_topFrom, hyTop, huvTop]
      refine ⟨fun j hj => ?_, fun j hj => ⟨?_, ?_⟩, fun k hk => ⟨?_, ?_⟩⟩
      · rw [if_pos (by omega), Nat.add_sub_cancel_left, Nat.zero_add]
      · rw [if_neg (by omega), if_pos (by omega), Nat.add_sub_cancel_left]
      · rw [if_pos (by omega), Nat.add_sub_cancel_left]
      · rw [if_neg (by omega)]
      · rw [if_neg (by omega), if_neg (by omega)]
    · exact ⟨hyTop, huvTop⟩

end Sys2Proof.Machine
end

section
/-! PROOF. STATS and PROB: counting a decision, the bound on the ones of a cell, and the fit of RC_FINALIZE (O48, O53,
O51, O52). A counter pair has at most as many ones as decisions (`CountsOk`); counting keeps that, and RC_FINALIZE
needs it for its probability to fit into a byte. -/
namespace Sys2Proof.Machine

/-! ## Counting one decision -/

/-- The mask of rule R630 keeps the low 15 bits of each half. -/
theorem and_halfMask (n : Nat) : n &&& 0x7FFF7FFF = n / 65536 % 32768 * 65536 + n % 32768 := by
  have hhigh : (n &&& 0x7FFF7FFF) / 2 ^ 16 = n / 2 ^ 16 % 2 ^ 15 := by
    rw [Nat.and_div_two_pow]
    exact Nat.and_two_pow_sub_one_eq_mod _ 15
  have hlow : (n &&& 0x7FFF7FFF) % 2 ^ 16 = n % 2 ^ 16 % 2 ^ 15 := by
    rw [Nat.and_mod_two_pow]
    exact Nat.and_two_pow_sub_one_eq_mod _ 15
  omega

/-- Settles O48: halving the pair as one number moves the lowest bit of the total into the top bit of the ones, which
the mask clears; only 0xFFFF, 0xFFFF carries out of the ones. -/
theorem recordHalvesFullCounters : Obligations.RecordHalvesFullCounters := by
  intro p bit total ones hle kept
  have hp := p.isLt
  have hbit := bit.toNat_le
  have hthreshold : Config.params.halveThreshold = 0xFFFE0000 := rfl
  have hpair : kept.1 + 1 < 65536 ∧ kept.2 + bit.toNat < 65536 ∧
      (recordCount Config.params p bit).toNat = (kept.1 + 1) * 65536 + (kept.2 + bit.toNat) := by
    simp only [recordCount, hthreshold, and_halfMask, BitVec.toNat_ofNat, Nat.shiftRight_eq_div_pow]
    dsimp only [kept, total, ones] at hle ⊢
    split_ifs <;> dsimp only <;> omega
  omega

/-! ## The ones of a cell -/

/-- A counter pair has at most as many ones as decisions (rule R630). -/
def CountsOk (w : BitVec 32) : Prop := w.toNat % 65536 ≤ w.toNat / 65536

theorem CountsOk.zero : CountsOk 0 := Nat.le_refl 0

/-- Counting keeps a cell in order. Halving rounds the ones up and the total down, but a full counter has an even total
or fewer ones than its total. -/
theorem CountsOk.recordCount {w : BitVec 32} (h : CountsOk w) (bit : Bool) :
    CountsOk (recordCount Config.params w bit) := by
  obtain ⟨htotal, hones⟩ := recordHalvesFullCounters w bit h
  have hw := w.isLt
  have hbit := bit.toNat_le
  unfold CountsOk at h ⊢
  rw [htotal, hones]
  split_ifs <;> dsimp only <;> omega

/-- Every cell of STATS is in order: `State.statsOk` for the residual coder alone. -/
def Rc.StatsOk (r : Rc) : Prop := ∀ w ∈ r.stats, CountsOk w

variable {r r' : Rc}

theorem Rc.StatsOk.statsAt (h : r.StatsOk) (i : Nat) : CountsOk (statsAt r i) := by
  unfold Machine.statsAt
  by_cases hi : i < r.stats.length
  · rw [List.getD_eq_getElem _ _ hi]
    exact h _ (List.getElem_mem hi)
  · rw [List.getD_eq_default _ _ (not_lt.mp hi)]
    exact .zero

theorem Rc.StatsOk.congr (h : r.StatsOk) (hstats : r'.stats = r.stats) : r'.StatsOk := by
  unfold Rc.StatsOk
  rwa [hstats]

theorem Rc.StatsOk.recordDecisions (h : r.StatsOk) (ds : List Decision) :
    (recordDecisions Config.params ds r).StatsOk := by
  induction ds generalizing r with
  | nil => exact h
  | cons d ds ih =>
    cases d with
    | cell bit ix =>
      refine ih fun w hw => ?_
      rcases List.mem_or_eq_of_mem_set hw with hw | rfl
      · exact h w hw
      · exact (h.statsAt ix).recordCount bit
    | fixed bit p => exact ih h
    | sign bit => exact ih h

theorem Rc.StatsOk.of_zeros {n : Nat} (h : r.stats = List.replicate n 0) : r.StatsOk := by
  intro w hw
  rw [h] at hw
  rw [List.eq_of_mem_replicate hw]
  exact .zero

/-- The commands that write STATS record decisions or clear it; `State.withWritesOf` says that the others do not write
it. -/
theorem body_keeps_statsOk {i : Instr} {s t : State} (hsoft : i ≠ .softReset) (hs : s.rc.StatsOk)
    (h : bodyOf Config.params i s = .ok t) : t.rc.StatsOk := by
  have hwrites := body_eq_withWritesOf h
  cases i with
  | softReset => exact absurd rfl hsoft
  | rcRecordBlock slot ty ctx =>
    obtain ⟨-, rfl⟩ := recordBlockBody_ok h
    exact (hs.recordDecisions _).congr rfl
  | rcRecordMb =>
    obtain ⟨-, -, rfl⟩ := recordMbBody_ok h
    exact (hs.recordDecisions _).congr rfl
  | rcResetStats =>
    cases h
    exact .of_zeros rfl
  | _ =>
    rw [hwrites]
    exact hs.congr rfl

theorem hostAccess_keeps_statsOk {s : State} (hs : s.rc.StatsOk) (e : HostEvent) :
    (hostAccess Config.params e s).rc.StatsOk := by
  cases e with
  | read a n => rw [hostAccess, hostRead_eq]; exact hs
  | write a n v =>
    rw [hostAccess]
    rcases hostWrite_cases (P := Config.params) (a := a) (n := n) (v := v) (s := s) with h | ⟨e, -, h⟩
    · rw [h]; exact hs
    · rw [writeElem_frame h]; exact hs.congr rfl
  | srcRead a => exact hs
  | srcWrite a v => exact hs
  | hardReset => exact .of_zeros rfl

/-- Settles O53: counting a decision keeps each cell in order, and a reset clears it. -/
theorem stepKeepsStatsOk : Obligations.StepKeepsStatsOk := by
  intro s t hs h
  refine step_keeps (I := fun s => s.rc.StatsOk) (fun _ _ hI => hI) ?_ ?_ ?_ hs h
  · exact fun i s t hsoft hI hok => body_keeps_statsOk hsoft hI hok
  · exact fun sp w r s hI => hI.congr (by rw [takeFault_rc])
  · exact fun e s hI => hostAccess_keeps_statsOk hI e

/-! ## Clearing and loading whole tables -/

/-- Settles O51: all 1056 cells get the same value, or the value of their index. -/
theorem statsResetAndDefaultLoad : Obligations.StatsResetAndDefaultLoad := by
  intro s hs
  refine ⟨⟨_, exec_of_ok nofun hs rfl, body_eq_withWritesOf (i := .rcResetStats) rfl, List.length_replicate,
      fun i hi => ?_⟩,
    ⟨_, exec_of_ok nofun hs rfl, body_eq_withWritesOf (i := .rcLoadDefault) rfl, ?_, fun i hi => ?_⟩⟩
  · exact List.getD_replicate _ hi
  · simp [loadDefault, numCells]
  · simp [probAt, loadDefault, numCells, hi, Config.params]

/-! ## RC_FINALIZE -/

/-- The fitted probability is a byte: its subtrahend is at most 255 for ones at most the total (rule R640). -/
theorem fittedProb_toNat {nb total : Nat} (h : nb ≤ total) :
    (fittedProb nb total).toNat = if nb = 0 then 255 else 255 - nb * 255 / total := by
  unfold fittedProb
  split_ifs with h0
  · rfl
  · have hq : nb * 255 / total ≤ 255 := Nat.div_le_of_le_mul (by omega)
    generalize nb * 255 / total = q at hq
    rw [BitVec.toNat_ofInt]
    omega

section
variable (P : Params) (r : Rc) (i : Nat)

/-- The cell takes the fitted probability: that is cheaper than its default, with the flag and its 8 bits counted
(rule R640). -/
def takesFit : Bool :=
  let nb := (statsAt r i).toNat % 65536
  let total := (statsAt r i).toNat / 65536
  decide (branchCost P nb total (fittedProb nb total) + P.bitCost true (P.updateProb i) + 2048 <
    branchCost P nb total (P.defaultProb i) + P.bitCost false (P.updateProb i))

theorem fitCell_eq : fitCell P r i =
    if takesFit P r i then
      { prob := fittedProb ((statsAt r i).toNat % 65536) ((statsAt r i).toNat / 65536)
        size := P.bitCost true (P.updateProb i) + 2048
        dirty := decide
          (fittedProb ((statsAt r i).toNat % 65536) ((statsAt r i).toNat / 65536) ≠ P.defaultProb i) }
    else { prob := P.defaultProb i, size := P.bitCost false (P.updateProb i), dirty := false } := by
  simp only [fitCell, takesFit, decide_eq_true_eq]

end

/-- Settles O52: `fitCell_eq` for each cell, with the fitted byte read as a number and the costs moved to the sides of
rule R641. -/
theorem rcFinalizeFitsCells : Obligations.RcFinalizeFitsCells := by
  intro s hs hstats total ones fitted cost flag use
  have hfitted (i : Nat) : (fittedProb (ones i) (total i)).toNat = fitted i :=
    fittedProb_toNat (Rc.StatsOk.statsAt (r := s.rc) hstats i)
  have hofNat (i : Nat) : BitVec.ofNat 8 (fitted i) = fittedProb (ones i) (total i) := by
    rw [← hfitted, BitVec.ofNat_toNat, BitVec.setWidth_eq]
  have hsides (a b c d : Int) : 2048 + (a - b) < c - d ↔ d + a + 2048 < c + b := by omega
  have huse (i : Nat) : use i = takesFit Config.params s.rc i := by
    refine decide_eq_decide.mpr ?_
    rw [hofNat]
    exact hsides _ _ _ _
  refine ⟨_, exec_of_ok nofun hs rfl, body_eq_withWritesOf (i := .rcFinalize) rfl, ?_, fun i hi => ?_, ?_, ?_⟩
  · simp [finalize, numCells]
  · have hprob : probAt (finalize Config.params s.rc) i = (fitCell Config.params s.rc i).prob := by
      simp [probAt, finalize, numCells, hi]
    rw [State.withRc_rc, hprob, fitCell_eq, huse]
    split_ifs
    · exact hfitted i
    · rfl
  · have hsize (i : Nat) : (fitCell Config.params s.rc i).size = flag i (use i) + if use i then 2048 else 0 := by
      rw [fitCell_eq, huse]
      cases takesFit Config.params s.rc i <;> rfl
    simp only [State.withRc_rc, finalize, List.map_map, ← hsize]
    rfl
  · have hdirty (i : Nat) : (fitCell Config.params s.rc i).dirty = true ↔
        use i = true ∧ fitted i ≠ (Config.defaultCoeffProbs i).toNat := by
      have hne : fitted i ≠ (Config.defaultCoeffProbs i).toNat ↔
          fittedProb (ones i) (total i) ≠ Config.defaultCoeffProbs i := by
        rw [← hfitted]
        exact BitVec.toNat_inj.not
      rw [fitCell_eq, huse, hne]
      cases takesFit Config.params s.rc i with
      | false => simp
      | true =>
        rw [if_pos rfl, decide_eq_true_eq, eq_self_iff_true, true_and]
        rfl
    simp only [State.withRc_rc, finalize, List.any_map, List.any_eq_true, List.mem_range, Function.comp_apply, hdirty]
    rfl

end Sys2Proof.Machine
end

section
/-! PROOF. The walk over a block (O44, O42, O43). `magnitudeDecisions_eq` reads the decisions on a magnitude off the
tables of rule R604 and rule R605; the loop is followed position by position, once against the token table
(`eob_walkFrom_eq_tokens`) and once against a second block (`walkFrom_injective`). -/
namespace Sys2Proof.Machine

/-! ## LAST -/

theorem lastNonzero_cons_of_nonneg {xs : List Int} (x : Int) (h : 0 ≤ lastNonzero xs) :
    lastNonzero (x :: xs) = lastNonzero xs + 1 := if_pos h

theorem lastNonzero_cons_of_neg {xs : List Int} (x : Int) (h : lastNonzero xs < 0) :
    lastNonzero (x :: xs) = if x ≠ 0 then 0 else -1 := if_neg (not_le.mpr h)

/-- LAST is not negative exactly where some coefficient is not 0 (rule R603). -/
theorem lastNonzero_nonneg_iff (xs : List Int) : 0 ≤ lastNonzero xs ↔ ∃ c ∈ xs, c ≠ 0 := by
  induction xs with
  | nil => simp [lastNonzero]
  | cons x xs ih =>
    rw [List.exists_mem_cons_iff, ← ih]
    rcases le_or_gt 0 (lastNonzero xs) with h | h
    · rw [lastNonzero_cons_of_nonneg x h]
      simp only [h, or_true, iff_true]
      omega
    · rw [lastNonzero_cons_of_neg x h]
      split_ifs with hx <;> simp [hx, h]

/-- LAST is the position of a coefficient that is not 0. -/
theorem lastNonzero_spec {xs : List Int} (h : 0 ≤ lastNonzero xs) :
    ∃ k : Nat, lastNonzero xs = k ∧ k < xs.length ∧ xs.getD k 0 ≠ 0 := by
  induction xs with
  | nil => cases h
  | cons x xs ih =>
    rcases le_or_gt 0 (lastNonzero xs) with htail | htail
    · obtain ⟨k, hk, hlt, hne⟩ := ih htail
      refine ⟨k + 1, ?_, Nat.succ_lt_succ hlt, hne⟩
      rw [lastNonzero_cons_of_nonneg x htail, hk]
      rfl
    · rw [lastNonzero_cons_of_neg x htail] at h ⊢
      split_ifs at h ⊢ with hx
      · exact ⟨0, rfl, Nat.succ_pos _, hx⟩
      · cases h

/-- Walk's result, stated over the coefficients (rule R608). -/
theorem blockFlag_eq_any (xs : List Int) : blockFlag xs = xs.any fun c => c ≠ 0 := by
  rw [blockFlag, Bool.eq_iff_iff, decide_eq_true_eq, lastNonzero_nonneg_iff]
  simp

/-! ## The decisions on a magnitude -/

theorem mem_extraBits {ps : List Byte} {e : Nat} {d : Decision} (h : d ∈ extraBits ps e) :
    ∃ bit p, d = .fixed bit p := by
  induction ps with
  | nil => cases h
  | cons p ps ih =>
    rcases List.mem_cons.mp h with rfl | h
    · exact ⟨_, _, rfl⟩
    · exact ih h

theorem extraBits_length (ps : List Byte) (e : Nat) : (extraBits ps e).length = ps.length := by
  induction ps with
  | nil => rfl
  | cons p ps ih => rw [extraBits, List.length_cons, ih, List.length_cons]

/-- Each probability of a category has its bit of the number, the last one bit 0 (rule R605). -/
theorem extraBits_eq_map (ps : List Byte) (e : Nat) : extraBits ps e =
    (ps.mapIdx fun i p => (e.testBit (ps.length - 1 - i), p)).map fun d => .fixed d.1 d.2 := by
  induction ps with
  | nil => rfl
  | cons p ps ih =>
    rw [extraBits, ih, List.mapIdx_cons]
    simp [Nat.sub_add_eq, Nat.sub_right_comm]

/-- The category of a magnitude above 10 (rule R605). -/
theorem exists_category {v : Nat} (h : 11 ≤ v) (hmax : v ≤ 2114) :
    ∃ k ∈ categories, 11 ≤ k.base ∧ k.base ≤ v ∧ v ≤ k.last := by
  simp only [categories, List.exists_mem_cons_iff, List.not_mem_nil, false_and, exists_false, or_false]
  omega

/-- The decisions on a magnitude above 10: its path through the nodes of rule R604, then its extra bits. -/
theorem magnitudeDecisions_of_category (cell : Nat → Nat) {v : Nat} {k : Category} (hk : k ∈ categories)
    (hlarge : 11 ≤ k.base) (h : k.base ≤ v) (h' : v ≤ k.last) :
    magnitudeDecisions cell v =
      .cell true (cell 2) :: .cell true (cell 3) :: .cell true (cell 6) :: .cell (decide (35 ≤ v)) (cell 8) ::
        (if v ≤ 34 then .cell (decide (19 ≤ v)) (cell 9) else .cell (decide (67 ≤ v)) (cell 10)) ::
          extraBits k.probs (v - k.base) := by
  rw [magnitudeDecisions, if_neg (by omega), if_neg (by omega), if_neg (by omega)]
  simp only [categories, List.mem_cons, List.not_mem_nil, or_false] at hk
  unfold categoryDecisions
  rcases hk with rfl | rfl | rfl | rfl | rfl | rfl <;> dsimp only at hlarge h h'
  · omega
  · omega
  · rw [if_pos (by omega), if_pos (by omega), decide_eq_false (by omega), decide_eq_false (by omega)]
    rfl
  · rw [if_neg (by omega), if_pos (by omega), if_pos (by omega), decide_eq_false (by omega),
      decide_eq_true (by omega)]
    rfl
  · rw [if_neg (by omega), if_neg (by omega), if_pos (by omega), if_neg (by omega), decide_eq_true (by omega),
      decide_eq_false (by omega)]
    rfl
  · rw [if_neg (by omega), if_neg (by omega), if_neg (by omega), if_neg (by omega), decide_eq_true (by omega),
      decide_eq_true (by omega)]
    rfl

/-- The rows of rule R604 that ask about a magnitude above 10. -/
theorem tokenNodes_of_large {v : Nat} (h : 11 ≤ v) : tokenNodes v =
    (2, true) :: (3, true) :: (6, true) :: (8, decide (35 ≤ v)) ::
      if v ≤ 34 then [(9, decide (19 ≤ v))] else [(10, decide (67 ≤ v))] := by
  simp only [tokenNodes, List.filterMap_cons, List.filterMap_nil, decide_eq_true_eq, show v ≠ 0 by omega,
    show 1 < v by omega, show 2 ≤ v by omega, show 4 < v by omega, show ¬ v ≤ 4 by omega, show 5 ≤ v by omega,
    show 10 < v by omega, show ¬ v ≤ 10 by omega, h, show 35 ≤ v ↔ ¬ v ≤ 34 by omega, ne_eq, not_false_eq_true,
    and_false, true_and, if_false, if_true, decide_true]
  split_ifs <;> rfl

/-- The categories do not overlap, so the one that holds the magnitude is the one found. -/
theorem categoryBits_of_mem {v : Nat} {k : Category} (hk : k ∈ categories) (h : k.base ≤ v) (h' : v ≤ k.last) :
    categoryBits v = k.probs.mapIdx fun i p => ((v - k.base).testBit (k.probs.length - 1 - i), p) := by
  have hrise : categories.Pairwise fun a b => a.last < b.base := by decide
  have hfind : categories.find? (fun c => decide (c.base ≤ v ∧ v ≤ c.last)) = some k := by
    obtain ⟨pre, post, hsplit⟩ := List.append_of_mem hk
    rw [hsplit, List.pairwise_append] at hrise
    obtain ⟨-, -, hpre⟩ := hrise
    refine List.find?_eq_some_iff_append.mpr ⟨by simp [h, h'], pre, post, hsplit, fun a ha => ?_⟩
    have := hpre a ha k (by simp)
    simp
    omega
  rw [categoryBits, hfind]

/-- A count of the extra bits passes over the table decisions and counts all the bits of the category. -/
theorem filter_extraBits {f : Decision → Bool} (hf : ∀ bit p, f (.fixed bit p) = true) (ps : List Byte) (e : Nat) :
    (extraBits ps e).filter f = extraBits ps e := by
  refine List.filter_eq_self.mpr fun d hd => ?_
  obtain ⟨bit, p, rfl⟩ := mem_extraBits hd
  exact hf bit p

/-- Settles O44: below 11 each magnitude is looked at; above, only the extra bits of its category have fixed
probabilities. -/
theorem extraBitCounts : Obligations.ExtraBitCounts := by
  intro cell v h1 hmax
  rcases Nat.lt_or_ge v 11 with hsmall | hlarge
  · interval_cases v <;> rfl
  · obtain ⟨k, hk, hbase, hge, hle⟩ := exists_category hlarge hmax
    have hcount : k.probs.length = if v ≤ 4 then 0 else if v ≤ 6 then 1 else if v ≤ 10 then 2
        else if v ≤ 18 then 3 else if v ≤ 34 then 4 else if v ≤ 66 then 5 else 11 := by
      rw [if_neg (by omega), if_neg (by omega), if_neg (by omega)]
      simp only [categories, List.mem_cons, List.not_mem_nil, or_false] at hk
      rcases hk with rfl | rfl | rfl | rfl | rfl | rfl <;> dsimp [List.length] at hbase hge hle ⊢ <;> split_ifs <;>
        omega
    rw [magnitudeDecisions_of_category cell hk hbase hge hle, ← hcount, ← extraBits_length k.probs (v - k.base)]
    split_ifs <;> exact congrArg List.length (filter_extraBits (by intros; rfl) _ _)

/-- The decisions on a magnitude are the rows of rule R604 that ask about it and the extra bits of rule R605. -/
theorem magnitudeDecisions_eq (cell : Nat → Nat) {v : Nat} (h1 : 1 ≤ v) (hmax : v ≤ 2114) :
    magnitudeDecisions cell v =
      (tokenNodes v).map (fun k => .cell k.2 (cell k.1)) ++ (categoryBits v).map fun d => .fixed d.1 d.2 := by
  rcases Nat.lt_or_ge v 11 with hsmall | hlarge
  · interval_cases v <;> rfl
  · obtain ⟨k, hk, hbase, hge, hle⟩ := exists_category hlarge hmax
    rw [magnitudeDecisions_of_category cell hk hbase hge hle, tokenNodes_of_large hlarge,
      categoryBits_of_mem hk hge hle, extraBits_eq_map]
    split_ifs <;> rfl

/-! ## The loop -/

section
variable {t ctx n b c : Nat} {last : Int} {x : Int} {rest : List Int}

theorem walkFrom_cons_zero : walkFrom t last (0 :: rest) n b c =
    .cell false (cellIx t b c 1) :: walkFrom t last rest (n + 1) (band (n + 1)) 0 := if_pos rfl

/-- A coefficient that is not 0, with the next context read as its size class (rule R606). -/
theorem walkFrom_cons_of_ne (hx : x ≠ 0) : walkFrom t last (x :: rest) n b c =
    .cell true (cellIx t b c 1) :: (magnitudeDecisions (cellIx t b c) x.natAbs ++ .sign (decide (x < 0)) ::
      if n + 1 = 16 then []
      else if (n : Int) + 1 ≤ last then
        .cell true (cellIx t (band (n + 1)) (min x.natAbs 2) 0) ::
          walkFrom t last rest (n + 1) (band (n + 1)) (min x.natAbs 2)
      else [.cell false (cellIx t (band (n + 1)) (min x.natAbs 2) 0)]) := by
  have hclass : (if 1 < x.natAbs then 2 else 1) = min x.natAbs 2 := by split_ifs <;> omega
  rw [walkFrom, if_neg hx, hclass]

theorem walkFrom_head? : (walkFrom t last (x :: rest) n b c).head? =
    some (.cell (decide (x ≠ 0)) (cellIx t b c 1)) := by
  by_cases hx : x = 0
  · subst hx
    rw [walkFrom_cons_zero]
    rfl
  · rw [walkFrom_cons_of_ne hx, decide_eq_true hx]
    rfl

end

/-! ## The walk against the token table -/

section
variable (t ctx : Nat) (coefs : List Int) (n : Nat)

/-- The EOB of a token: asked at the first position and behind a coefficient that is not 0 (rule R604). -/
def eobAt : List Decision :=
  if n = firstPos t ∨ coefs.getD (n - 1) 0 ≠ 0 then [.cell true (cellAt t ctx coefs n 0)] else []

/-- A token behind its EOB: ZERO, and the magnitude and sign of a coefficient that is not 0. -/
def valueAt : List Decision :=
  .cell (decide (coefs.getD n 0 ≠ 0)) (cellAt t ctx coefs n 1) ::
    if coefs.getD n 0 = 0 then []
    else
      (tokenNodes (coefs.getD n 0).natAbs).map (fun k => .cell k.2 (cellAt t ctx coefs n k.1)) ++
        (categoryBits (coefs.getD n 0).natAbs).map (fun d => .fixed d.1 d.2) ++
          [.sign (decide (coefs.getD n 0 < 0))]

theorem tokenAt_eq : tokenAt t ctx coefs n = eobAt t ctx coefs n ++ valueAt t ctx coefs n := rfl

variable {t ctx coefs n}

theorem natAbs_getD_le {m : Nat} (hmax : ∀ c ∈ coefs, c.natAbs ≤ m) (n : Nat) : (coefs.getD n 0).natAbs ≤ m := by
  by_cases hn : n < coefs.length
  · rw [List.getD_eq_getElem _ _ hn]
    exact hmax _ (List.getElem_mem hn)
  · rw [List.getD_eq_default _ _ (not_lt.mp hn)]
    exact Nat.zero_le _

theorem eobAt_succ_of_zero (hfirst : firstPos t ≤ n) (h : coefs.getD n 0 = 0) : eobAt t ctx coefs (n + 1) = [] := by
  rw [eobAt, Nat.add_sub_cancel, if_neg]
  rintro (hn | hne)
  · omega
  · exact hne h

theorem eobAt_succ_of_ne (h : coefs.getD n 0 ≠ 0) :
    eobAt t ctx coefs (n + 1) = [.cell true (cellAt t ctx coefs (n + 1) 0)] := by
  rw [eobAt, Nat.add_sub_cancel, if_pos (.inr h)]

theorem contextAt_succ (hfirst : firstPos t ≤ n) :
    contextAt t ctx coefs (n + 1) = min (coefs.getD n 0).natAbs 2 := if_neg (by omega)

theorem cellAt_succ (hfirst : firstPos t ≤ n) (k : Nat) :
    cellAt t ctx coefs (n + 1) k = cellIx t (band (n + 1)) (min (coefs.getD n 0).natAbs 2) k := by
  rw [cellAt, contextAt_succ hfirst]

theorem valueAt_of_zero (h : coefs.getD n 0 = 0) :
    valueAt t ctx coefs n = [.cell false (cellAt t ctx coefs n 1)] := by
  rw [valueAt, if_pos h, decide_eq_false (not_not.mpr h)]

theorem valueAt_of_ne (h : coefs.getD n 0 ≠ 0) (hmax : (coefs.getD n 0).natAbs ≤ 2114) :
    valueAt t ctx coefs n =
      .cell true (cellAt t ctx coefs n 1) ::
        (magnitudeDecisions (cellAt t ctx coefs n) (coefs.getD n 0).natAbs ++
          [.sign (decide (coefs.getD n 0 < 0))]) := by
  rw [valueAt, if_neg h, decide_eq_true h, magnitudeDecisions_eq _ (by omega) hmax]

/-- One turn of the loop makes the decisions of one token behind its EOB; the EOB of the next token comes with it, or
the closing one. -/
theorem walkFrom_drop {last : Nat} (hlen : coefs.length = 16) (hlast : last < 16) (hfirst : firstPos t ≤ n)
    (hn : n ≤ last) (hx : coefs.getD last 0 ≠ 0) (hmax : (coefs.getD n 0).natAbs ≤ 2114) :
    walkFrom t last (coefs.drop n) n (band n) (contextAt t ctx coefs n) =
      valueAt t ctx coefs n ++
        if n < last then
          eobAt t ctx coefs (n + 1) ++
            walkFrom t last (coefs.drop (n + 1)) (n + 1) (band (n + 1)) (contextAt t ctx coefs (n + 1))
        else if n + 1 < 16 then [.cell false (cellAt t ctx coefs (n + 1) 0)] else [] := by
  have hdrop : coefs.drop n = coefs.getD n 0 :: coefs.drop (n + 1) := by
    rw [List.getD_eq_getElem _ _ (by omega), List.drop_eq_getElem_cons]
  rw [hdrop, contextAt_succ hfirst, cellAt_succ hfirst]
  by_cases hzero : coefs.getD n 0 = 0
  · have hlt : n < last := lt_of_le_of_ne hn fun h => hx (h ▸ hzero)
    rw [valueAt_of_zero hzero, eobAt_succ_of_zero hfirst hzero, if_pos hlt, hzero, walkFrom_cons_zero]
    rfl
  · have hnext : (n : Int) + 1 ≤ last ↔ n < last := by omega
    rw [valueAt_of_ne hzero hmax, eobAt_succ_of_ne hzero, cellAt_succ hfirst, walkFrom_cons_of_ne hzero,
      List.cons_append, List.append_assoc]
    simp only [hnext]
    rcases hn.lt_or_eq with hlt | rfl
    · rw [if_neg (by omega), if_pos hlt, if_pos hlt]
      rfl
    · rw [if_neg (lt_irrefl n), if_neg (lt_irrefl n)]
      split_ifs
      · omega
      · rfl
      · rfl
      · omega

/-- The loop from position `n` on, with the EOB that led there, makes the decisions of the tokens from `n` to LAST(C)
and the closing EOB: induction over the positions left. -/
theorem eob_walkFrom_eq_tokens {last : Nat} (hlen : coefs.length = 16) (hlast : last < 16)
    (hx : coefs.getD last 0 ≠ 0) (hmax : ∀ c ∈ coefs, c.natAbs ≤ 2114) (k : Nat) (hfirst : firstPos t ≤ n)
    (hk : n + k = last) :
    eobAt t ctx coefs n ++ walkFrom t last (coefs.drop n) n (band n) (contextAt t ctx coefs n) =
      (List.range' n (k + 1)).flatMap (tokenAt t ctx coefs) ++
        if last + 1 < 16 then [.cell false (cellAt t ctx coefs (last + 1) 0)] else [] := by
  induction k generalizing n with
  | zero =>
    obtain rfl : n = last := hk
    rw [walkFrom_drop hlen hlast hfirst le_rfl hx (natAbs_getD_le hmax n), if_neg (lt_irrefl n), ← List.append_assoc]
    simp [tokenAt_eq]
  | succ k ih =>
    rw [List.range'_succ, List.flatMap_cons, tokenAt_eq,
      walkFrom_drop hlen hlast hfirst (by omega) hx (natAbs_getD_le hmax n), if_pos (by omega),
      ih (by omega) (by omega)]
    simp only [List.append_assoc]

end

theorem firstPos_le_one (t : Nat) : firstPos t ≤ 1 := by
  unfold firstPos
  split_ifs <;> omega

theorem band_firstPos (t : Nat) : band (firstPos t) = firstPos t := by
  unfold firstPos
  split_ifs <;> rfl

/-- LAST(C) of a block that may be coded is not below its first position: type 0 has no coefficient at position 0. -/
theorem firstPos_le_last {t last : Nat} {coefs : List Int} (h : t = 0 → coefs.head? = some 0)
    (hx : coefs.getD last 0 ≠ 0) : firstPos t ≤ last := by
  unfold firstPos
  split_ifs with ht
  · refine Nat.one_le_iff_ne_zero.mpr fun h0 => hx ?_
    rw [h0, List.getD_eq_getElem?_getD, ← List.head?_eq_getElem?, h ht]
    rfl
  · exact Nat.zero_le _

/-- Settles O42: a block of zeros is its closing EOB; any other starts with an EOB and goes through the loop. -/
theorem walkFollowsTokenTable : Obligations.WalkFollowsTokenTable := by
  intro t ctx coefs _ hlen ⟨hmax, hfirst0⟩
  have hctx : contextAt t ctx coefs (firstPos t) = ctx := if_pos rfl
  have hfirst := firstPos_le_one t
  unfold walk tokens blockFlag
  dsimp only
  rcases lt_or_ge (lastNonzero coefs) 0 with hneg | hnonneg
  · have hpast : max (lastNonzero coefs + 1).toNat (firstPos t) = firstPos t := by omega
    rw [decide_eq_false (not_le.mpr hneg), hpast, if_pos (show firstPos t < 16 by omega), Nat.sub_self, cellAt, hctx,
      band_firstPos]
    rfl
  · obtain ⟨last, hlast, hlt, hx⟩ := lastNonzero_spec hnonneg
    have hle := firstPos_le_last hfirst0 hx
    have heob : eobAt t ctx coefs (firstPos t) = [.cell true (cellIx t (firstPos t) ctx 0)] := by
      rw [eobAt, if_pos (.inl rfl), cellAt, hctx, band_firstPos]
    have hpast : max ((last : Int) + 1).toNat (firstPos t) = last + 1 := by omega
    have hloop := eob_walkFrom_eq_tokens (n := firstPos t) (ctx := ctx) hlen (hlen ▸ hlt) hx hmax
      (last - firstPos t) le_rfl (by omega)
    rw [heob, hctx, band_firstPos] at hloop
    rw [decide_eq_true hnonneg, hlast, hpast, Nat.sub_add_comm hle, ← hloop]
    rfl

/-! ## Reading a magnitude back -/

/-- The answer of a decision. -/
def Decision.answer : Decision → Bool
  | .cell bit _ => bit
  | .fixed bit _ => bit
  | .sign bit => bit

/-- The answers of the listed decisions behind the bits of `acc`, most significant first, as a number. -/
def answersNumber (acc : Nat) (ds : List Decision) : Nat := ds.foldl (fun n d => 2 * n + d.answer.toNat) acc

theorem answersNumber_extraBits (acc : Nat) (ps : List Byte) (e : Nat) :
    answersNumber acc (extraBits ps e) = acc * 2 ^ ps.length + e % 2 ^ ps.length := by
  induction ps generalizing acc with
  | nil => simp [answersNumber, extraBits, Nat.mod_one]
  | cons p ps ih =>
    have hbit : e % 2 ^ (ps.length + 1) = e % 2 ^ ps.length + 2 ^ ps.length * (e.testBit ps.length).toNat := by
      rw [Nat.mod_pow_succ, Nat.toNat_testBit]
    rw [extraBits, answersNumber, List.foldl_cons]
    change answersNumber (2 * acc + (e.testBit ps.length).toNat) (extraBits ps e) = _
    rw [ih, List.length_cons, hbit]
    ring

/-- The magnitude that decisions of `magnitudeDecisions` code. How many there are names its class, for each class
of rule R604 and rule R605 has a number of its own; the answers behind the class give the place inside it. -/
def magnitudeOf (ds : List Decision) : Nat :=
  match ds.length with
  | 1 => 1
  | 3 => 2
  | 4 => answersNumber 0 (ds.drop 3) + 3
  | 5 => answersNumber 0 (ds.drop 4) + 5
  | 6 => answersNumber 0 (ds.drop 4) + 7
  | 8 => answersNumber 0 (ds.drop 5) + 11
  | 9 => answersNumber 0 (ds.drop 5) + 19
  | 10 => answersNumber 0 (ds.drop 5) + 35
  | _ => answersNumber 0 (ds.drop 5) + 67

/-- No magnitude loses bits (rule R607). -/
theorem magnitudeOf_magnitudeDecisions (cell : Nat → Nat) {v : Nat} (h1 : 1 ≤ v) (hmax : v ≤ 2114) :
    magnitudeOf (magnitudeDecisions cell v) = v := by
  rcases Nat.lt_or_ge v 11 with hsmall | hlarge
  · interval_cases v <;> rfl
  · obtain ⟨k, hk, hbase, hge, hle⟩ := exists_category hlarge hmax
    have hfits : ∀ k ∈ categories, k.last - k.base < 2 ^ k.probs.length := by decide
    have hfits := hfits k hk
    have hplace : answersNumber 0 (extraBits k.probs (v - k.base)) = v - k.base := by
      rw [answersNumber_extraBits, Nat.mod_eq_of_lt (by omega), Nat.zero_mul, Nat.zero_add]
    have hclass : magnitudeOf (magnitudeDecisions cell v) =
        answersNumber 0 (extraBits k.probs (v - k.base)) + k.base := by
      rw [magnitudeDecisions_of_category cell hk hbase hge hle]
      simp only [categories, List.mem_cons, List.not_mem_nil, or_false] at hk
      rcases hk with rfl | rfl | rfl | rfl | rfl | rfl
      case inl | inr.inl => dsimp only at hbase; omega
      all_goals rfl
    rw [hclass, hplace, Nat.sub_add_cancel hge]

/-! ## The walk against a second block -/

/-- The decision is of a sign. -/
def Decision.isSign : Decision → Bool
  | .sign _ => true
  | .cell _ _ => false
  | .fixed _ _ => false

theorem isSign_of_mem_magnitudeDecisions {cell : Nat → Nat} {v : Nat} (h1 : 1 ≤ v) (hmax : v ≤ 2114) {d : Decision}
    (hd : d ∈ magnitudeDecisions cell v) : d.isSign = false := by
  rw [magnitudeDecisions_eq cell h1 hmax, List.mem_append, List.mem_map, List.mem_map] at hd
  rcases hd with ⟨k, -, rfl⟩ | ⟨k, -, rfl⟩ <;> rfl

/-- The decisions on a magnitude and its sign tell where they end: the sign is the first of its kind. -/
theorem magnitude_sign_injective {cell : Nat → Nat} {v w : Nat} {a b : Bool} {ds es : List Decision} (hv : 1 ≤ v)
    (hvmax : v ≤ 2114) (hw : 1 ≤ w) (hwmax : w ≤ 2114)
    (h : magnitudeDecisions cell v ++ .sign a :: ds = magnitudeDecisions cell w ++ .sign b :: es) :
    v = w ∧ a = b ∧ ds = es := by
  have hbehind {v : Nat} (a : Bool) (ds : List Decision) (hv : 1 ≤ v) (hvmax : v ≤ 2114) :
      (magnitudeDecisions cell v ++ .sign a :: ds).takeWhile (fun d => !d.isSign) = magnitudeDecisions cell v := by
    rw [List.takeWhile_append_of_pos fun d hd => by rw [isSign_of_mem_magnitudeDecisions hv hvmax hd]; rfl]
    exact List.append_nil _
  have hmag : magnitudeDecisions cell v = magnitudeDecisions cell w := by
    rw [← hbehind a ds hv hvmax, h, hbehind b es hw hwmax]
  have hvw : v = w := by
    rw [← magnitudeOf_magnitudeDecisions cell hv hvmax, hmag, magnitudeOf_magnitudeDecisions cell hw hwmax]
  rw [hmag] at h
  obtain ⟨hsign, hrest⟩ := List.cons.inj (List.append_cancel_left h)
  exact ⟨hvw, Decision.sign.inj hsign, hrest⟩

/-- `xs` are the coefficients from position `n` on of a block that may be coded, with one that is not 0 among them;
`last` is LAST of the block. -/
structure TailTo (n : Nat) (last : Int) (xs : List Int) : Prop where
  length : n + xs.length = 16
  natAbs_le : ∀ c ∈ xs, c.natAbs ≤ 2114
  nonneg : 0 ≤ lastNonzero xs
  last_eq : last = n + lastNonzero xs

section
variable {n : Nat} {last : Int} {x : Int} {xs : List Int}

theorem TailTo.head_le (h : TailTo n last (x :: xs)) : x.natAbs ≤ 2114 := h.natAbs_le x List.mem_cons_self

theorem TailTo.tail_nonneg_iff (h : TailTo n last (x :: xs)) : (n : Int) + 1 ≤ last ↔ 0 ≤ lastNonzero xs := by
  rw [h.last_eq]
  rcases le_or_gt 0 (lastNonzero xs) with htail | htail
  · rw [lastNonzero_cons_of_nonneg x htail]
    omega
  · rw [lastNonzero_cons_of_neg x htail]
    split_ifs <;> omega

theorem TailTo.tail (h : TailTo n last (x :: xs)) (htail : 0 ≤ lastNonzero xs) : TailTo (n + 1) last xs where
  length := by
    have := h.length
    rw [List.length_cons] at this
    omega
  natAbs_le := fun c hc => h.natAbs_le c (List.mem_cons_of_mem x hc)
  nonneg := htail
  last_eq := by
    rw [h.last_eq, lastNonzero_cons_of_nonneg x htail]
    omega

theorem TailTo.tail_of_zero (h : TailTo n last (0 :: xs)) : TailTo (n + 1) last xs := by
  refine h.tail ?_
  by_contra htail
  have := h.nonneg
  rw [lastNonzero_cons_of_neg 0 (not_le.mp htail), if_neg (by simp)] at this
  cases this

end

/-- Without a coefficient that is not 0 only the length is left. -/
theorem eq_of_lastNonzero_neg {xs ys : List Int} (hlen : xs.length = ys.length) (hx : ¬ 0 ≤ lastNonzero xs)
    (hy : ¬ 0 ≤ lastNonzero ys) : xs = ys := by
  rw [lastNonzero_nonneg_iff] at hx hy
  push Not at hx hy
  rw [List.eq_replicate_of_mem hx, List.eq_replicate_of_mem hy, hlen]

/-- The loop's decisions determine the coefficients it runs over. -/
theorem walkFrom_injective {t n b c : Nat} {lastX lastY : Int} {xs ys : List Int} (hx : TailTo n lastX xs)
    (hy : TailTo n lastY ys) (h : walkFrom t lastX xs n b c = walkFrom t lastY ys n b c) : xs = ys := by
  induction xs generalizing ys n b c with
  | nil => cases hx.nonneg
  | cons x xs ih =>
    cases ys with
    | nil => cases hy.nonneg
    | cons y ys =>
      have hlx := hx.length
      have hly := hy.length
      rw [List.length_cons] at hlx hly
      have hhead := congrArg List.head? h
      rw [walkFrom_head?, walkFrom_head?, Option.some.injEq, Decision.cell.injEq, decide_eq_decide] at hhead
      by_cases hx0 : x = 0
      · obtain rfl := hx0
        obtain rfl : y = 0 := by tauto
        rw [walkFrom_cons_zero, walkFrom_cons_zero] at h
        rw [ih hx.tail_of_zero hy.tail_of_zero (List.cons.inj h).2]
      · have hy0 : y ≠ 0 := hhead.1.mp hx0
        rw [walkFrom_cons_of_ne hx0, walkFrom_cons_of_ne hy0] at h
        obtain ⟨habs, hsign, hrest⟩ := magnitude_sign_injective (by omega) hx.head_le (by omega) hy.head_le
          (List.cons.inj h).2
        rw [decide_eq_decide] at hsign
        obtain rfl : x = y := by omega
        simp only [hx.tail_nonneg_iff, hy.tail_nonneg_iff] at hrest
        congr 1
        split_ifs at hrest with hend htx hty hty
        · rw [List.eq_nil_of_length_eq_zero (l := xs) (by omega), List.eq_nil_of_length_eq_zero (l := ys) (by omega)]
        · exact ih (hx.tail htx) (hy.tail hty) (List.cons.inj hrest).2
        · cases (List.cons.inj hrest).1
        · cases (List.cons.inj hrest).1
        · exact eq_of_lastNonzero_neg (by omega) htx hty

/-- A block that may be coded, from its first position on: for type 0 the 0 at position 0 is left out. -/
theorem tailTo_of_blockLegal {t : Nat} {coefs : List Int} (hlen : coefs.length = 16) (hlegal : blockLegal t coefs)
    (h : 0 ≤ lastNonzero coefs) : TailTo (firstPos t) (lastNonzero coefs) (coefs.drop (firstPos t)) := by
  obtain ⟨hmax, hfirst0⟩ := hlegal
  have hwhole : TailTo 0 (lastNonzero coefs) coefs := ⟨by omega, hmax, h, by omega⟩
  unfold firstPos
  split_ifs with ht
  · obtain ⟨rest, rfl⟩ := List.head?_eq_some_iff.mp (hfirst0 ht)
    exact hwhole.tail_of_zero
  · exact hwhole

/-- Settles O43: the first decision tells a block of zeros from the others, and the loop's decisions determine the
coefficients from the first position on; the one before it, if there is one, is 0 in both blocks. -/
theorem walkDeterminesBlock : Obligations.WalkDeterminesBlock := by
  intro t ctx a b _ hlenA hlenB ha hb h
  unfold walk at h
  dsimp only at h
  by_cases hflagA : 0 ≤ lastNonzero a
  · by_cases hflagB : 0 ≤ lastNonzero b
    · rw [blockFlag, blockFlag, decide_eq_true hflagA, decide_eq_true hflagB] at h
      have hdrop := walkFrom_injective (tailTo_of_blockLegal hlenA ha hflagA) (tailTo_of_blockLegal hlenB hb hflagB)
        (List.cons.inj h).2
      have htake : a.take (firstPos t) = b.take (firstPos t) := by
        unfold firstPos
        split_ifs with ht
        · obtain ⟨as, rfl⟩ := List.head?_eq_some_iff.mp (ha.2 ht)
          obtain ⟨bs, rfl⟩ := List.head?_eq_some_iff.mp (hb.2 ht)
          rfl
        · rfl
      rw [← List.take_append_drop (firstPos t) a, htake, hdrop, List.take_append_drop]
    · rw [blockFlag, blockFlag, decide_eq_true hflagA, decide_eq_false hflagB] at h
      cases (List.cons.inj h).1
  · by_cases hflagB : 0 ≤ lastNonzero b
    · rw [blockFlag, blockFlag, decide_eq_false hflagA, decide_eq_true hflagB] at h
      cases (List.cons.inj h).1
    · exact eq_of_lastNonzero_neg (hlenA.trans hlenB.symm) hflagA hflagB

end Sys2Proof.Machine
end

section
/-! PROOF. The commands on one block, and the checks on the blocks of a macroblock (O45, O46, O47). -/
namespace Sys2Proof.Machine

variable {s : State}

/-! ## Blocks that may not be coded -/

theorem checkWriting_bind {α : Type} (h : s.bw.st = .writing) (k : Unit → Except Raise α) :
    checkWriting s >>= k = k () := by
  rw [checkWriting_ok_iff.mpr h]
  rfl

/-- The blocks of a macroblock in coding order (rule R620). -/
def mbBlocks (i16 : Bool) : List MbBlock := lumaBlocks i16 ++ chromaBlocks

/-- The slot of the first block: intra-4 has no DC block. -/
def firstSlot (i16 : Bool) : Nat := if i16 then 0 else 1

/-- The type of the block in a slot (rule R620). -/
def slotType (i16 : Bool) (slot : Nat) : Nat :=
  if slot = 0 then 1 else if slot ≤ 16 then (if i16 then 0 else 3) else 2

/-- Coding order is the order of the slots. -/
theorem mbBlocks_slots (i16 : Bool) :
    (mbBlocks i16).map MbBlock.slot = List.range' (firstSlot i16) (25 - firstSlot i16) := by
  cases i16 <;> rfl

theorem mbBlocks_ty (i16 : Bool) : ∀ k ∈ mbBlocks i16, k.ty = slotType i16 k.slot := by
  cases i16 <;> decide

/-- The first slot that fails its check decides the fault of a macroblock (rule R622, rule R623). -/
theorem checkBlocks_of_firstSlot {i16 : Bool} {slot : Nat} {r : Raise} (hlt : slot < 25) (hge : firstSlot i16 ≤ slot)
    (hlegal : ∀ k < slot, firstSlot i16 ≤ k → blockLegal (slotType i16 k) (blockCoefs Config.params s k))
    (h : checkBlock Config.params s slot (slotType i16 slot) = .error r) :
    checkBlocks Config.params s (mbBlocks i16) = .error r := by
  have hmem : slot ∈ (mbBlocks i16).map MbBlock.slot := by
    rw [mbBlocks_slots, List.mem_range'_1]
    omega
  obtain ⟨k, hk, rfl⟩ := List.mem_map.mp hmem
  obtain ⟨pre, post, hsplit⟩ := List.append_of_mem hk
  rw [hsplit]
  refine checkBlocks_of_first (fun b hb => ?_) (by rw [mbBlocks_ty i16 k hk]; exact h)
  have hb' : b ∈ mbBlocks i16 := by
    rw [hsplit]
    exact List.mem_append_left _ hb
  have hfirst : b.slot ∈ (mbBlocks i16).map MbBlock.slot := List.mem_map_of_mem hb'
  have hrise : ((mbBlocks i16).map MbBlock.slot).Pairwise (· < ·) := by
    rw [mbBlocks_slots]
    exact List.pairwise_lt_range'
  rw [mbBlocks_slots, List.mem_range'_1] at hfirst
  rw [hsplit, List.map_append, List.pairwise_append] at hrise
  obtain ⟨-, -, hpre⟩ := hrise
  rw [mbBlocks_ty i16 b hb']
  exact hlegal b.slot (hpre _ (List.mem_map_of_mem hb) _ List.mem_cons_self) hfirst.1

/-- Settles O45: all four commands check their blocks before they code or record anything. -/
theorem illegalBlocksFault : Obligations.IllegalBlocksFault := by
  intro i s code info hs
  have hprecise {code : ErrCode} {slot ty info : Nat} (h : s.blockFault slot ty code info) :
      code.imprecise = false := by
    rcases h with ⟨-, -, rfl, -⟩ | ⟨-, -, -, -, -, rfl, -⟩ <;> rfl
  constructor
  · rintro slot ty ctx (⟨rfl, hst⟩ | rfl) hfault
    · refine exec_of_precise nofun hs ((checkWriting_bind hst _).trans ?_) (hprecise hfault)
      exact Except.bind_error.mpr (.inl (checkBlock_of_blockFault hfault))
    · refine exec_of_precise nofun hs ?_ (hprecise hfault)
      exact Except.bind_error.mpr (.inl (checkBlock_of_blockFault hfault))
  · intro hi hm first type slot hlt hge hlegal hfault
    have hfirst : first = firstSlot (isI16 s) := by
      simp only [first, firstSlot, isI16, decide_eq_true_eq]
    have htype (k : Nat) : type k = slotType (isI16 s) k := by
      simp only [type, slotType, isI16, decide_eq_true_eq]
    simp only [hfirst, htype] at hge hlegal hfault
    have herr : checkBlocks Config.params s (mbBlocks (isI16 s)) = .error ⟨code, info⟩ :=
      checkBlocks_of_firstSlot hlt hge hlegal (checkBlock_of_blockFault hfault)
    rcases hi with ⟨rfl, hst⟩ | rfl
    · refine exec_of_precise nofun hs ((checkMb_bind hm _).trans ((checkWriting_bind hst _).trans ?_))
        (hprecise hfault)
      exact Except.bind_error.mpr (.inl herr)
    · refine exec_of_precise nofun hs ((checkMb_bind hm _).trans ?_) (hprecise hfault)
      exact Except.bind_error.mpr (.inl herr)

/-! ## RC_CODE_BLOCK -/

/-- RC_CODE_BLOCK on a block that may be coded, past its checks (rule R610). -/
theorem codeBlockBody_of_legal {P : Params} {slot ty ctx : Nat} (hst : s.bw.st = .writing)
    (hlegal : blockLegal ty (blockCoefs P s slot)) :
    codeBlockBody P slot ty ctx s =
      (encodeBits P s.tick ((walk ty ctx (blockCoefs P s slot)).map (codedBit s.rc)) s.bw).map fun b =>
        (s.withBw b).withRc { s.rc with nz := blockFlag (blockCoefs P s slot) } := by
  rw [codeBlockBody, checkWriting_bind hst, checkBlock_ok_iff.mpr hlegal]
  rfl

/-- Settles O46: the command and the BW_PUTBIT commands code the same list, from the same writer. -/
theorem rcCodeBlockCodesWalk : Obligations.RcCodeBlockCodesWalk := by
  intro slot ty ctx s hs hst coefs bits hlegal
  have hbody : bodyOf Config.params (.rcCodeBlock slot ty ctx) s =
      (encodeBits Config.params s.tick bits s.bw).map fun b =>
        (s.withBw b).withRc { s.rc with nz := coefs.any fun c => c ≠ 0 } := by
    rw [← blockFlag_eq_any]
    exact codeBlockBody_of_legal hst hlegal
  have hputbits := execAll_bitCommands (fun d : CodedBit => .bwPutbit d.1 d.2) id nofun (fun _ => rfl) bits s hs hst
  rw [List.map_id] at hputbits
  rcases hputbits with ⟨b, hb, hall⟩ | ⟨r, u, w, hr, hall, hlatch⟩
  · rw [hb] at hbody
    refine ⟨_, _, exec_of_ok nofun hs hbody, hall, fun _ => ⟨rfl, rfl⟩, fun hfault => ?_, fun _ _ => hs⟩
    exact absurd (hs.symm.trans hfault) nofun
  · rw [hr] at hbody
    have hexec := (exec_eq_runCommand (i := .rcCodeBlock slot ty ctx) nofun s).trans
      (congrArg _ (runCommand_of_error hs hbody))
    refine ⟨_, u, hexec, hall, fun hrun => ?_, fun _ => ⟨?_, takeFault_rc _ _ _ _ _⟩, fun hok hroom => ?_⟩
    · rw [State.running, hlatch] at hrun
      cases hrun
    · rw [takeFault_latch, hlatch]
    · obtain ⟨b, hb, -⟩ := encodeBits_of_room outCap_le bits hok hroom (tick := s.tick)
      cases hb.symm.trans hr

/-! ## RC_RECORD_BLOCK -/

theorem statsAt_record_same {r : Rc} {i : Nat} (hi : i < r.stats.length) (P : Params) (bit : Bool) :
    statsAt (record P bit i r) i = recordCount P (statsAt r i) bit := by
  simp [statsAt, record, hi]

theorem statsAt_record_of_ne {i j : Nat} (h : i ≠ j) (P : Params) (bit : Bool) (r : Rc) :
    statsAt (record P bit i r) j = statsAt r j := by
  simp [statsAt, record, h]

/-- Recording decisions counts, at each cell, those the walk makes there, in order (rule R630). -/
theorem statsAt_recordDecisions (P : Params) (ds : List Decision) {r : Rc} {i : Nat} (hi : i < r.stats.length) :
    statsAt (recordDecisions P ds r) i = (ds.filterMap (Decision.bitAt i)).foldl (recordCount P) (statsAt r i) := by
  induction ds generalizing r with
  | nil => rfl
  | cons d ds ih =>
    cases d with
    | fixed bit p => exact ih hi
    | sign bit => exact ih hi
    | cell bit ix =>
      have hlen : (record P bit ix r).stats.length = r.stats.length := List.length_set
      rw [recordDecisions, ih (hlen ▸ hi)]
      by_cases hix : ix = i
      · subst hix
        have hbit : Decision.bitAt ix (.cell bit ix) = some bit := if_pos rfl
        rw [statsAt_record_same hi, List.filterMap_cons_some hbit, List.foldl_cons]
      · have hbit : Decision.bitAt i (.cell bit ix) = none := if_neg hix
        rw [statsAt_record_of_ne hix, List.filterMap_cons_none hbit]

/-- RC_RECORD_BLOCK on a block that may be recorded, past its check (rule R611). -/
theorem recordBlockBody_of_legal {P : Params} {slot ty ctx : Nat} (hlegal : blockLegal ty (blockCoefs P s slot)) :
    recordBlockBody P slot ty ctx s = .ok (s.withRc { s.rc with
      stats := (recordDecisions P (walk ty ctx (blockCoefs P s slot)) s.rc).stats
      nz := blockFlag (blockCoefs P s slot) }) := by
  have hok : ∃ t, recordBlockBody P slot ty ctx s = .ok t := ⟨_, by
    rw [recordBlockBody, checkBlock_ok_iff.mpr hlegal]
    rfl⟩
  obtain ⟨t, ht⟩ := hok
  rw [ht, (recordBlockBody_ok ht).2]

/-- Settles O47: `statsAt_recordDecisions` on the decisions of the walk; the body names the fields it changes. -/
theorem rcRecordBlockCountsWalk : Obligations.RcRecordBlockCountsWalk := by
  intro slot ty ctx s hs coefs ds hlegal hlen
  refine ⟨_, exec_of_ok nofun hs (recordBlockBody_of_legal hlegal), ?_, ?_, fun i hi => ?_⟩
  · rw [← blockFlag_eq_any]
    rfl
  · exact (recordDecisions_stats_length _ _ _).trans hlen
  · exact statsAt_recordDecisions _ _ (hlen ▸ hi)

end Sys2Proof.Machine
end

section
/-! PROOF. The commands on a macroblock (O49, O50). `FlagView.after` follows the flags of rule R621 through a list of
blocks, as functions of their indices. On the blocks of a macroblock it gives each block the context of its neighbours
(`blockUses_luma`, `blockUses_chroma`) and ends with the flags of the bottom rows and right columns (`endTop_after`,
`endLeft_after`); `walkBlocks_eq` ties it to the flags the commands keep. -/
namespace Sys2Proof.Machine

variable {s : State}

/-! ## The flags through a list of blocks -/

/-- TOP_NZ and LEFT_NZ as functions of the index. -/
structure FlagView where
  top : Nat → Bool
  left : Nat → Bool

/-- Both flags of a block set to its result (rule R621). -/
def FlagView.set (v : FlagView) (k : MbBlock) (bit : Bool) : FlagView :=
  ⟨Function.update v.top k.top bit, Function.update v.left k.left bit⟩

/-- The flags after the listed blocks, whose results `flag` gives by slot (rule R621). -/
def FlagView.after (flag : Nat → Bool) : List MbBlock → FlagView → FlagView
  | [], v => v
  | k :: ks, v => FlagView.after flag ks (v.set k (flag k.slot))

/-- The listed blocks with the contexts the flags give them (rule R621). -/
def blockUses (flag : Nat → Bool) : List MbBlock → FlagView → List BlockUse
  | [], _ => []
  | k :: ks, v =>
    ⟨k.slot, k.ty, (v.top k.top).toNat + (v.left k.left).toNat⟩ :: blockUses flag ks (v.set k (flag k.slot))

theorem blockUses_append (flag : Nat → Bool) (ks ls : List MbBlock) (v : FlagView) :
    blockUses flag (ks ++ ls) v = blockUses flag ks v ++ blockUses flag ls (v.after flag ks) := by
  induction ks generalizing v with
  | nil => rfl
  | cons k ks ih => exact congrArg _ (ih _)

theorem blockUses_map (flag : Nat → Bool) (ks : List MbBlock) (v : FlagView) :
    (blockUses flag ks v).map (fun u => (u.slot, u.ty)) = ks.map fun k => (k.slot, k.ty) := by
  induction ks generalizing v with
  | nil => rfl
  | cons k ks ih => exact congrArg _ (ih _)

theorem blockUses_ctx_le (flag : Nat → Bool) (ks : List MbBlock) (v : FlagView) :
    ∀ u ∈ blockUses flag ks v, u.ctx ≤ 2 := by
  induction ks generalizing v with
  | nil => nofun
  | cons k ks ih => exact List.forall_mem_cons.mpr ⟨Nat.add_le_add (Bool.toNat_le _) (Bool.toNat_le _), ih _⟩

/-! ## The blocks of a macroblock -/

/-- The flags as the macroblock starts (rule R561). -/
def State.startFlags (s : State) : FlagView := ⟨s.topBit, s.leftBit⟩

theorem blockUses_luma (s : State) : blockUses s.slotFlag (lumaBlocks (isI16 s)) s.startFlags = s.lumaUses := by
  unfold State.lumaUses isI16
  split_ifs with h
  · rw [decide_eq_true h]
    rfl
  · rw [decide_eq_false h]
    rfl

theorem blockUses_chroma (s : State) :
    blockUses s.slotFlag chromaBlocks (s.startFlags.after s.slotFlag (lumaBlocks (isI16 s))) = s.chromaUses := by
  unfold State.chromaUses
  cases isI16 s <;> rfl

theorem blockUses_mb (s : State) :
    blockUses s.slotFlag (mbBlocks (isI16 s)) s.startFlags = s.lumaUses ++ s.chromaUses := by
  rw [mbBlocks, blockUses_append, blockUses_luma, blockUses_chroma]

/-- The flags as the macroblock ends (rule R621). -/
def State.endFlags (s : State) : FlagView := s.startFlags.after s.slotFlag (mbBlocks (isI16 s))

theorem endFlags_top (s : State) {j : Nat} (hj : j < 9) : s.endFlags.top j = s.endTop.getD j false := by
  unfold State.endFlags State.endTop isI16
  split_ifs with h
  · rw [decide_eq_true h]
    interval_cases j <;> rfl
  · rw [decide_eq_false h]
    interval_cases j <;> rfl

theorem endFlags_left (s : State) {j : Nat} (hj : j < 8) : s.endFlags.left j = s.endLeft.getD j false := by
  unfold State.endFlags
  cases isI16 s <;> interval_cases j <;> rfl

theorem endFlags_left_dc (h : isI16 s = true) : s.endFlags.left 8 = s.slotFlag 0 := by
  rw [State.endFlags, h]
  rfl

/-! ## The flags the commands keep -/

/-- The flags read as `v` says. -/
def NzFlags.ReadAs (tick : Nat) (f : NzFlags) (v : FlagView) : Prop :=
  ∀ j < 9, topFlag Config.params tick f j = BitVec.ofBool (v.top j) ∧
    leftFlag Config.params tick f j = BitVec.ofBool (v.left j)

theorem readCell_of_some {w : Nat} {P : Params} {tick : Nat} {site : FreeSite} {m : Cells (BitVec w)} {k : Nat}
    {x : BitVec w} (h : cellGet m k = some x) : readCell P tick site m k = x := by
  rw [readCell, h, Option.getD_some]

theorem ofBool_getLsbD_zero (x : BitVec 1) : BitVec.ofBool (x.getLsbD 0) = x :=
  BitVec.eq_of_getLsbD_eq fun j hj => by
    obtain rfl : j = 0 := by omega
    simp

/-- Loading the flags brings them to where the macroblock starts; LEFT_NZ[8] stays as it was (rule R561). -/
theorem nzToFlags_readAs (s : State) : (nzToFlags Config.params s).ReadAs s.tick s.startFlags := by
  intro j hj
  refine ⟨readCell_of_some ((cellGet_nzToFlags_top _ s j).trans (if_pos hj)), ?_⟩
  have hleft := cellGet_nzToFlags_left Config.params s j
  by_cases h8 : j = 8
  · subst h8
    rw [leftFlag, readCell, hleft, if_neg (lt_irrefl 8)]
    exact (ofBool_getLsbD_zero _).symm
  · rw [if_pos (by omega)] at hleft
    rw [leftFlag, readCell_of_some hleft]
    exact congrArg BitVec.ofBool (if_neg h8).symm

theorem NzFlags.ReadAs.set {tick : Nat} {f : NzFlags} {v : FlagView} (h : f.ReadAs tick v) (k : MbBlock)
    (bit : Bool) : (setFlags f k bit).ReadAs tick (v.set k bit) := by
  intro j hj
  obtain ⟨htop, hleft⟩ := h j hj
  rw [topFlag] at htop ⊢
  rw [leftFlag] at hleft ⊢
  simp only [setFlags, FlagView.set, readCell_cellSet, Function.update_apply]
  refine ⟨?_, ?_⟩
  · split_ifs
    · rfl
    · exact htop
  · split_ifs
    · rfl
    · exact hleft

theorem slotFlag_eq (s : State) (slot : Nat) : blockFlag (blockCoefs Config.params s slot) = s.slotFlag slot :=
  blockFlag_eq_any _

/-- The decisions of the listed uses, one walk after the other. -/
def State.usesDecisions (s : State) (us : List BlockUse) : List Decision :=
  us.flatMap fun u => walk u.ty u.ctx (blockCoefs Config.params s u.slot)

theorem usesBits_eq (s : State) (us : List BlockUse) : s.usesBits us = (s.usesDecisions us).map (codedBit s.rc) := by
  rw [State.usesBits, State.usesDecisions, List.map_flatMap]

/-- The walk over a list of blocks makes the decisions of the uses the flags give, and leaves the flags that
`FlagView.after` says. -/
theorem walkBlocks_eq {ks : List MbBlock} {f : NzFlags} {v : FlagView} (hks : ∀ k ∈ ks, k.flagsInRange)
    (h : f.ReadAs s.tick v) :
    (walkBlocks Config.params s ks f).1 = s.usesDecisions (blockUses s.slotFlag ks v) ∧
      (walkBlocks Config.params s ks f).2.ReadAs s.tick (v.after s.slotFlag ks) := by
  induction ks generalizing f v with
  | nil => exact ⟨rfl, h⟩
  | cons k ks ih =>
    obtain ⟨⟨htop, hleft⟩, hks⟩ := List.forall_mem_cons.mp hks
    have hctx : blockCtx Config.params s.tick f k = (v.top k.top).toNat + (v.left k.left).toNat := by
      rw [blockCtx, (h _ htop).1, (h _ hleft).2, BitVec.toNat_ofBool, BitVec.toNat_ofBool]
    obtain ⟨hdecisions, hflags⟩ := ih hks (h.set k (s.slotFlag k.slot))
    simp only [walkBlocks, slotFlag_eq, hctx]
    exact ⟨congrArg _ hdecisions, hflags⟩

theorem walkBlocks_append (P : Params) (s : State) (ks ls : List MbBlock) (f : NzFlags) :
    walkBlocks P s (ks ++ ls) f =
      ((walkBlocks P s ks f).1 ++ (walkBlocks P s ls (walkBlocks P s ks f).2).1,
        (walkBlocks P s ls (walkBlocks P s ks f).2).2) := by
  induction ks generalizing f with
  | nil => rfl
  | cons k ks ih => simp only [List.cons_append, walkBlocks, ih, List.append_assoc]

/-- A flag of no listed block is as before. -/
theorem walkBlocks_left_other {P : Params} {ks : List MbBlock} {j : Nat} (hks : ∀ k ∈ ks, k.left ≠ j) (f : NzFlags) :
    cellGet (walkBlocks P s ks f).2.left j = cellGet f.left j := by
  induction ks generalizing f with
  | nil => rfl
  | cons k ks ih =>
    obtain ⟨hk, hks⟩ := List.forall_mem_cons.mp hks
    exact (ih hks _).trans (cellGet_cellSet_other _ _ hk.symm)

theorem isSome_cellGet_cellSet {α : Type} {m : Cells α} {k j : Nat} {v : α} (h : (cellGet m j).isSome ∨ k = j) :
    (cellGet (cellSet m k v) j).isSome := by
  rw [cellGet_cellSet]
  split_ifs with hk
  · rfl
  · exact h.resolve_right fun he => hk he.symm

/-- A flag that holds a value keeps one, and a flag of a listed block gets one. -/
theorem walkBlocks_isSome {P : Params} {ks : List MbBlock} {f : NzFlags} (j : Nat) :
    ((cellGet f.top j).isSome → (cellGet (walkBlocks P s ks f).2.top j).isSome) ∧
      ((cellGet f.left j).isSome ∨ (∃ k ∈ ks, k.left = j) → (cellGet (walkBlocks P s ks f).2.left j).isSome) := by
  induction ks generalizing f with
  | nil => exact ⟨id, fun h => h.resolve_right nofun⟩
  | cons k ks ih =>
    obtain ⟨htop, hleft⟩ := ih (f := setFlags f k (blockFlag (blockCoefs P s k.slot)))
    refine ⟨fun h => htop (isSome_cellGet_cellSet (.inl h)), fun h => hleft ?_⟩
    rw [List.exists_mem_cons_iff, ← or_assoc] at h
    exact h.imp_left isSome_cellGet_cellSet

theorem cellGet_eq_some_of_readCell {w : Nat} {P : Params} {tick : Nat} {site : FreeSite} {m : Cells (BitVec w)}
    {k : Nat} {x : BitVec w} (hsome : (cellGet m k).isSome) (h : readCell P tick site m k = x) :
    cellGet m k = some x := by
  obtain ⟨y, hy⟩ := Option.isSome_iff_exists.mp hsome
  rw [readCell_of_some hy] at h
  rw [hy, h]

/-! ## The flags after a macroblock -/

theorem mbBlocks_flagsInRange (i16 : Bool) : ∀ k ∈ mbBlocks i16, k.flagsInRange :=
  List.forall_mem_append.mpr ⟨lumaBlocks_flagsInRange i16, chromaBlocks_flagsInRange⟩

/-- The bits of the NZ word read TOP_NZ[0..8] and LEFT_NZ[0..7] only (rule R562). -/
theorem nzBit_congr {top top' left left' : Nat → Bool} (htop : ∀ j < 9, top j = top' j)
    (hleft : ∀ j < 8, left j = left' j) (b : Nat) : nzBit top left b = nzBit top' left' b := by
  unfold nzBit
  simp only [htop, hleft, Nat.reduceLT]

/-- Loading the flags gives each of them a value but LEFT_NZ[8]. -/
theorem nzToFlags_isSome (P : Params) (s : State) :
    (∀ j < 9, (cellGet (nzToFlags P s).top j).isSome) ∧ ∀ j < 8, (cellGet (nzToFlags P s).left j).isSome :=
  ⟨fun j hj => by rw [cellGet_nzToFlags_top, if_pos hj]; rfl,
    fun j hj => by rw [cellGet_nzToFlags_left, if_pos hj]; rfl⟩

/-- The flags after the blocks of a macroblock. -/
def State.walkedFlags (s : State) : NzFlags :=
  (walkBlocks Config.params s (mbBlocks (isI16 s)) (nzToFlags Config.params s)).2

theorem walkedFlags_readAs (s : State) : s.walkedFlags.ReadAs s.tick s.endFlags :=
  (walkBlocks_eq (mbBlocks_flagsInRange (isI16 s)) (nzToFlags_readAs s)).2

theorem cellGet_walkedFlags_top (s : State) {j : Nat} (hj : j < 9) :
    cellGet s.walkedFlags.top j = some (BitVec.ofBool (s.endFlags.top j)) :=
  cellGet_eq_some_of_readCell ((walkBlocks_isSome j).1 ((nzToFlags_isSome _ s).1 j hj)) (walkedFlags_readAs s j hj).1

theorem cellGet_walkedFlags_left (s : State) {j : Nat} (hj : j < 8) :
    cellGet s.walkedFlags.left j = some (BitVec.ofBool (s.endFlags.left j)) :=
  cellGet_eq_some_of_readCell ((walkBlocks_isSome j).2 (.inl ((nzToFlags_isSome _ s).2 j hj)))
    (walkedFlags_readAs s j (by omega)).2

/-- LEFT_NZ[8] is the result of the DC block; an intra-4 macroblock has none and leaves it. -/
theorem cellGet_walkedFlags_left_dc (s : State) : cellGet s.walkedFlags.left 8 =
    if s.cfg.mbType = 1 then some (BitVec.ofBool (s.slotFlag 0)) else cellGet s.mi.leftNz 8 := by
  split_ifs with hty
  · have h16 : isI16 s = true := decide_eq_true hty
    have hdc : ∃ k ∈ mbBlocks (isI16 s), k.left = 8 := by
      rw [h16]
      decide
    rw [← endFlags_left_dc h16]
    exact cellGet_eq_some_of_readCell ((walkBlocks_isSome 8).2 (.inr hdc)) (walkedFlags_readAs s 8 (by omega)).2
  · have hother : ∀ k ∈ mbBlocks (isI16 s), k.left ≠ 8 := by
      rw [show isI16 s = false from decide_eq_false hty]
      decide
    exact (walkBlocks_left_other hother _).trans ((cellGet_nzToFlags_left _ s 8).trans (if_neg (lt_irrefl 8)))

/-- Packing the flags after the blocks leaves the flags and the summary of rule R622. -/
theorem mbFlagsDone_of_walkedFlags (s : State) {m : Mi} (hx : m.x = s.mi.x) (hnz : m.nz = s.mi.nz) :
    s.mbFlagsDone (flagsToNz Config.params s.tick s.walkedFlags m) := by
  refine ⟨fun j hj => ?_, fun j hj => ?_, cellGet_walkedFlags_left_dc s,
    ⟨packNz Config.params s.tick s.walkedFlags, ?_, fun b hb => ?_⟩, fun x hne => ?_⟩
  · rw [← endFlags_top s hj]
    exact cellGet_walkedFlags_top s hj
  · rw [← endFlags_left s hj]
    exact cellGet_walkedFlags_left s hj
  · rw [← hx]
    exact cellGet_cellSet_same _ _ _
  · rw [packNz_getLsbD _ _ _ hb]
    refine nzBit_congr (fun j hj => ?_) (fun j hj => ?_) b
    · rw [(walkedFlags_readAs s j hj).1, endFlags_top s hj, BitVec.getLsbD_ofBool]
      simp
    · rw [(walkedFlags_readAs s j (by omega)).2, endFlags_left s hj, BitVec.getLsbD_ofBool]
      simp
  · rw [← hnz]
    exact cellGet_cellSet_other _ _ (hx ▸ hne)

/-! ## The block commands of a list of uses -/

/-- The use's fields fit into a command word (rule R305). -/
def BlockUse.Fits (u : BlockUse) : Prop := u.slot < 32 ∧ u.ty < 4 ∧ u.ctx < 4

theorem bodyOf_codeBlock_command {u : BlockUse} (h : u.Fits) (P : Params) :
    bodyOf P (u.command .rcCodeBlock) = codeBlockBody P u.slot u.ty u.ctx := by
  obtain ⟨hslot, hty, hctx⟩ := h
  simp only [BlockUse.command, bodyOf, BitVec.toNat_ofNat]
  rw [Nat.mod_eq_of_lt hslot, Nat.mod_eq_of_lt hty, Nat.mod_eq_of_lt hctx]

theorem bodyOf_recordBlock_command {u : BlockUse} (h : u.Fits) (P : Params) :
    bodyOf P (u.command .rcRecordBlock) = recordBlockBody P u.slot u.ty u.ctx := by
  obtain ⟨hslot, hty, hctx⟩ := h
  simp only [BlockUse.command, bodyOf, BitVec.toNat_ofNat]
  rw [Nat.mod_eq_of_lt hslot, Nat.mod_eq_of_lt hty, Nat.mod_eq_of_lt hctx]

/-- The uses are commands that legal words encode, on blocks that may be coded. -/
def State.UsesOk (s : State) (us : List BlockUse) : Prop :=
  ∀ u ∈ us, u.Fits ∧ blockLegal u.ty (blockCoefs Config.params s u.slot)

theorem usesBits_cons (s : State) (u : BlockUse) (us : List BlockUse) : s.usesBits (u :: us) =
    (walk u.ty u.ctx (blockCoefs Config.params s u.slot)).map (codedBit s.rc) ++ s.usesBits us := List.flatMap_cons

/-- RC_CODE_BLOCK commands code the decisions of their blocks one after the other; besides the writer they leave a
result in RC.NZ. -/
theorem execAll_codeBlocks {us : List BlockUse} {b : Bw} (hs : s.running) (hst : s.bw.st = .writing)
    (hok : s.UsesOk us) (h : encodeBits Config.params s.tick (s.usesBits us) s.bw = .ok b) :
    ∃ nz, execAll (us.map (BlockUse.command .rcCodeBlock)) s = some ((s.withBw b).withRc { s.rc with nz := nz }) := by
  induction us generalizing s with
  | nil =>
    cases h
    exact ⟨s.rc.nz, rfl⟩
  | cons u us ih =>
    obtain ⟨⟨hfits, hlegal⟩, hok⟩ := List.forall_mem_cons.mp hok
    rw [usesBits_cons, encodeBits_append] at h
    split at h
    · next b₁ hb₁ =>
      have hexec := exec_of_ok (i := u.command .rcCodeBlock) nofun hs (by
        rw [bodyOf_codeBlock_command hfits, codeBlockBody_of_legal hst hlegal, hb₁]
        rfl)
      obtain ⟨nz, hrest⟩ := ih (s := (s.withBw b₁).withRc { s.rc with
        nz := blockFlag (blockCoefs Config.params s u.slot) }) hs ((encodeBits_st hb₁).trans hst) hok h
      refine ⟨nz, ?_⟩
      simp only [List.map_cons, execAll, hexec]
      exact hrest
    · cases h

theorem recordDecisions_append (P : Params) (ds es : List Decision) (r : Rc) :
    recordDecisions P (ds ++ es) r = recordDecisions P es (recordDecisions P ds r) := by
  induction ds generalizing r with
  | nil => rfl
  | cons d ds ih => cases d <;> exact ih _

/-- What is counted depends on the counters only. -/
theorem recordDecisions_stats_congr {P : Params} (ds : List Decision) {r r' : Rc} (h : r.stats = r'.stats) :
    (recordDecisions P ds r).stats = (recordDecisions P ds r').stats := by
  induction ds generalizing r r' with
  | nil => exact h
  | cons d ds ih =>
    cases d with
    | cell bit ix =>
      refine ih ?_
      simp only [record, statsAt, h]
    | fixed bit p => exact ih h
    | sign bit => exact ih h

theorem usesDecisions_cons (s : State) (u : BlockUse) (us : List BlockUse) : s.usesDecisions (u :: us) =
    walk u.ty u.ctx (blockCoefs Config.params s u.slot) ++ s.usesDecisions us := List.flatMap_cons

/-- RC_RECORD_BLOCK commands count the decisions of their blocks one after the other; besides STATS they leave a
result in RC.NZ. -/
theorem execAll_recordBlocks {us : List BlockUse} (hs : s.running) (hok : s.UsesOk us) :
    ∃ nz, execAll (us.map (BlockUse.command .rcRecordBlock)) s = some (s.withRc { s.rc with
      stats := (recordDecisions Config.params (s.usesDecisions us) s.rc).stats, nz := nz }) := by
  induction us generalizing s with
  | nil => exact ⟨s.rc.nz, rfl⟩
  | cons u us ih =>
    obtain ⟨⟨hfits, hlegal⟩, hok⟩ := List.forall_mem_cons.mp hok
    have hexec := exec_of_ok (i := u.command .rcRecordBlock) nofun hs (by
      rw [bodyOf_recordBlock_command hfits, recordBlockBody_of_legal hlegal])
    obtain ⟨nz, hrest⟩ := ih (s := s.withRc { s.rc with
      stats := (recordDecisions Config.params (walk u.ty u.ctx (blockCoefs Config.params s u.slot)) s.rc).stats
      nz := blockFlag (blockCoefs Config.params s u.slot) }) hs hok
    refine ⟨nz, ?_⟩
    simp only [List.map_cons, execAll, hexec]
    refine hrest.trans (congrArg (fun st => some (s.withRc { s.rc with stats := st, nz := nz })) ?_)
    rw [usesDecisions_cons, recordDecisions_append]
    exact recordDecisions_stats_congr _ rfl

/-! ## The uses of a macroblock -/

theorem usesOk_of_mbLegal (h : s.mbLegal) : s.UsesOk (s.lumaUses ++ s.chromaUses) := by
  intro u hu
  refine ⟨?_, h u hu⟩
  rw [← blockUses_mb] at hu
  have hctx := blockUses_ctx_le _ _ _ u hu
  have hmem : (u.slot, u.ty) ∈ (mbBlocks (isI16 s)).map fun k => (k.slot, k.ty) := by
    rw [← blockUses_map s.slotFlag _ s.startFlags]
    exact List.mem_map_of_mem hu
  have hrange : ∀ i16, ∀ p ∈ (mbBlocks i16).map fun k => (k.slot, k.ty), p.1 < 32 ∧ p.2 < 4 := by decide
  obtain ⟨hslot, hty⟩ := hrange _ _ hmem
  exact ⟨hslot, hty, by omega⟩

/-- The checks of RC_CODE_MB and RC_RECORD_MB pass on a macroblock whose blocks may be coded. -/
theorem checkBlocks_of_mbLegal (h : s.mbLegal) : checkBlocks Config.params s (mbBlocks (isI16 s)) = .ok () := by
  rw [checkBlocks_ok_iff]
  intro k hk
  have hmem : (k.slot, k.ty) ∈ (s.lumaUses ++ s.chromaUses).map fun u => (u.slot, u.ty) := by
    rw [← blockUses_mb, blockUses_map]
    exact List.mem_map_of_mem hk
  obtain ⟨u, hu, he⟩ := List.mem_map.mp hmem
  obtain ⟨hslot, hty⟩ := Prod.mk.inj he
  rw [← hslot, ← hty]
  exact h u hu

/-! ## RC_RECORD_MB -/

/-- RC_RECORD_MB past its checks (rule R623). -/
theorem recordMbBody_of_legal (hm : s.hasMacroblock) (hlegal : s.mbLegal) :
    recordMbBody Config.params s = .ok
      ((s.withRc { s.rc with
          stats := (recordDecisions Config.params (s.usesDecisions (s.lumaUses ++ s.chromaUses)) s.rc).stats }).withMi
        (flagsToNz Config.params s.tick s.walkedFlags s.mi)) := by
  have hok : ∃ t, recordMbBody Config.params s = .ok t := ⟨_,
    Except.bind_ok.mpr ⟨(), checkMb_of_hasMacroblock hm,
      Except.bind_ok.mpr ⟨(), checkBlocks_of_mbLegal hlegal, rfl⟩⟩⟩
  obtain ⟨t, ht⟩ := hok
  have hdecisions := (walkBlocks_eq (mbBlocks_flagsInRange (isI16 s)) (nzToFlags_readAs s)).1
  rw [blockUses_mb] at hdecisions
  rw [ht, (recordMbBody_ok ht).2.2, ← hdecisions]
  rfl

/-- Settles O50: both sides count the decisions of the same uses, and `mbFlagsDone_of_walkedFlags` has the flags. -/
theorem rcRecordMbCountsItsBlocks : Obligations.RcRecordMbCountsItsBlocks := by
  intro s hs hm hlegal
  obtain ⟨nz, hall⟩ := execAll_recordBlocks hs (usesOk_of_mbLegal hlegal)
  exact ⟨_, _, exec_of_ok nofun hs (recordMbBody_of_legal hm hlegal), hall, hs, rfl, rfl,
    mbFlagsDone_of_walkedFlags s rfl rfl⟩

/-! ## RC_CODE_MB -/

/-- RC_CODE_MB past its checks, where its decisions are coded (rule R622). -/
theorem codeMbBody_of_legal {b₁ b₂ : Bw} (hm : s.hasMacroblock) (hst : s.bw.st = .writing) (hlegal : s.mbLegal)
    (hb₁ : encodeBits Config.params s.tick (s.usesBits s.lumaUses) s.bw = .ok b₁)
    (hb₂ : encodeBits Config.params s.tick (s.usesBits s.chromaUses) b₁ = .ok b₂) :
    codeMbBody Config.params s = .ok ((s.withBw b₂).withMi (flagsToNz Config.params s.tick s.walkedFlags
      (accountBits s.cfg.mbSegment.toNat (isI16 s) (bitpos b₁ - bitpos s.bw) (bitpos b₂ - bitpos b₁) s.mi))) := by
  obtain ⟨hluma, hflags⟩ := walkBlocks_eq (lumaBlocks_flagsInRange (isI16 s)) (nzToFlags_readAs s)
  obtain ⟨hchroma, -⟩ := walkBlocks_eq chromaBlocks_flagsInRange hflags
  rw [blockUses_luma] at hluma
  rw [blockUses_chroma] at hchroma
  rw [usesBits_eq, ← hluma] at hb₁
  rw [usesBits_eq, ← hchroma] at hb₂
  have hwalked : s.walkedFlags = (walkBlocks Config.params s chromaBlocks
      (walkBlocks Config.params s (lumaBlocks (isI16 s)) (nzToFlags Config.params s)).2).2 := by
    rw [State.walkedFlags, mbBlocks, walkBlocks_append]
  rw [hwalked]
  exact Except.bind_ok.mpr ⟨(), checkMb_of_hasMacroblock hm,
    Except.bind_ok.mpr ⟨(), checkWriting_ok_iff.mpr hst,
      Except.bind_ok.mpr ⟨(), checkBlocks_of_mbLegal hlegal,
        Except.bind_ok.mpr ⟨b₁, hb₁, Except.bind_ok.mpr ⟨b₂, hb₂, rfl⟩⟩⟩⟩⟩

theorem addBits_getD {counts : List (BitVec 64)} {i : Nat} (hi : i < counts.length) (n : BitVec 32) (j : Nat) :
    (addBits counts i n).getD j 0 = counts.getD j 0 + if j = i then n.setWidth 64 else 0 := by
  rw [addBits]
  split_ifs with hj
  · subst hj
    simp [hi]
  · simp [Ne.symm hj]

theorem addBits_length (counts : List (BitVec 64)) (i : Nat) (n : BitVec 32) :
    (addBits counts i n).length = counts.length := List.length_set

/-- BIT_COUNT after a macroblock: the luma bits at its type, the chroma bits at 2, in its segment (rule R113). -/
theorem accountBits_bitCount {m : Mi} (hlen : m.bitCount.length = 12) {seg : Nat} (hseg : seg < 4) (i16 : Bool)
    (luma uv : BitVec 32) {g k : Nat} (hk : k < 3) :
    (accountBits seg i16 luma uv m).bitCount.getD (3 * g + k) 0 = m.bitCount.getD (3 * g + k) 0 +
      if g = seg ∧ k = 2 then uv.setWidth 64 else if g = seg ∧ k = i16.toNat then luma.setWidth 64 else 0 := by
  have h16 := i16.toNat_le
  have hluma : 3 * g + k = 3 * seg + i16.toNat ↔ g = seg ∧ k = i16.toNat := by omega
  have huv : 3 * g + k = 3 * seg + 2 ↔ g = seg ∧ k = 2 := by omega
  rw [accountBits, addBits_getD (by rw [addBits_length]; omega), addBits_getD (by omega)]
  simp only [hluma, huv]
  split_ifs
  · omega
  all_goals simp

theorem isI16_toNat (s : State) : (isI16 s).toNat = s.cfg.mbType.toNat := by
  have h : ∀ x : BitVec 1, (decide (x = 1)).toNat = x.toNat := by decide
  exact h _

/-- Settles O49: RC_CODE_MB codes the decisions of the uses, luma then chroma, and so do the block commands; the
writers after each part are the same, and `mbFlagsDone_of_walkedFlags` has the flags. -/
theorem rcCodeMbCodesItsBlocks : Obligations.RcCodeMbCodesItsBlocks := by
  rintro s hcoding hm hlegal hroom
  have hs := hcoding.running
  have hst := hcoding.writing
  obtain ⟨hlumaOk, hchromaOk⟩ := List.forall_mem_append.mp (usesOk_of_mbLegal hlegal)
  obtain ⟨b₂, hb, -⟩ := encodeBits_of_room outCap_le _ hcoding.ok hroom (tick := s.tick)
  have happend : s.usesBits (s.lumaUses ++ s.chromaUses) = s.usesBits s.lumaUses ++ s.usesBits s.chromaUses :=
    List.flatMap_append
  rw [happend, encodeBits_append] at hb
  split at hb
  · next b₁ hb₁ =>
    obtain ⟨nz₁, hluma⟩ := execAll_codeBlocks hs hst hlumaOk hb₁
    obtain ⟨nz₂, hchroma⟩ := execAll_codeBlocks (s := (s.withBw b₁).withRc { s.rc with nz := nz₁ }) hs
      ((encodeBits_st hb₁).trans hst) hchromaOk hb
    refine ⟨_, _, _, exec_of_ok nofun hs (codeMbBody_of_legal hm hst hlegal hb₁ hb), hluma, hchroma, hs, rfl, rfl,
      sub_add_sub_cancel' _ _ _, fun hlen seg hseg k hk => ?_, mbFlagsDone_of_walkedFlags s rfl rfl⟩
    rw [← isI16_toNat]
    exact accountBits_bitCount hlen s.cfg.mbSegment.isLt (isI16 s) _ _ hk
  · cases hb

end Sys2Proof.Machine
end

section
/-! PROOF. Faults: what the host and the sequencer do while one is latched, what a faulting command leaves, and NOP
(O7, O8, O12). An event performed under another latch does the same and keeps that latch; only the answer of a read of
STATUS, ERR_CMD or ERR_INFO shows which latch it was (`hostRead_resp_withLatch`). -/
namespace Sys2Proof.Machine

/-! ## Commands while FAULTED = 1 -/

theorem decode_softReset {w : Word} (h : decode w = .ok .softReset) : w = 0x08000000 :=
  (encodeInvertsDecode w _ h).2.symm

/-- While FAULTED = 1 a command word other than SOFT_RESET's, legal or not, only leaves the queue (rule R703). -/
theorem step_of_faulted {s : State} {q : List HostEvent} {w : Word} (hq : s.hostQueue = .write 0 4 w :: q)
    (hf : s.latch.faulted = true) (hw : w ≠ 0x08000000) : step s = .next (s.accept q) := by
  cases hd : decode w with
  | error e => rw [illegalWordRaisesFault s w q e hq hd, if_pos hf]
  | ok i =>
    have hi : i ≠ .softReset := fun h => hw (decode_softReset (h ▸ hd))
    rw [stepRunsDecodedCommand s w q i hq hd, exec_eq_runCommand hi, runCommand_of_faulted]
    exact hf

/-! ## Host accesses under another latch -/

/-- A host write of an element neither depends on the latch nor changes it (rule R107). -/
theorem writeElem_withLatch (s : State) (l : Latch) (v : Word) (e : HostElem) :
    writeElem (s.withLatch l) v e = (writeElem s v e).map (State.withLatch · l) := by
  cases e <;> rfl

theorem hostWrite_withLatch (P : Params) (a : Word) (n : Nat) (v : Word) (s : State) (l : Latch) :
    hostWrite P a n v (s.withLatch l) = (hostWrite P a n v s).withLatch l := by
  unfold hostWrite
  cases accessed P a n with
  | none => rfl
  | some e =>
    simp only [writeElem_withLatch]
    cases writeElem s v e <;> rfl

theorem hostRead_withLatch (P : Params) (a : Word) (n : Nat) (s : State) (l : Latch) :
    hostRead P a n (s.withLatch l) =
      ((hostRead P a n s).withLatch l).withResp (hostRead P a n (s.withLatch l)).hostResp := by
  rw [hostRead_eq, hostRead_eq]
  rfl

/-- The elements that show the fault latch, STATUS, ERR_CMD and ERR_INFO, with their offsets (rule R104). -/
def latchRegisters : List (Word × HostElem) := [(0x004, .status), (0x008, .errCmd), (0x00C, .errInfo)]

theorem latchRegisters_mapped : ∀ p ∈ latchRegisters, hostMaps p.1.toNat 4 p.2 := by
  simp [latchRegisters, hostMaps, hostRegisters]

/-- No array window holds a register that shows the latch. -/
theorem latchRegisters_only {a : Word} {n : Nat} :
    ∀ p ∈ latchRegisters, hostMaps a.toNat n p.2 → a = p.1 ∧ n = 4 := by
  simp +contextual [latchRegisters, hostMaps, hostRegisters, hostArrays, BitVec.toNat_eq]

/-- Every other element reads the same under every latch. -/
theorem readElem_withLatch (P : Params) (s : State) (l : Latch) {e : HostElem}
    (he : e ∉ latchRegisters.map Prod.snd) : readElem P (s.withLatch l) e = readElem P s e := by
  cases e with
  | status | errCmd | errInfo => simp [latchRegisters] at he
  | _ => rfl

/-- A read other than of the three registers answers the same under every latch. -/
theorem hostRead_resp_withLatch {a : Word} {n : Nat} (h : ∀ p ∈ latchRegisters, ¬ (a = p.1 ∧ n = 4)) (s : State)
    (l : Latch) :
    (hostRead Config.params a n (s.withLatch l)).hostResp = (hostRead Config.params a n s).hostResp := by
  rw [hostRead_eq, hostRead_eq]
  cases hacc : accessed Config.params a n with
  | none => rfl
  | some e =>
    have hmaps := (hostMapIsTheTable a n e).mp hacc
    have he : e ∉ latchRegisters.map Prod.snd := by
      intro hmem
      obtain ⟨p, hp, rfl⟩ := List.mem_map.mp hmem
      exact h p hp (latchRegisters_only p hp hmaps)
    exact congrArg HostResp.data (readElem_withLatch _ s l he)

/-- What a read answers, with what it would answer under the latch `l` for all but the three registers. -/
theorem hostRead_resp_eq (a : Word) (n : Nat) (s : State) (l : Latch) :
    (hostRead Config.params a n s).hostResp =
      if HostEvent.read a n = .read 0x004 4 then .data (statusWord s)
      else if HostEvent.read a n = .read 0x008 4 then .data s.latch.cmd
      else if HostEvent.read a n = .read 0x00C 4 then .data s.latch.info
      else (hostRead Config.params a n (s.withLatch l)).hostResp := by
  have hmapped := latchRegisters_mapped
  simp only [latchRegisters, List.forall_mem_cons] at hmapped
  obtain ⟨hstatus, hcmd, hinfo, -⟩ := hmapped
  simp only [HostEvent.read.injEq]
  split_ifs with h4 h8 hC
  · obtain ⟨rfl, rfl⟩ := h4
    exact hostRead_resp_of_maps hstatus s
  · obtain ⟨rfl, rfl⟩ := h8
    exact hostRead_resp_of_maps hcmd s
  · obtain ⟨rfl, rfl⟩ := hC
    exact hostRead_resp_of_maps hinfo s
  · have hother : ∀ p ∈ latchRegisters, ¬ (a = p.1 ∧ n = 4) :=
      List.forall_mem_cons.mpr ⟨h4, List.forall_mem_cons.mpr ⟨h8, List.forall_mem_singleton.mpr hC⟩⟩
    exact (hostRead_resp_withLatch hother s l).symm

/-- A host access other than hardware reset does the same under the latch `l`, but that it keeps its own latch and that
the three registers show it. -/
theorem hostAccess_eq_withLatch {e : HostEvent} (he : e ≠ .hardReset) (s : State) (l : Latch) :
    hostAccess Config.params e s =
      ((hostAccess Config.params e (s.withLatch l)).withLatch s.latch).withResp
        (if e = .read 0x004 4 then .data (statusWord s)
        else if e = .read 0x008 4 then .data s.latch.cmd
        else if e = .read 0x00C 4 then .data s.latch.info
        else (hostAccess Config.params e (s.withLatch l)).hostResp) := by
  cases e with
  | read a n =>
    simp only [hostAccess]
    rw [← hostRead_resp_eq a n s l]
    exact hostRead_withLatch Config.params a n (s.withLatch l) s.latch
  | write a n v =>
    simp only [reduceCtorEq, if_false]
    exact hostWrite_withLatch Config.params a n v (s.withLatch l) s.latch
  | srcRead a => rfl
  | srcWrite a v => rfl
  | hardReset => exact absurd rfl he

/-- Settles O7: a command is `step_of_faulted`, and an access commutes with clearing the latch by
`hostAccess_eq_withLatch`; hardware reset clears the latch itself. -/
theorem faultedMachineIgnoresCommands : Obligations.FaultedMachineIgnoresCommands := by
  intro s e q hq hf
  refine ⟨fun w hw hne => ?_, fun he => ?_⟩
  · rw [commandOf_eq_some_iff] at hw
    subst hw
    exact step_of_faulted hq hf hne
  · refine ⟨_, _, step_of_access hq he, step_of_access (s := s.withLatch Latch.reset) hq he, ?_, fun hne => ?_⟩
    · rintro rfl
      rfl
    · exact hostAccess_eq_withLatch hne (s.accept q) Latch.reset

/-! ## What a faulting command leaves -/

theorem imprecise_eq_false {c : ErrCode} (halloc : c ≠ .allocFailure) (hcarry : c ≠ .carryInvariant) :
    c.imprecise = false := by
  cases c with
  | allocFailure => exact absurd rfl halloc
  | carryInvariant => exact absurd rfl hcarry
  | _ => rfl

theorem spoilOf_ne_macroblock {i : Instr} (hi : i ≠ .rcCodeMb) : spoilOf i ≠ .macroblock := by
  cases i with
  | rcCodeMb => exact absurd rfl hi
  | _ => nofun

/-- A command that ends with FAULTED = 1, started without a fault, has taken one that its body raised. -/
theorem exec_faulted {i : Instr} {s t : State} (hs : s.running) (h : exec i s = .next t)
    (hf : t.latch.faulted = true) :
    ∃ r, r.code ∈ faultsOf i ∧ t = takeFault Config.params (spoilOf i) (encode i) r s := by
  have hne : t.latch ≠ s.latch := fun heq => by
    rw [heq, show s.latch.faulted = false from hs] at hf
    cases hf
  rcases exec_cases h with ⟨-, rfl⟩ | ⟨-, rfl⟩ | ⟨-, hsoft, hok⟩ | ⟨-, -, r, herr, rfl⟩
  · cases hf
  · exact absurd rfl hne
  · exact absurd (body_latch hsoft hok) hne
  · exact ⟨r, body_error_code herr, rfl⟩

/-- No fault touches BW.STATE (rule R704). -/
theorem takeFault_bwState (P : Params) (sp : Spoil) (w : Word) (r : Raise) (s : State) :
    (takeFault P sp w r s).bw.st = s.bw.st := by
  rw [takeFault_bw]
  split_ifs <;> rfl

/-- The fields of the iterator that a fault may leave at any value: the flags, the summaries and the bit counts
(rule R704). -/
theorem takeFault_mi_frame (P : Params) (sp : Spoil) (w : Word) (r : Raise) (s : State) :
    (takeFault P sp w r s).mi = { s.mi with
      topNz := (takeFault P sp w r s).mi.topNz, leftNz := (takeFault P sp w r s).mi.leftNz
      nz := (takeFault P sp w r s).mi.nz, lumaBits := (takeFault P sp w r s).mi.lumaBits
      uvBits := (takeFault P sp w r s).mi.uvBits, bitCount := (takeFault P sp w r s).mi.bitCount } := by
  rw [takeFault_mi]
  split_ifs <;> rfl

/-- Of the summaries a fault spoils NZ[MI.X] only (rule R704). -/
theorem takeFault_nz_other (P : Params) (sp : Spoil) (w : Word) (r : Raise) (s : State) {x : Nat}
    (hx : x ≠ s.mi.x.toNat) : cellGet (takeFault P sp w r s).mi.nz x = cellGet s.mi.nz x := by
  rw [takeFault_mi]
  split_ifs
  · rw [spoilMi, cellGet_cellErase, if_neg hx]
  · rfl

/-- Settles O8: the command has taken a fault (`exec_faulted`), and the clauses are what `takeFault` leaves. -/
theorem faultsArePrecise : Obligations.FaultsArePrecise := by
  intro i s t hs h hf
  obtain ⟨r, hr, rfl⟩ := exec_faulted hs h hf
  refine ⟨rfl, fun hnone => none_notMem_faultsOf i (hnone ▸ hr), fun halloc hcarry => ?_, takeFault_eq _ _ _ _ s,
    takeFault_bwState _ _ _ _ s, fun hi => ?_, takeFault_mi_frame _ _ _ _ s,
    fun x hx => takeFault_nz_other _ _ _ _ s hx⟩
  · rw [takeFault_of_precise s (imprecise_eq_false halloc hcarry)]
    rfl
  · rw [takeFault_mi, if_neg fun hspoil => spoilOf_ne_macroblock hi hspoil.2]

/-! ## NOP -/

/-- Settles O12: NOP is ignored while FAULTED = 1, and its body leaves the state as it is. -/
theorem nopChangesNothing : Obligations.NopChangesNothing := by
  intro s
  rcases hf : s.latch.faulted with _ | _
  · exact exec_of_ok nofun hf rfl
  · rw [exec_eq_runCommand (i := .nop) nofun, runCommand_of_faulted _ _ _ _ hf]

end Sys2Proof.Machine
end

section
/-! PROOF. Reset, and the bytes of OUT that no later command changes (O11, O29). Coding bits only extends what is
written: `Bw.Extends` says so of two writers, and every Flush, hence every coding command, leaves such a writer. -/
namespace Sys2Proof.Machine

/-! ## Reset -/

/-- Settles O11: both resets leave `resetVrce`, SOFT_RESET of the state itself and hardware reset of the state that
has taken the event from the queue. -/
theorem resetsRestoreResetState : Obligations.ResetsRestoreResetState := by
  intro s
  refine ⟨⟨resetVrce Config.params s, exec_softReset s, rfl, statusWord_reset _ s, rfl⟩, fun q hq => ?_⟩
  exact step_of_access hq rfl

/-! ## What coding keeps of the bytes written -/

/-- `b'` has written on from `b`: BW.POS has not gone back, and of the bytes before it at most the last, which takes
the carries, differs (rule R404). -/
structure Bw.Extends (b b' : Bw) : Prop where
  pos_le : b.pos.toNat ≤ b'.pos.toNat
  out_eq : ∀ k, k + 1 < b.pos.toNat → cellGet b'.out k = cellGet b.out k

section
variable {P : Params} {tick : Nat} {b b' b'' : Bw}

theorem Bw.Extends.refl (b : Bw) : b.Extends b := ⟨le_rfl, fun _ _ => rfl⟩

theorem Bw.Extends.trans (h : b.Extends b') (h' : b'.Extends b'') : b.Extends b'' where
  pos_le := h.pos_le.trans h'.pos_le
  out_eq k hk := (h'.out_eq k (hk.trans_le h.pos_le)).trans (h.out_eq k hk)

/-- The carry of a Flush goes into OUT[BW.POS − 1], the run and the byte behind it (rule R404). -/
theorem cellGet_flushOut_of_settled (P : Params) (tick : Nat) (b : Bw) (bits : Nat) {k : Nat}
    (hk : k + 1 < b.pos.toNat) : cellGet (flushOut P tick b bits) k = cellGet b.out k := by
  rw [cellGet_flushOut, if_neg (by omega), if_neg (by omega), if_neg (by omega)]

/-- A Flush that writes has checked the room in OUT first, so that BW.POS does not wrap (rule R406). -/
theorem flush_extends (hP : P.outCap ≤ 2 ^ 28) (h : flush P tick b = .ok b') : b.Extends b' := by
  simp only [flush] at h
  split_ifs at h with _ _ hfull
  · cases h
    refine ⟨?_, fun k hk => cellGet_flushOut_of_settled P tick b _ hk⟩
    simp only [BitVec.toNat_ofNat]
    omega
  · cases h
    exact ⟨le_rfl, fun _ _ => rfl⟩

/-- What coding a decision does to the bytes: nothing before its Flush, if it has one (rule R400, rule R402). -/
theorem encodeBit_cases {d : CodedBit} (h : encodeBit P tick d b = .ok b') :
    ∃ b₁ : Bw, b₁.pos = b.pos ∧ b₁.out = b.out ∧ (b' = b₁ ∨ flush P tick b₁ = .ok b') := by
  have hnarrow : (narrow d.1 d.2 b).pos = b.pos ∧ (narrow d.1 d.2 b).out = b.out := by
    unfold narrow
    dsimp only
    split <;> exact ⟨rfl, rfl⟩
  obtain ⟨hpos, hout⟩ := hnarrow
  unfold encodeBit renormalize at h
  dsimp only at h
  split_ifs at h
  · refine ⟨_, ?_, ?_, .inr h⟩
    exacts [hpos, hout]
  · cases h
    refine ⟨_, ?_, ?_, .inl rfl⟩
    exacts [hpos, hout]
  · cases h
    exact ⟨_, hpos, hout, .inl rfl⟩

theorem encodeBit_extends {d : CodedBit} (hP : P.outCap ≤ 2 ^ 28) (h : encodeBit P tick d b = .ok b') :
    b.Extends b' := by
  obtain ⟨b₁, hpos, hout, hend⟩ := encodeBit_cases h
  have hbefore : b.Extends b₁ := ⟨hpos ▸ le_rfl, fun _ _ => hout ▸ rfl⟩
  rcases hend with rfl | hflush
  · exact hbefore
  · exact hbefore.trans (flush_extends hP hflush)

theorem encodeBits_extends {ds : List CodedBit} (hP : P.outCap ≤ 2 ^ 28) (h : encodeBits P tick ds b = .ok b') :
    b.Extends b' := by
  induction ds generalizing b with
  | nil => cases h; exact .refl _
  | cons d ds ih =>
    unfold encodeBits at h
    split at h
    · next b₁ hd => exact (encodeBit_extends hP hd).trans (ih h)
    · cases h

theorem finishBw_extends (hP : P.outCap ≤ 2 ^ 28) (h : finishBw P tick b = .ok b') : b.Extends b' := by
  obtain ⟨padded, flushed, hpad, hflush, rfl⟩ := finishBw_ok h
  have hlast := flush_extends hP hflush
  exact (encodeBits_extends hP hpad).trans ⟨hlast.pos_le, hlast.out_eq⟩

end

/-! ## What a command keeps of the bytes written -/

/-- A command that completes and starts no stream leaves the writer alone, or finds it in WRITING and codes decisions
or closes the stream. Only the commands that code have the writer among their parts (`State.withWritesOf`). -/
theorem body_bw_cases_of_ne_bwInit {i : Instr} {s t : State} (hsoft : i ≠ .softReset) (hinit : i ≠ .bwInit)
    (h : bodyOf Config.params i s = .ok t) :
    t.bw = s.bw ∨
      (s.bw.st = .writing ∧ ((∃ ds, encodeBits Config.params s.tick ds s.bw = .ok t.bw) ∨
        finishBw Config.params s.tick s.bw = .ok t.bw)) := by
  have hput {ds : List CodedBit} (h : putBits Config.params ds s = .ok t) :
      s.bw.st = .writing ∧ ((∃ ds, encodeBits Config.params s.tick ds s.bw = .ok t.bw) ∨
        finishBw Config.params s.tick s.bw = .ok t.bw) := by
    obtain ⟨hst, b, hb, rfl⟩ := putBits_ok h
    exact ⟨hst, .inl ⟨ds, hb⟩⟩
  cases i with
  | softReset => exact absurd rfl hsoft
  | bwInit => exact absurd rfl hinit
  | bwPutbit bit prob => exact .inr (hput h)
  | bwPutbitu bit => exact .inr (hput h)
  | bwPutbits nb val => exact .inr (hput h)
  | bwPutsbits nb val => exact .inr (hput h)
  | bwFinish =>
    rcases finishBody_ok h with ⟨-, rfl⟩ | ⟨hst, b, hb, rfl⟩
    · exact .inl rfl
    · exact .inr ⟨hst, .inr hb⟩
  | rcCodeBlock slot ty ctx =>
    obtain ⟨hst, -, b, hb, rfl⟩ := codeBlockBody_ok h
    exact .inr ⟨hst, .inl ⟨_, hb⟩⟩
  | rcCodeMb =>
    obtain ⟨-, hst, -, b₁, b₂, hb₁, hb₂, rfl⟩ := codeMbBody_ok h
    exact .inr ⟨hst, .inl ⟨_, (encodeBits_append_of_ok hb₁ _).trans hb₂⟩⟩
  | _ => rw [body_eq_withWritesOf h]; exact .inl rfl

/-- A command that ends without a fault has completed its body. -/
theorem body_of_exec_running {i : Instr} {s t : State} (hsoft : i ≠ .softReset) (hs : s.running)
    (h : exec i s = .next t) (ht : t.running) : bodyOf Config.params i s = .ok t := by
  rcases exec_cases h with ⟨hi, -⟩ | ⟨hf, -⟩ | ⟨-, -, hok⟩ | ⟨-, -, r, -, rfl⟩
  · exact absurd hi hsoft
  · rw [show s.latch.faulted = false from hs] at hf
    cases hf
  · exact hok
  · cases ht

/-- Settles O29: the command leaves the writer alone, or it codes and so extends what is written
(`encodeBits_extends`, `finishBw_extends`); it codes in WRITING only. -/
theorem writtenBytesSettle : Obligations.WrittenBytesSettle := by
  intro i s t hs h ht hinit hsoft
  rcases body_bw_cases_of_ne_bwInit hsoft hinit (body_of_exec_running hsoft hs h ht) with hbw | ⟨hst, hcode⟩
  · rw [hbw]
    exact ⟨⟨le_rfl, fun _ _ => rfl⟩, fun _ => rfl⟩
  · have hext : s.bw.Extends t.bw := by
      rcases hcode with ⟨ds, hb⟩ | hb
      · exact encodeBits_extends outCap_le hb
      · exact finishBw_extends outCap_le hb
    exact ⟨⟨hext.pos_le, hext.out_eq⟩, fun hne => absurd hst hne⟩

end Sys2Proof.Machine
end
